-- ==== Sys2Proof/Word.lean ====
section
/-! DEFINITION. The word types of the block: bytes, wire symbols, register words, line levels (spec/00_scope.md R7). -/

namespace Sys2Proof

/-- A byte, 8 bits, bit 0 the least significant (R7). -/
abbrev Byte := BitVec 8

/-- A wire symbol of format `W`: bit 8 is the level of the DC line, bits 7..0 the byte (R49). -/
abbrev Symbol := BitVec 9

/-- A 32-bit register or operand word (R17, R18, R20, R53). -/
abbrev Word32 := BitVec 32

/-- A 16-bit operand word (R53). -/
abbrev Word16 := BitVec 16

/-- The level of a GPIO line: `true` is 1 (HIGH), `false` is 0 (LOW) (R22). -/
abbrev Level := Bool

end Sys2Proof
end

