-- ==== Sys2Proof/Config.lean ====
section
/-! DEFINITION. The configuration record `CFG` (spec/10_state.md R27) with every parameter of spec/00_scope.md R5 and R6,
its default, and the free values: constants with no body that stand for what the spec leaves unspecified. -/

namespace Sys2Proof

/-- What INIT does when power went off less than `T_SETTLE` ago (R6, R92 step 6). -/
inductive SettlePolicy where
  | wait
  | refuse
deriving DecidableEq, Repr

/-- `COORD_BITS`, the width of one window coordinate on the wire (R5). The requests and payloads of R53 and R57 hold a
coordinate in one byte, so it is at most 8. DEDUCED (notes/assumptions/13.md). -/
abbrev CoordBits := { n : Nat // 1 ≤ n ∧ n ≤ 8 }

/-- A side of the panel in pixels: its coordinates `0 .. side-1` are representable in `COORD_BITS` bits (R5). DEDUCED
(notes/assumptions/13.md). -/
abbrev PanelSide (bits : CoordBits) := { n : Nat // 1 ≤ n ∧ n ≤ 2 ^ bits.val }

/-- The length in bytes of a frame with so many bytes per pixel: "132 x 176", "132 x 176 x 2" (R5), `WIDTH * HEIGHT`
pixels in general (R17, R59). -/
abbrev FrameLength (width height bytes : Nat) := { n : Nat // n = width * height * bytes }

/-- `CHUNK`, "legal range `CHUNK >= 1`" (R6). -/
abbrev ChunkSize := { n : Nat // 1 ≤ n }

/-- The configuration record `CFG`: "fixed for the life of the block", "an argument of the step relation" (R27). -/
structure Cfg where
  /-- `COORD_BITS` (R5). -/
  coordBits : CoordBits
  /-- `WIDTH` (R5). -/
  width : PanelSide coordBits
  /-- `HEIGHT` (R5). -/
  height : PanelSide coordBits
  /-- `BPP_SET`, the legal bits per pixel (R5), in the width of the register `BPP` that holds one of them (R16). -/
  bppSet : List (BitVec 5)
  /-- `LEN8`, the frame length at 8 bpp (R5). -/
  len8 : FrameLength width.val height.val 1
  /-- `LEN16`, the frame length at 16 bpp and the size of the array `FB` (R5, R35). -/
  len16 : FrameLength width.val height.val 2
  /-- `CHUNK`, the largest byte count of one SPI write (R5, R6). -/
  chunk : ChunkSize
  /-- `WORD_BITS`, the SPI word width (R5). -/
  wordBits : Nat
  /-- `TIME_UNIT`, in microseconds; the delays below are counted in it (R6). -/
  timeUnitMicros : Nat
  /-- `T_RST` (R5). -/
  tRst : Nat
  /-- `T_INIT1` (R5). -/
  tInit1 : Nat
  /-- `T_INIT2` (R5). -/
  tInit2 : Nat
  /-- `T_SETTLE` (R5). -/
  tSettle : Nat
  /-- `MADCTL_INIT` (R5). -/
  madctlInit : Byte
  /-- `PIXFMT_16` (R5). -/
  pixfmt16 : Byte
  /-- `PIXFMT_8`, open; no sequence of the block sends it (R6, R56). -/
  pixfmt8 : Byte
  /-- `OPC_SWRESET` (R6, R55). -/
  opcSwreset : Byte
  /-- `OPC_SLPOUT` (R6, R55). -/
  opcSlpout : Byte
  /-- `OPC_DISPON` (R6, R55). -/
  opcDispon : Byte
  /-- `OPC_CASET` (R6, R55). -/
  opcCaset : Byte
  /-- `OPC_PASET` (R6, R55). -/
  opcPaset : Byte
  /-- `OPC_RAMWR` (R6, R55). -/
  opcRamwr : Byte
  /-- `OPC_MADCTL` (R6, R55). -/
  opcMadctl : Byte
  /-- `OPC_COLMOD` (R6, R55). -/
  opcColmod : Byte
  /-- `PWR_ON` (R6). -/
  pwrOn : Level
  /-- `PWR_OFF` (R6). -/
  pwrOff : Level
  /-- `RST_LOW` (R6). -/
  rstLow : Level
  /-- `RST_HIGH` (R6). -/
  rstHigh : Level
  /-- `RST_IDLE` (R6, R97). -/
  rstIdle : Level
  /-- `DC_CMD` (R6). -/
  dcCmd : Level
  /-- `DC_DATA` (R6). -/
  dcData : Level
  /-- `DC_IDLE` (R6, R97). -/
  dcIdle : Level
  /-- `SPI_HZ`, open (R6). -/
  spiHz : Nat
  /-- `SPI_MODE` (R6). -/
  spiMode : Nat
  /-- `BUS_ID`, open (R6). -/
  busId : Nat
  /-- `CHIP_SELECT`, open (R6). -/
  chipSelect : Nat
  /-- `LINE_PWR`, open (R6). -/
  linePwr : Nat
  /-- `LINE_RST`, open (R6). -/
  lineRst : Nat
  /-- `LINE_DC`, open (R6). -/
  lineDc : Nat
  /-- `SPI_MSB_FIRST` (R6, R38). -/
  spiMsbFirst : Bool
  /-- `PERSIST` (R6, R98). -/
  persist : Bool
  /-- `SETTLE_POLICY` (R6, R92). -/
  settlePolicy : SettlePolicy
deriving DecidableEq, Repr

namespace Config

/-- `PIXFMT_8` of the default configuration: OPEN, no default (R6). -/
opaque pixfmt8 : Byte

/-- `SPI_HZ` of the default configuration: OPEN (R6). -/
opaque spiHz : Nat

/-- `BUS_ID` of the default configuration: OPEN (R6). -/
opaque busId : Nat

/-- `CHIP_SELECT` of the default configuration: OPEN (R6). -/
opaque chipSelect : Nat

/-- `LINE_PWR` of the default configuration: OPEN (R6). -/
opaque linePwr : Nat

/-- `LINE_RST` of the default configuration: OPEN (R6). -/
opaque lineRst : Nat

/-- `LINE_DC` of the default configuration: OPEN (R6). -/
opaque lineDc : Nat

/-- The platform's answer to the `n`-th draw, success or failure: free (R9, R70, R90). -/
opaque freeOk : Nat → Bool

/-- How much longer than its lower bound the `n`-th drawn step took: free, no upper bound (R24, R69). -/
opaque freeLag : Nat → Nat

/-- A line level the block has not set: free (R22, R29, R30). -/
opaque freeLevel : Nat → Level

/-- The unspecified value of `NOW` after reset (R29). -/
opaque freeNow : Nat → Nat

/-- The unspecified value of `BPP` after reset and after a failed LOAD (R29, R107). -/
opaque freeBpp : Nat → BitVec 5

/-- The unspecified value of `LEN` after reset and after a failed LOAD (R29, R107). -/
opaque freeLen : Nat → Word32

/-- The unspecified byte of `FB` at an address, in the `n`-th unspecified content (R29, R35, R107). -/
opaque freeByte : Nat → Nat → Byte

/-- The default configuration: the values of the tables of R5 and R6, in `TIME_UNIT`s of one microsecond. -/
def default : Cfg where
  coordBits := ⟨8, by decide⟩
  width := ⟨132, by decide⟩
  height := ⟨176, by decide⟩
  bppSet := [8#5, 16#5]
  len8 := ⟨23232, by decide⟩
  len16 := ⟨46464, by decide⟩
  chunk := ⟨63, by decide⟩
  wordBits := 8
  timeUnitMicros := 1
  tRst := 2000
  tInit1 := 20000
  tInit2 := 20000
  tSettle := 1500000
  madctlInit := 0x00#8
  pixfmt16 := 0x05#8
  pixfmt8 := pixfmt8
  opcSwreset := 0x01#8
  opcSlpout := 0x11#8
  opcDispon := 0x29#8
  opcCaset := 0x2A#8
  opcPaset := 0x2B#8
  opcRamwr := 0x2C#8
  opcMadctl := 0x36#8
  opcColmod := 0x3A#8
  pwrOn := true
  pwrOff := false
  rstLow := false
  rstHigh := true
  rstIdle := false
  dcCmd := false
  dcData := true
  dcIdle := false
  spiHz := spiHz
  spiMode := 0
  busId := busId
  chipSelect := chipSelect
  linePwr := linePwr
  lineRst := lineRst
  lineDc := lineDc
  spiMsbFirst := true
  persist := true
  settlePolicy := .wait

end Config

/-- The eight command bytes of a configuration, in the order of the table of R55. -/
def Cfg.opcodes (c : Cfg) : List Byte :=
  [c.opcSwreset, c.opcSlpout, c.opcDispon, c.opcCaset, c.opcPaset, c.opcRamwr, c.opcMadctl, c.opcColmod]

/-- A configuration whose wire symbols can be told apart: the two DC levels differ and no command byte is used twice.
The default configuration is one (R6, R55); DESIGN CHOICE as a premise (notes/assumptions/13.md). -/
def Cfg.codesDistinct (c : Cfg) : Bool :=
  (c.dcCmd != c.dcData) && decide c.opcodes.Nodup

end Sys2Proof
end

