-- ==== Sys2Proof/Syntax.lean ====
section
/-! DEFINITION. The instructions: one constructor of `Instr` for each of the 23 rows of spec/opcode_table.json, in the
table's order, and the forms in which a request reaches the block (spec/30_encoding.md R49, R53, R66). -/

namespace Sys2Proof

/-- The three GPIO lines (R22). -/
inductive Line where
  | pwr
  | rst
  | dc
deriving DecidableEq, Repr

/-- The three formats of the opcode table (R66). -/
inductive Format where
  /-- Format `H`: host operations, an 8-bit `op` and operands. -/
  | host
  /-- Format `W`: wire commands, a 9-bit symbol. -/
  | wire
  /-- Format `T`: transport primitives, no bit pattern. -/
  | transport
deriving DecidableEq, Repr

/-- The instructions: 8 host operations, 8 wire commands and the 2 generic symbols, 5 transport primitives. -/
inductive Instr where
  /-- LOAD width, height, bpp, src (R107); the operand `n` of R53 is the length of `src`. -/
  | load (width height : Word32) (bpp : Word16) (src : List Byte)
  /-- OPEN (R90). -/
  | openBus
  /-- INIT (R91). -/
  | init
  /-- SETWIN x1, y1, x2, y2 (R87). -/
  | setwin (x1 y1 x2 y2 : Byte)
  /-- FRAMEWR (R101). -/
  | framewr
  /-- PWROFF (R96). -/
  | pwroff
  /-- CLOSE (R98). -/
  | close
  /-- DCS cmd, payload (R86); the operand `n` of R53 is the length of `payload`. -/
  | dcs (cmd : Byte) (payload : List Byte)
  /-- SWRESET, soft reset (R76). -/
  | swreset
  /-- SLPOUT, exit-sleep (R77). -/
  | slpout
  /-- DISPON, enable-display (R82). -/
  | dispon
  /-- CASET s, e, set-column-address (R80). -/
  | caset (first last : Byte)
  /-- PASET s, e, set-page-address (R81). -/
  | paset (first last : Byte)
  /-- RAMWR, start-memory-write (R83). -/
  | ramwr
  /-- MADCTL m, set-address-mode (R79). -/
  | madctl (m : Byte)
  /-- COLMOD m, set-pixel-format (R78). -/
  | colmod (m : Byte)
  /-- CMD(b), `sendCommand` (R71). -/
  | cmd (b : Byte)
  /-- DAT(b), `sendData` (R72). -/
  | dat (b : Byte)
  /-- PINSET(line, level) (R67). -/
  | pinset (line : Line) (level : Level)
  /-- PINGET(line) (R68). -/
  | pinget (line : Line)
  /-- DELAY(d) (R69), `d` in `TIME_UNIT`s. -/
  | delay (d : Nat)
  /-- SPIWR(bytes) (R70). -/
  | spiwr (bytes : List Byte)
  /-- WRC(bytes), the chunk write (R73). -/
  | wrc (bytes : List Byte)
deriving DecidableEq, Repr

/-- The format of an instruction's row (R66). -/
def Instr.format : Instr → Format
  | .load _ _ _ _ => .host
  | .openBus => .host
  | .init => .host
  | .setwin _ _ _ _ => .host
  | .framewr => .host
  | .pwroff => .host
  | .close => .host
  | .dcs _ _ => .host
  | .swreset => .wire
  | .slpout => .wire
  | .dispon => .wire
  | .caset _ _ => .wire
  | .paset _ _ => .wire
  | .ramwr => .wire
  | .madctl _ => .wire
  | .colmod _ => .wire
  | .cmd _ => .wire
  | .dat _ => .wire
  | .pinset _ _ => .transport
  | .pinget _ => .transport
  | .delay _ => .transport
  | .spiwr _ => .transport
  | .wrc _ => .transport

/-- A call of a transport primitive. Format `T` has "no bit pattern of its own" (R66), so a request for one is the call
itself and not a word. -/
inductive PrimCall where
  | pinset (line : Line) (level : Level)
  | pinget (line : Line)
  | delay (d : Nat)
  | spiwr (bytes : List Byte)
  | wrc (bytes : List Byte)
deriving DecidableEq, Repr

/-- One request waiting for the block, in the form of its level (R9, R53, R65, R66). DESIGN CHOICE
(notes/assumptions/2.md): the source defines no packing. -/
inductive Request where
  /-- A host request record of format `H`: the `op` byte, then the operands in R53's order, each of more than one byte
  with its low byte first. -/
  | host (bytes : List Byte)
  /-- A wire-command mnemonic used as an operation (R65): the command symbol of format `W` and the parameter bytes. -/
  | wire (symbol : Symbol) (params : List Byte)
  /-- A call of a transport primitive. -/
  | call (p : PrimCall)
deriving DecidableEq, Repr

/-- Why the decoder turns a request away. -/
inductive DecodeError where
  /-- A host record without an `op` byte. -/
  | empty
  /-- `op` outside 0x01 .. 0x08: it "selects no operation" (R61). -/
  | unknownOp (op : Byte)
  /-- Fewer operand bytes than the operation's record has. -/
  | truncated
  /-- More operand bytes than the operation's record has. -/
  | trailing
deriving DecidableEq, Repr

end Sys2Proof
end

