-- ==== Sys2Proof/WellFormed.lean ====
section
/-! DEFINITION. Which instructions are well formed: operand counts within the widths of R53, SPI writes of 1 to `CHUNK`
bytes (R70, R73), and the generic command symbol only for a byte that no specific row of the table takes (R66). -/

namespace Sys2Proof

/-- The operand `n` of LOAD is unsigned 32-bit, that of DCS unsigned 16-bit (R53). -/
def fitsBits (width : Nat) (bytes : List Byte) : Bool :=
  decide (bytes.length < 2 ^ width)

/-- "`bytes`, a sequence of `n` bytes, `1 <= n <= CHUNK`" (R70, R73). -/
def transferLength (c : Cfg) (bytes : List Byte) : Bool :=
  decide (1 ≤ bytes.length) && decide (bytes.length ≤ c.chunk.val)

/-- Well-formedness of an instruction under a configuration. -/
def wellFormed (c : Cfg) : Instr → Bool
  | .load _ _ _ src => fitsBits 32 src
  | .openBus => true
  | .init => true
  | .setwin _ _ _ _ => true
  | .framewr => true
  | .pwroff => true
  | .close => true
  | .dcs _ payload => fitsBits 16 payload
  | .swreset => true
  | .slpout => true
  | .dispon => true
  | .caset _ _ => true
  | .paset _ _ => true
  | .ramwr => true
  | .madctl _ => true
  | .colmod _ => true
  | .cmd b => !c.opcodes.contains b
  | .dat _ => true
  | .pinset _ _ => true
  | .pinget _ => true
  | .delay _ => true
  | .spiwr bytes => transferLength c bytes
  | .wrc bytes => transferLength c bytes

end Sys2Proof
end

