-- ==== Sys2Proof/Decode.lean ====
section
/-! DEFINITION. The decoder, total on every request and rejecting by name, and after it the encoder
(spec/30_encoding.md R49, R53, R54, R55, R61, R66). The packing of a host record into bytes is the model's
(DESIGN CHOICE, notes/assumptions/2.md). -/

namespace Sys2Proof

/-! ## Byte order -/

/-- A 16-bit operand from its bytes, low byte first. -/
def le16 (b0 b1 : Byte) : Word16 := b1 ++ b0

/-- A 32-bit operand from its bytes, low byte first. -/
def le32 (b0 b1 b2 b3 : Byte) : Word32 := b3 ++ b2 ++ b1 ++ b0

/-- The bytes of a 16-bit operand, low byte first. -/
def bytes16 (w : Word16) : List Byte := [w.extractLsb' 0 8, w.extractLsb' 8 8]

/-- The bytes of a 32-bit operand, low byte first. -/
def bytes32 (w : Word32) : List Byte :=
  [w.extractLsb' 0 8, w.extractLsb' 8 8, w.extractLsb' 16 8, w.extractLsb' 24 8]

/-! ## Wire symbols -/

/-- The symbol of format `W` for a byte sent at a DC level: `d bbbbbbbb` (R49). -/
def symbolOf (d : Level) (b : Byte) : Symbol := BitVec.ofBool d ++ b

/-- Field `d` of a symbol: bit 8 (R49). -/
def symbolLevel (w : Symbol) : Level := w.getLsbD 8

/-- Field `b` of a symbol: bits 7..0 (R49). -/
def symbolByte (w : Symbol) : Byte := w.extractLsb' 0 8

/-! ## Host requests (format `H`) -/

/-- An operation whose record is the `op` byte alone. -/
def noOperands (i : Instr) : List Byte → Except DecodeError Instr
  | [] => .ok i
  | _ :: _ => .error .trailing

/-- The counted bytes of a record: exactly `n` of them must follow. -/
def counted (n : Nat) (bytes : List Byte) (i : Instr) : Except DecodeError Instr :=
  if bytes.length = n then .ok i
  else if bytes.length < n then .error .truncated
  else .error .trailing

/-- LOAD's operands: `width`, `height`, `bpp`, `n`, then `n` bytes (R53). -/
def decodeLoad : List Byte → Except DecodeError Instr
  | w0 :: w1 :: w2 :: w3 :: h0 :: h1 :: h2 :: h3 :: d0 :: d1 :: n0 :: n1 :: n2 :: n3 :: src =>
    counted (le32 n0 n1 n2 n3).toNat src (.load (le32 w0 w1 w2 w3) (le32 h0 h1 h2 h3) (le16 d0 d1) src)
  | _ => .error .truncated

/-- SETWIN's operands: `x1`, `y1`, `x2`, `y2` (R53). -/
def decodeSetwin : List Byte → Except DecodeError Instr
  | [x1, y1, x2, y2] => .ok (.setwin x1 y1 x2 y2)
  | _ :: _ :: _ :: _ :: _ => .error .trailing
  | _ => .error .truncated

/-- DCS's operands: `cmd`, `n`, then `n` bytes (R53). -/
def decodeDcs : List Byte → Except DecodeError Instr
  | cmd :: n0 :: n1 :: payload => counted (le16 n0 n1).toNat payload (.dcs cmd payload)
  | _ => .error .truncated

/-- The host operation a record stands for; the numbers are those of R54. -/
def decodeHost : List Byte → Except DecodeError Instr
  | [] => .error .empty
  | op :: operands =>
    if op = 0x01#8 then decodeLoad operands
    else if op = 0x02#8 then noOperands .openBus operands
    else if op = 0x03#8 then noOperands .init operands
    else if op = 0x04#8 then decodeSetwin operands
    else if op = 0x05#8 then noOperands .framewr operands
    else if op = 0x06#8 then noOperands .pwroff operands
    else if op = 0x07#8 then noOperands .close operands
    else if op = 0x08#8 then decodeDcs operands
    else .error (.unknownOp op)

/-! ## Wire commands (format `W`) -/

/-- A command with one parameter byte (R51: MADCTL, COLMOD). -/
def oneParam (f : Byte → Instr) : List Byte → Except DecodeError Instr
  | [m] => .ok (f m)
  | [] => .error .truncated
  | _ :: _ :: _ => .error .trailing

/-- A command with two parameter bytes (R51: CASET, PASET). -/
def twoParams (f : Byte → Byte → Instr) : List Byte → Except DecodeError Instr
  | [s, e] => .ok (f s e)
  | _ :: _ :: _ :: _ => .error .trailing
  | _ => .error .truncated

/-- The wire command a symbol stands for: "a decoder tries the eight specific rows before the generic `CMD` row" (R66). -/
def decodeWire (c : Cfg) (w : Symbol) (params : List Byte) : Except DecodeError Instr :=
  if symbolLevel w = c.dcCmd then
    if symbolByte w = c.opcSwreset then noOperands .swreset params
    else if symbolByte w = c.opcSlpout then noOperands .slpout params
    else if symbolByte w = c.opcDispon then noOperands .dispon params
    else if symbolByte w = c.opcCaset then twoParams .caset params
    else if symbolByte w = c.opcPaset then twoParams .paset params
    else if symbolByte w = c.opcRamwr then noOperands .ramwr params
    else if symbolByte w = c.opcMadctl then oneParam .madctl params
    else if symbolByte w = c.opcColmod then oneParam .colmod params
    else noOperands (.cmd (symbolByte w)) params
  else noOperands (.dat (symbolByte w)) params

/-! ## Transport primitives (format `T`) -/

/-- The instruction of a primitive call: the call itself names it (R66). -/
def decodeCall : PrimCall → Instr
  | .pinset l v => .pinset l v
  | .pinget l => .pinget l
  | .delay d => .delay d
  | .spiwr bytes => .spiwr bytes
  | .wrc bytes => .wrc bytes

/-- The decoder, total on every request. -/
def decode (c : Cfg) : Request → Except DecodeError Instr
  | .host bytes => decodeHost bytes
  | .wire w params => decodeWire c w params
  | .call p => .ok (decodeCall p)

/-! ## The encoder -/

/-- The wire request of a command: its symbol at the command level, then its parameter bytes (R51, R65). -/
def wireRequest (c : Cfg) (opcode : Byte) (params : List Byte) : Request :=
  .wire (symbolOf c.dcCmd opcode) params

/-- The request that stands for a well-formed instruction. -/
def encode (c : Cfg) : Instr → Request
  | .load width height bpp src =>
    .host (0x01#8 :: (bytes32 width ++ bytes32 height ++ bytes16 bpp ++ bytes32 (BitVec.ofNat 32 src.length) ++ src))
  | .openBus => .host [0x02#8]
  | .init => .host [0x03#8]
  | .setwin x1 y1 x2 y2 => .host [0x04#8, x1, y1, x2, y2]
  | .framewr => .host [0x05#8]
  | .pwroff => .host [0x06#8]
  | .close => .host [0x07#8]
  | .dcs cmd payload => .host (0x08#8 :: cmd :: (bytes16 (BitVec.ofNat 16 payload.length) ++ payload))
  | .swreset => wireRequest c c.opcSwreset []
  | .slpout => wireRequest c c.opcSlpout []
  | .dispon => wireRequest c c.opcDispon []
  | .caset s e => wireRequest c c.opcCaset [s, e]
  | .paset s e => wireRequest c c.opcPaset [s, e]
  | .ramwr => wireRequest c c.opcRamwr []
  | .madctl m => wireRequest c c.opcMadctl [m]
  | .colmod m => wireRequest c c.opcColmod [m]
  | .cmd b => wireRequest c b []
  | .dat b => .wire (symbolOf c.dcData b) []
  | .pinset l v => .call (.pinset l v)
  | .pinget l => .call (.pinget l)
  | .delay d => .call (.delay d)
  | .spiwr bytes => .call (.spiwr bytes)
  | .wrc bytes => .call (.wrc bytes)

/-! ## Words of the opcode table -/

/-- How many operand bytes of zero complete a host record whose counts are zero (R53). -/
def zeroOperandCount (op : Byte) : Nat :=
  if op = 0x01#8 then 14 else if op = 0x04#8 then 4 else if op = 0x08#8 then 3 else 0

/-- How many parameter bytes the command of a symbol has in the table of R51. -/
def paramCount (c : Cfg) (w : Symbol) : Nat :=
  if symbolLevel w = c.dcCmd then
    if symbolByte w = c.opcCaset ∨ symbolByte w = c.opcPaset then 2
    else if symbolByte w = c.opcMadctl ∨ symbolByte w = c.opcColmod then 1
    else 0
  else 0

/-- The request whose table bits are `w` and whose other bits are zero: rows of format `H` are one byte wide, rows of
format `W` nine bits, in two bytes (R66). A word that fits no row's width gives a record without an `op` byte, which
the decoder rejects. -/
def tableRequest (c : Cfg) (nbits w : Nat) : Request :=
  if nbits = 8 ∧ w < 256 then
    .host (BitVec.ofNat 8 w :: List.replicate (zeroOperandCount (BitVec.ofNat 8 w)) 0#8)
  else if 9 ≤ nbits ∧ nbits ≤ 16 ∧ w < 512 then
    .wire (BitVec.ofNat 9 w) (List.replicate (paramCount c (BitVec.ofNat 9 w)) 0#8)
  else .host []

/-- The instruction the decoder reads from an instruction of the table whose bits are `w`, under the default
configuration, which the table's `match` values assume (R66). -/
def decodeTableWord (nbits w : Nat) : Option Instr :=
  (decode Config.default (tableRequest Config.default nbits w)).toOption

end Sys2Proof
end

