-- ==== Sys2Proof/Machine/State.lean ====
section
/-! DEFINITION. The state of the block (spec/10_state.md R12 to R33) as plain data, its reset value (R29), and the named
reasons for which a step stops. -/

namespace Sys2Proof.Machine

/-! ## Registers -/

/-- `PSTATE`: the document's PanelState (R13). -/
inductive PanelState where
  | poweredOff
  | resetting
  | initializing
  | ready
deriving DecidableEq, Repr

/-- `STATUS`: the status codes; "value 7 is never written" (R21, R114). -/
inductive Status where
  | ok
  | usageError
  | inputFormatError
  | validationError
  | busError
  | protocolTimingViolation
  | stateError
deriving DecidableEq, Repr

/-- `LINE[PWR]`, `LINE[RST]`, `LINE[DC]` (R22). -/
structure Lines where
  pwr : Level
  rst : Level
  dc : Level
deriving DecidableEq, Repr

/-! ## Output lists -/

/-- What OPEN acquires (R90): the SPI device and the three lines. -/
inductive Resource where
  | spi
  | line (l : Line)
deriving DecidableEq, Repr

/-- The direction OPEN gives a line (R90, R129): the block sets no other. -/
inductive Direction where
  | output
deriving DecidableEq, Repr

/-- What a `Configure(what, value)` call sets, with its value (R90). -/
inductive Setting where
  | speed (hz : Nat)
  | mode (mode : Nat)
  | bitsPerWord (n : Nat)
  | direction (l : Line) (d : Direction)
deriving DecidableEq, Repr

/-- An entry of `TRACE` (R26). -/
inductive Event where
  | acquire (r : Resource) (ok : Bool)
  | configure (what : Setting)
  | free (r : Resource)
  | pinSet (l : Line) (level : Level) (t : Nat)
  | pinGet (l : Line) (level : Level) (t : Nat)
  | spiWrite (dc : Level) (bytes : List Byte) (ok : Bool) (t : Nat)
  | wait (d t0 t1 : Nat)
deriving DecidableEq, Repr

/-- The one warning of the block (R25). -/
inductive Warning where
  | poweroffNoContext
deriving DecidableEq, Repr

/-- An entry of `LOG`: the warning and the value of `NOW` (R25). -/
structure LogEntry where
  warning : Warning
  time : Nat
deriving DecidableEq, Repr

/-! ## The frame buffer -/

/-- `FB` (R35): the bytes that have a value, as (address, byte) pairs with strictly rising addresses. An address that is
not listed holds no value (R29: "unspecified"); `fill` labels that unspecified content for `Config.freeByte`. -/
structure Memory where
  cells : List Host.Cell
  fill : Nat
deriving DecidableEq, Repr

/-! ## The model's own fields -/

/-- What the environment answers (R9: the platform's answers and time are "inputs of the step relation"): the answers
already fixed, and how many draws have been made. When a list is used up, the draw is a free value of `Config`. -/
structure Env where
  /-- Answers, success or failure, to the coming acquisitions and SPI writes. -/
  oks : List Bool
  /-- How much longer than their lower bounds the coming steps take. -/
  lags : List Nat
  /-- The levels that lines take when they become unspecified. -/
  levels : List Level
  /-- How many draws have been made. -/
  drawn : Nat
deriving DecidableEq, Repr

/-- What a transport primitive or wire command, run as an instruction of its own, hands back to its caller
(R68 `return v`, R70 `return ok`, R71 `raise BusError`). -/
inductive Reply where
  | none
  | done
  | level (v : Level)
  | answer (ok : Bool)
  | raised (e : Status)
deriving DecidableEq, Repr

/-! ## The state -/

/-- The state tuple of R12, the configuration record the step relation takes as an argument (R27), and the model's own
fields `requests`, `env` and `reply` (notes/assumptions/1.md to 3.md). -/
structure State where
  /-- `CFG` (R27); no step changes it. -/
  cfg : Cfg
  /-- CR0 `PSTATE` (R13). -/
  pstate : PanelState
  /-- CR1 `CTX` (R14). -/
  ctx : Bool
  /-- CR2 `FBV` (R15). -/
  fbv : Bool
  /-- CR3 `BPP` (R16). -/
  bpp : BitVec 5
  /-- CR4 `LEN` (R17). -/
  len : Word32
  /-- CR5 `OFF` (R18). -/
  off : Word32
  /-- CR6 `SEQ` (R19). -/
  seq : BitVec 5
  /-- CR7 `COUNT` (R20). -/
  count : Word32
  /-- CR8 `STATUS` (R21). -/
  status : Status
  /-- CR9 to CR11 `LINE[PWR]`, `LINE[RST]`, `LINE[DC]` (R22). -/
  lines : Lines
  /-- CR12 `TOFF` (R23). -/
  toff : Option Nat
  /-- CR13 `NOW` (R24). -/
  now : Nat
  /-- `FB` (R35). -/
  fb : Memory
  /-- `LOG` (R25), oldest first. -/
  log : List LogEntry
  /-- `TRACE` (R26), in the order made. -/
  trace : List Event
  /-- MODEL's own: the requests the host has issued and the block has not taken, oldest first (R9 (a)). -/
  requests : List Request
  /-- MODEL's own: the platform's answers and the passage of time (R9 (b), (c)). -/
  env : Env
  /-- MODEL's own: what the last primitive or wire command run as an instruction handed back. -/
  reply : Reply
deriving DecidableEq, Repr

/-- Why the machine stops with a fault. -/
inductive Fault where
  /-- Raised by FRAMEWR when `OFF .. OFF+n` leaves the array `FB` (R35, R42: "an access outside ... cannot be formed").
  Safe: the machine stops, and no state that a run reaches has such a `LEN`. -/
  | frameBufferRange
deriving DecidableEq, Repr

/-- Why the machine refuses a request. -/
inductive Refusal where
  /-- Raised by exec for an instruction without a meaning. No instruction is without one. Safe. -/
  | notModelled (mnemonic : String)
  /-- Raised by step for bytes that are no request record (too few or too many operand bytes); R53 defines no packing.
  Safe: the machine stops. -/
  | malformedRequest (why : DecodeError)
  /-- Raised by SPIWR and WRC for a byte count outside `1 .. CHUNK`, which "is never issued" (R70, R144).
  Safe: the machine stops. -/
  | transferLength
deriving DecidableEq, Repr

/-! ## Reset -/

/-- The state after reset (R29, R133). Every entry of the table that is "unspecified" is a free value of `Config`:
DESIGN CHOICE (notes/assumptions/4.md). The first three draws name the line levels, so `drawn` starts at 3. -/
def State.reset : State where
  cfg := Config.default
  pstate := .poweredOff
  ctx := false
  fbv := false
  bpp := Config.freeBpp 0
  len := Config.freeLen 0
  off := 0#32
  seq := 0#5
  count := 0#32
  status := .ok
  lines := ⟨Config.freeLevel 0, Config.freeLevel 1, Config.freeLevel 2⟩
  toff := Option.none
  now := Config.freeNow 0
  fb := ⟨[], 0⟩
  log := []
  trace := []
  requests := []
  env := ⟨[], [], [], 3⟩
  reply := .none

end Sys2Proof.Machine
end

