-- ==== Sys2Proof/Machine/Flags.lean ====
section
/-! DEFINITION. The flags of the block (spec/10_state.md R32): the codes of `PSTATE` and `STATUS`, and the admission of
each host operation by `CTX`, `PSTATE` and `FBV` (spec/42_power_reset_sequencer.md R99). -/

namespace Sys2Proof.Machine

/-- The code of `PSTATE` (R13). -/
def panelCode : PanelState → BitVec 2
  | .poweredOff => 0#2
  | .resetting => 1#2
  | .initializing => 2#2
  | .ready => 3#2

/-- The code of `STATUS` (R21, R114). -/
def statusCode : Status → BitVec 3
  | .ok => 0#3
  | .usageError => 1#3
  | .inputFormatError => 2#3
  | .validationError => 3#3
  | .busError => 4#3
  | .protocolTimingViolation => 5#3
  | .stateError => 6#3

/-- OPEN is admitted when `CTX = 0` and `FBV = 1` (R90, R99). -/
def openAdmitted (s : State) : Bool := !s.ctx && s.fbv

/-- INIT is admitted when `CTX = 1` and `PSTATE = PoweredOff` (R91, R99). -/
def initAdmitted (s : State) : Bool := s.ctx && decide (s.pstate = .poweredOff)

/-- SETWIN and DCS are admitted when `CTX = 1` and `PSTATE = Ready` (R86, R87, R99). -/
def readyAdmitted (s : State) : Bool := s.ctx && decide (s.pstate = .ready)

/-- FRAMEWR is admitted when `CTX = 1`, `PSTATE = Ready` and `FBV = 1` (R101, R99). -/
def frameAdmitted (s : State) : Bool := readyAdmitted s && s.fbv

end Sys2Proof.Machine
end

