-- ==== Sys2Proof/Machine/Operands.lean ====
section
/-! DEFINITION. Operand forms: window payloads (`P4`, `P2`) and the coordinate filter (R57, R84), coordinate ranges (R87),
image validation and frame lengths (R59, R107), the byte swap (R109, R113) and the chunk schedule (R102). -/

namespace Sys2Proof.Machine

/-! ## Window payloads -/

/-- `BE16(b0,b1) = 256*b0 + b1` (R7, R57). -/
def be16 (b0 b1 : Byte) : Word16 := b0 ++ b1

/-- The four bytes of format `P4`: big-endian start, big-endian end (R57). -/
def payloadP4 (first last : Word16) : List Byte :=
  [first.extractLsb' 8 8, first.extractLsb' 0 8, last.extractLsb' 8 8, last.extractLsb' 0 8]

/-- The two bytes of format `P2`: the low bytes of start and end (R57). -/
def payloadP2 (first last : Word16) : List Byte :=
  [first.extractLsb' 0 8, last.extractLsb' 0 8]

/-- `FILTER(cmd, payload)` (R84): positions 1 and 3 of a 4-byte column- or page-address payload
(spec/90_conflicts.md C1), every other payload unchanged. -/
def coordFilter (c : Cfg) (cmd : Byte) (payload : List Byte) : List Byte :=
  match payload with
  | [p0, p1, p2, p3] => if cmd = c.opcCaset ∨ cmd = c.opcPaset then [p1, p3] else [p0, p1, p2, p3]
  | other => other

/-- The coordinates of SETWIN lie in `0 .. WIDTH-1` and `0 .. HEIGHT-1` (R87). -/
def windowInRange (c : Cfg) (x1 y1 x2 y2 : Byte) : Bool :=
  decide (x1.toNat < c.width.val) && decide (x2.toNat < c.width.val) &&
  decide (y1.toNat < c.height.val) && decide (y2.toNat < c.height.val)

/-! ## Images -/

/-- The frame length at a depth: `LEN16` at 16 bpp, else `LEN8` (R5), which is
`WIDTH * HEIGHT * (if bpp = 16 then 2 else 1)` (R17, R59). -/
def frameLen (c : Cfg) (bpp : Nat) : Nat := if bpp = 16 then c.len16.val else c.len8.val

/-- The size of the array `FB`: `LEN16`, "the size of the largest legal frame" (R35). -/
def fbSize (c : Cfg) : Nat := c.len16.val

/-- The depth is one of `BPP_SET` (R5, R107). -/
def depthLegal (c : Cfg) (bpp : Word16) : Bool := c.bppSet.any fun d => decide (d.setWidth 16 = bpp)

/-- The validation of LOAD: width, then height, then depth; all give ValidationError (R107, R117, R123). Width and height
are signed and compared as they are. -/
def imageValid (c : Cfg) (width height : Word32) (bpp : Word16) : Bool :=
  decide (width.toInt = (c.width.val : Int)) && decide (height.toInt = (c.height.val : Int)) &&
  depthLegal c bpp

/-- The byte swap of 16-bit pixels (R109, R113): every pair at an even offset is exchanged. -/
def swap16 : List Byte → List Byte
  | b0 :: b1 :: rest => b1 :: b0 :: swap16 rest
  | rest => rest

/-- The frame LOAD makes of its source bytes: the first `LEN` of them, swapped at 16 bpp (R108, R109). -/
def frameOf (c : Cfg) (bpp : Word16) (src : List Byte) : List Byte :=
  if bpp = 16#16 then swap16 (src.take (frameLen c bpp.toNat)) else src.take (frameLen c bpp.toNat)

/-! ## The chunk schedule -/

/-- The length of the next chunk of FRAMEWR: `min(CHUNK, LEN - OFF)` (R101). -/
def chunkLen (c : Cfg) (len off : Nat) : Nat := min c.chunk.val (len - off)

/-- `NCH = ceil(LEN / CHUNK)` (R59, R102). -/
def chunkCount (c : Cfg) (len : Nat) : Nat := (len + c.chunk.val - 1) / c.chunk.val

end Sys2Proof.Machine
end

