-- ==== Sys2Proof/Machine/Ops.lean ====
section
/-! DEFINITION. The named operations over the state: draws and time, the lines, the frame buffer, the transport primitives
PINSET, PINGET, DELAY, SPIWR, CMD, DAT, WRC (spec/40_bus_transport.md), the abort of a host operation (spec/60_exceptions.md
R124), which is this block's exception entry, and the running of numbered steps (spec/10_state.md R19). -/

namespace Sys2Proof.Machine

/-! ## Draws (R8 `draw`, R9) -/

/-- The platform's next answer (R9 (b)). -/
def Env.ok (e : Env) : Bool := e.oks.headD (Config.freeOk e.drawn)

/-- The environment after an answer. -/
def Env.afterOk (e : Env) : Env := { e with oks := e.oks.tail, drawn := e.drawn + 1 }

/-- How much longer than its lower bound the next step takes (R24). -/
def Env.lag (e : Env) : Nat := e.lags.headD (Config.freeLag e.drawn)

/-- The environment after a step has taken its time. -/
def Env.afterLag (e : Env) : Env := { e with lags := e.lags.tail, drawn := e.drawn + 1 }

/-- The level a line takes when it becomes unspecified (R22, R30). -/
def Env.level (e : Env) : Level := e.levels.headD (Config.freeLevel e.drawn)

/-- The environment after a level was drawn. -/
def Env.afterLevel (e : Env) : Env := { e with levels := e.levels.tail, drawn := e.drawn + 1 }

/-- The environment after an unspecified register or buffer content was drawn. -/
def Env.afterFree (e : Env) : Env := { e with drawn := e.drawn + 1 }

/-! ## Time and the trace -/

/-- A step takes its time: `NOW` advances by some `e >= 0` (R24). -/
def tick (s : State) : State := { s with now := s.now + s.env.lag, env := s.env.afterLag }

/-- `emit(e)` (R8, R26). -/
def emit (e : Event) (s : State) : State := { s with trace := s.trace ++ [e] }

/-! ## Lines -/

/-- The level of a line (R22). -/
def Lines.get (ls : Lines) : Line → Level
  | .pwr => ls.pwr
  | .rst => ls.rst
  | .dc => ls.dc

/-- The lines after one is set (R22). -/
def Lines.set (ls : Lines) (l : Line) (v : Level) : Lines :=
  match l with
  | .pwr => { ls with pwr := v }
  | .rst => { ls with rst := v }
  | .dc => { ls with dc := v }

/-! ## The frame buffer -/

/-- A frame buffer with unspecified contents, under a label of its own (R29, R107). -/
def Memory.unspecified (label : Nat) : Memory := ⟨[], label⟩

/-- The value at an address, or `none` where the buffer holds no value. -/
def cellAt : List Host.Cell → Nat → Option Byte
  | [], _ => none
  | (k, v) :: rest, a => if k = a then some v else cellAt rest a

/-- The cells after a byte is written, addresses kept strictly rising. -/
def cellPut : List Host.Cell → Nat → Byte → List Host.Cell
  | [], a, v => [(a, v)]
  | (k, w) :: rest, a, v =>
    if a < k then (a, v) :: (k, w) :: rest
    else if a = k then (a, v) :: rest
    else (k, w) :: cellPut rest a v

/-- Read of one byte that may hold no value. -/
def Memory.read? (m : Memory) (a : Nat) : Option Byte := cellAt m.cells a

/-- `FB[a]` (R8). What an address that is not listed reads as is decided here: a free byte of the buffer's unspecified
content (R29, R35). DESIGN CHOICE (notes/assumptions/5.md). -/
def Memory.read (m : Memory) (a : Nat) : Byte := (m.read? a).getD (Config.freeByte m.fill a)

/-- `FB[a] <- v` (R8). -/
def Memory.write (m : Memory) (a : Nat) (v : Byte) : Memory := { m with cells := cellPut m.cells a v }

/-- Writes a byte sequence from an address on. -/
def Memory.fillFrom (m : Memory) (a : Nat) : List Byte → Memory
  | [] => m
  | b :: bs => (m.fillFrom (a + 1) bs).write a b

/-- `FB[a .. a+n)` (R8). -/
def Memory.readRange (m : Memory) (a n : Nat) : List Byte := (List.range' a n).map m.read

/-- The addresses of a cell list rise strictly, from a bound on. -/
def risingFrom : Nat → List Host.Cell → Bool
  | _, [] => true
  | lo, (k, _) :: rest => decide (lo ≤ k) && risingFrom (k + 1) rest

/-- The canonical form of the frame buffer. An unlisted address holds no value, so no entry can equal it. -/
def Memory.wf (m : Memory) : Bool := risingFrom 0 m.cells

/-! ## Abort, refusal and completion (R124) -/

/-- `raise E`: "no later step of the operation runs; `STATUS <- E`; `SEQ <- 0`" (R124). -/
def raiseStatus (e : Status) (s : State) : State := { s with status := e, seq := 0#5 }

/-- `refuse E`: "only `STATUS` changes" (R99, R124). -/
def refuse (e : Status) (s : State) : State := { s with status := e }

/-- The end of a host operation that completed: `STATUS <- OK`, `SEQ <- 0` (R19, R21). There is no return instruction:
after an error "the next operation starts from the state the abort left" (R125). -/
def complete (s : State) : State := { s with status := .ok, seq := 0#5 }

/-- How a step of a sequence ends. -/
inductive Res where
  /-- It completed. -/
  | ok (s : State)
  /-- It raised an error (R124). -/
  | err (e : Status) (s : State)
  /-- It stopped the machine. -/
  | fault (f : Fault)
deriving DecidableEq, Repr

/-- Sequencing: what follows runs only after a completed step (R124). -/
def Res.andThen (r : Res) (f : State → Res) : Res :=
  match r with
  | .ok s => f s
  | .err e s => .err e s
  | .fault f => .fault f

/-- The outcome of a host operation whose steps ended so (R19, R124). -/
def Res.toOutcome : Res → Host.Outcome State Fault Refusal
  | .ok s => .next (complete s)
  | .err e s => .next (raiseStatus e s)
  | .fault f => .fault f

/-- The outcome of a primitive or wire command run as an instruction of its own: the error "goes to the caller" (R71),
here the model's field `reply`, and `STATUS` is not written. -/
def Res.toReply : Res → Host.Outcome State Fault Refusal
  | .ok s => .next { s with reply := .done }
  | .err e s => .next { s with reply := .raised e }
  | .fault f => .fault f

/-- A primitive needs the handle: "Requires `CTX = 1`" (R67). Without one no platform call is made and the caller gets
StateError (R120: "no handle"). DESIGN CHOICE (notes/assumptions/6.md). -/
def withHandle (s : State) (run : State → Host.Outcome State Fault Refusal) : Host.Outcome State Fault Refusal :=
  if s.ctx then run s else .next { s with reply := .raised .stateError }

/-! ## Transport primitives (R67 to R73)

Every platform call returns. R129 lets a model assume that no call blocks forever, or admit one and let a claim of
termination assume it away; U16 of spec/93_implementation_defined.md calls such a call stuck. DESIGN CHOICE
(notes/assumptions/33.md): the model takes the first. -/

/-- PINSET(line, level) (R67). -/
def pinset (l : Line) (v : Level) (s : State) : State :=
  tick (emit (.pinSet l v s.now) { s with lines := s.lines.set l v })

/-- PINGET(line) (R68): the value and the state after. -/
def pinget (l : Line) (s : State) : Level × State :=
  (s.lines.get l, tick (emit (.pinGet l (s.lines.get l) s.now) s))

/-- DELAY(d) (R69): `NOW` advances by some `e >= d`; the sleep ends. DESIGN CHOICE (notes/assumptions/33.md). -/
def delay (d : Nat) (s : State) : State :=
  emit (.wait d s.now (s.now + d + s.env.lag)) { s with now := s.now + d + s.env.lag, env := s.env.afterLag }

/-- SPIWR(bytes) (R70): the platform's answer and the state after. The call always returns. DESIGN CHOICE
(notes/assumptions/33.md). -/
def spiwr (bytes : List Byte) (s : State) : Bool × State :=
  (s.env.ok, tick (emit (.spiWrite s.lines.dc bytes s.env.ok s.now) { s with env := s.env.afterOk }))

/-- A write whose failure is raised as BusError (R71, R72). -/
def spiwrOrRaise (bytes : List Byte) (s : State) : Res :=
  if (spiwr bytes s).1 then .ok (spiwr bytes s).2 else .err .busError (spiwr bytes s).2

/-- CMD(b) (R71). -/
def cmd (b : Byte) (s : State) : Res := spiwrOrRaise [b] (pinset .dc s.cfg.dcCmd s)

/-- DAT(b) (R72). -/
def dat (b : Byte) (s : State) : Res := spiwrOrRaise [b] (pinset .dc s.cfg.dcData s)

/-- WRC(bytes) (R73): SPIWR with no PINSET. The precondition `LINE[DC] = DC_DATA` is the caller's and is not checked here
(DESIGN CHOICE, notes/assumptions/34.md). -/
def wrc (bytes : List Byte) (s : State) : Bool × State := spiwr bytes s

/-! ## Command frames (R51, R85, R88) -/

/-- The parameter bytes of a frame, each by DAT, until one fails (R51, R88). -/
def sendParams : List Byte → State → Res
  | [], s => .ok s
  | p :: ps, s => (dat p s).andThen (sendParams ps)

/-- The command frame of format `CF`: CMD, then DAT for each parameter (R51). -/
def sendFrame (opcode : Byte) (params : List Byte) (s : State) : Res :=
  (cmd opcode s).andThen (sendParams params)

/-- SENDDCS(cmd, payload) (R85): the filter in front of the generic sender. -/
def sendDcs (opcode : Byte) (payload : List Byte) (s : State) : Res :=
  sendFrame opcode (coordFilter s.cfg opcode payload) s

/-! ## Numbered steps (R19) -/

/-- A step of a host operation. -/
abbrev Step := State → Res

/-- Runs steps in order, the first of them number `k`: `SEQ` holds the number of the step that runs, and after step `k`
completes it is `k+1` (R19). -/
def runFrom : Nat → List Step → Step
  | k, [], s => .ok { s with seq := BitVec.ofNat 5 k }
  | k, f :: fs, s => (f { s with seq := BitVec.ofNat 5 k }).andThen (runFrom (k + 1) fs)

/-- A step that cannot fail. -/
def plain (f : State → State) : Step := fun s => .ok (f s)

/-- A register update as a step of its own; it takes its time like every step (R11, R24). -/
def setPstate (p : PanelState) (s : State) : State := tick { s with pstate := p }

/-! ## The power-off pin sequence (R97) -/

/-- POWEROFF_PINS: `TOFF <- NOW` and power, then reset, then select to their inactive levels (R97). -/
def poweroffPins (c : Cfg) : List Step :=
  [plain fun s => pinset .pwr c.pwrOff { s with toff := some s.now },
   plain (pinset .rst c.rstIdle),
   plain (pinset .dc c.dcIdle)]

/-! ## Reset of the block (R133) -/

/-- Reset as an event in the life of the block: the values of R29, the configuration unchanged (R27), "the three lines,
`NOW` and `FB` unspecified", no platform call made, the host's requests untouched. -/
def blockReset (s : State) : State :=
  { State.reset with
    cfg := s.cfg
    bpp := Config.freeBpp s.env.drawn
    len := Config.freeLen s.env.drawn
    fb := Memory.unspecified s.env.drawn
    now := Config.freeNow s.env.drawn
    lines := ⟨s.env.level, s.env.afterLevel.level, s.env.afterLevel.afterLevel.level⟩
    env := s.env.afterLevel.afterLevel.afterLevel
    requests := s.requests }

end Sys2Proof.Machine
end

