-- ==== Sys2Proof/Machine/ImageSource.lean ====
section
/-! DEFINITION. The meaning of the host operation LOAD: validation and byte swap of the Image Source Adapter
(spec/44_image_source_adapter.md R107 to R110). -/

namespace Sys2Proof.Machine

/-- A failed LOAD: "`FBV <- 0` and the contents of `FB`, `BPP`, `LEN` are unspecified" (R107): free values. -/
def loadFailed (s : State) : State :=
  { s with
    fbv := false
    bpp := Config.freeBpp s.env.drawn
    len := Config.freeLen s.env.drawn
    fb := Memory.unspecified s.env.drawn
    env := s.env.afterFree }

/-- A LOAD that passed its checks: the frame in `FB[0 .. LEN)`, the bytes at `LEN` and above unspecified (R35), and
`BPP`, `LEN`, `FBV` (R107). -/
def loadFrame (bpp : Word16) (src : List Byte) (s : State) : State :=
  { s with
    fbv := true
    bpp := bpp.setWidth 5
    len := BitVec.ofNat 32 (frameLen s.cfg bpp.toNat)
    fb := (Memory.unspecified s.env.drawn).fillFrom 0 (frameOf s.cfg bpp src)
    env := s.env.afterFree }

/-- LOAD width, height, bpp, src (R107): validation, then length (R108, R123), then the fill (R109). It makes no platform
call (R110). -/
def execLoad (width height : Word32) (bpp : Word16) (src : List Byte) (s : State) :
    Host.Outcome State Fault Refusal :=
  if imageValid s.cfg width height bpp then
    if src.length < frameLen s.cfg bpp.toNat then .next (raiseStatus .inputFormatError (loadFailed s))
    else .next (complete (loadFrame bpp src s))
  else .next (raiseStatus .validationError (loadFailed s))

end Sys2Proof.Machine
end

