-- ==== Sys2Proof/Machine/Panel.lean ====
section
/-! DEFINITION. The meanings of the eight wire commands, used as operations (spec/30_encoding.md R65,
spec/41_panel_protocol.md R76 to R83), and of the host operations DCS (R86) and SETWIN (R87). -/

namespace Sys2Proof.Machine

/-- A wire command used as an operation "stand[s] for the command frame of rule R51" (R65). -/
def wireCommand (opcode : Byte) (params : List Byte) (s : State) : Host.Outcome State Fault Refusal :=
  withHandle s fun s => (sendFrame opcode params s).toReply

/-- SWRESET (R76). -/
def execSwreset (s : State) : Host.Outcome State Fault Refusal := wireCommand s.cfg.opcSwreset [] s

/-- SLPOUT (R77). -/
def execSlpout (s : State) : Host.Outcome State Fault Refusal := wireCommand s.cfg.opcSlpout [] s

/-- DISPON (R82). -/
def execDispon (s : State) : Host.Outcome State Fault Refusal := wireCommand s.cfg.opcDispon [] s

/-- CASET s, e (R80), in format `P2`. -/
def execCaset (first last : Byte) (s : State) : Host.Outcome State Fault Refusal :=
  wireCommand s.cfg.opcCaset [first, last] s

/-- PASET s, e (R81), in format `P2`. -/
def execPaset (first last : Byte) (s : State) : Host.Outcome State Fault Refusal :=
  wireCommand s.cfg.opcPaset [first, last] s

/-- RAMWR (R83). -/
def execRamwr (s : State) : Host.Outcome State Fault Refusal := wireCommand s.cfg.opcRamwr [] s

/-- MADCTL m (R79). -/
def execMadctl (m : Byte) (s : State) : Host.Outcome State Fault Refusal := wireCommand s.cfg.opcMadctl [m] s

/-- COLMOD m (R78). -/
def execColmod (m : Byte) (s : State) : Host.Outcome State Fault Refusal := wireCommand s.cfg.opcColmod [m] s

/-- DCS cmd, payload (R86): SENDDCS as one step. -/
def execDcs (opcode : Byte) (payload : List Byte) (s : State) : Host.Outcome State Fault Refusal :=
  if readyAdmitted s then (runFrom 1 [sendDcs opcode payload] s).toOutcome
  else .next (refuse .stateError s)

/-- The six sends of SETWIN: `CASET x1, x2` then `PASET y1, y2` (R87). -/
def windowSteps (c : Cfg) (x1 y1 x2 y2 : Byte) : List Step :=
  [cmd c.opcCaset, dat x1, dat x2, cmd c.opcPaset, dat y1, dat y2]

/-- SETWIN x1, y1, x2, y2 (R87): admission, then ranges, then the six sends (R123). -/
def execSetwin (x1 y1 x2 y2 : Byte) (s : State) : Host.Outcome State Fault Refusal :=
  if readyAdmitted s then
    if windowInRange s.cfg x1 y1 x2 y2 then (runFrom 1 (windowSteps s.cfg x1 y1 x2 y2) s).toOutcome
    else .next (refuse .validationError s)
  else .next (refuse .stateError s)

end Sys2Proof.Machine
end

