-- ==== Sys2Proof/Machine/Sequencer.lean ====
section
/-! DEFINITION. The meanings of the host operations of the Power/Reset Sequencer: OPEN (R90), INIT (R91 to R95),
PWROFF (R96) and CLOSE (R98) of spec/42_power_reset_sequencer.md. -/

namespace Sys2Proof.Machine

/-! ## OPEN -/

/-- A platform call without a result, as a step: it is recorded, takes its time (R24, R26) and returns. DESIGN CHOICE
(notes/assumptions/33.md). -/
def platformCall (e : Event) (s : State) : State := tick (emit e s)

/-- One acquisition request: the platform's answer and the state after, the answer recorded (R90). -/
def acquire (r : Resource) (s : State) : Bool × State :=
  (s.env.ok, platformCall (.acquire r s.env.ok) { s with env := s.env.afterOk })

/-- The configuration calls that follow the acquisition of a resource (R90). -/
def settingsOf (c : Cfg) : Resource → List Setting
  | .spi => [.speed c.spiHz, .mode c.spiMode, .bitsPerWord c.wordBits]
  | .line l => [.direction l .output]

/-- The resources of a BusHandle, in the order of acquisition (R90). -/
def handleResources : List Resource := [.spi, .line .pwr, .line .rst, .line .dc]

/-- Makes platform calls one after another. -/
def platformCalls (es : List Event) (s : State) : State := es.foldl (fun s e => platformCall e s) s

/-- One turn of OPEN's loop: acquire and configure `r`; on failure release what was `got`, in reverse order, and raise
BusError (R90). -/
def acquireStep (c : Cfg) (got : List Resource) (r : Resource) : Step := fun s =>
  if (acquire r s).1 then .ok (platformCalls ((settingsOf c r).map .configure) (acquire r s).2)
  else .err .busError (platformCalls (got.reverse.map .free) (acquire r s).2)

/-- The four turns of OPEN's loop, with the resources each has got before it (R90). -/
def openSteps (c : Cfg) : List Step :=
  [acquireStep c [] .spi,
   acquireStep c [.spi] (.line .pwr),
   acquireStep c [.spi, .line .pwr] (.line .rst),
   acquireStep c [.spi, .line .pwr, .line .rst] (.line .dc)]

/-- OPEN (R90). -/
def execOpen (s : State) : Host.Outcome State Fault Refusal :=
  if openAdmitted s then
    ((runFrom 1 (openSteps s.cfg) s).andThen fun s => .ok { s with ctx := true }).toOutcome
  else .next (refuse .stateError s)

/-! ## INIT -/

/-- Step 6: wait out or refuse what is left of the settle time (R92). `NOW - TOFF < T_SETTLE` is written
`NOW < TOFF + T_SETTLE`, the same on the integers. -/
def settleStep (c : Cfg) : Step := fun s =>
  match s.toff with
  | none => .ok s
  | some t =>
    if s.now < t + c.tSettle then
      match c.settlePolicy with
      | .wait => .ok (delay (t + c.tSettle - s.now) s)
      | .refuse => .err .protocolTimingViolation s
    else .ok s

/-- Steps 2 to 5: force a panel that was left on off and hold it off (R92). -/
def forceOffSteps (c : Cfg) : List Step := poweroffPins c ++ [plain (delay c.tSettle)]

/-- Steps 7 to 22: power on, reset pulse, soft reset, initialization sequence (R92 to R94). -/
def bringUpSteps (c : Cfg) : List Step :=
  [plain (setPstate .resetting),
   plain (pinset .pwr c.pwrOn),
   plain (pinset .rst c.rstLow),
   plain (delay c.tRst),
   plain (pinset .rst c.rstHigh),
   cmd c.opcSwreset,
   plain (setPstate .initializing),
   plain (delay c.tInit1),
   cmd c.opcMadctl,
   dat c.madctlInit,
   cmd c.opcSlpout,
   cmd c.opcColmod,
   dat c.pixfmt16,
   cmd c.opcDispon,
   plain (delay c.tInit2),
   plain (setPstate .ready)]

/-- Steps 2 to 22, after step 1 has read the level `v` of the power line (R92). -/
def afterPowerRead (c : Cfg) (v : Level) : Step := fun s =>
  (if v = c.pwrOn then runFrom 2 (forceOffSteps c) s else runFrom 6 [settleStep c] s).andThen
    (runFrom 7 (bringUpSteps c))

/-- The 23 steps of INIT before `STATUS <- OK` (R91). -/
def initRun (s : State) : Res :=
  afterPowerRead s.cfg (pinget .pwr { s with seq := 1#5 }).1 (pinget .pwr { s with seq := 1#5 }).2

/-- INIT (R91). -/
def execInit (s : State) : Host.Outcome State Fault Refusal :=
  if initAdmitted s then (initRun s).toOutcome else .next (refuse .stateError s)

/-! ## PWROFF -/

/-- PWROFF (R96): admitted in every state, never an error. -/
def execPwroff (s : State) : Host.Outcome State Fault Refusal :=
  if s.ctx then
    ((runFrom 1 (poweroffPins s.cfg) s).andThen fun s => .ok { s with pstate := .poweredOff }).toOutcome
  else .next (complete { s with log := s.log ++ [⟨.poweroffNoContext, s.now⟩] })

/-! ## CLOSE -/

/-- The four releases of CLOSE (R98). -/
def closeSteps : List Step :=
  [plain (platformCall (.free (.line .dc))),
   plain (platformCall (.free (.line .rst))),
   plain (platformCall (.free (.line .pwr))),
   plain (platformCall (.free .spi))]

/-- "if `PERSIST` is false the three line levels become unspecified" (R98): each becomes a draw (R30). -/
def freeLines (s : State) : State :=
  if s.cfg.persist then s
  else
    { s with
      lines := ⟨s.env.level, s.env.afterLevel.level, s.env.afterLevel.afterLevel.level⟩
      env := s.env.afterLevel.afterLevel.afterLevel }

/-- What CLOSE clears (R98). -/
def endSession (s : State) : State :=
  { s with ctx := false, fbv := false, pstate := .poweredOff, off := 0#32 }

/-- CLOSE (R98): admitted in every state, never an error. -/
def execClose (s : State) : Host.Outcome State Fault Refusal :=
  if s.ctx then
    ((runFrom 1 closeSteps s).andThen fun s => .ok (endSession (freeLines s))).toOutcome
  else .next (complete s)

end Sys2Proof.Machine
end

