-- ==== Sys2Proof/Machine/Transfer.lean ====
section
/-! DEFINITION. The meaning of the host operation FRAMEWR: the Frame Transfer Engine (spec/43_frame_transfer.md R101 to
R106). -/

namespace Sys2Proof.Machine

/-- Step 1: `OFF <- 0`, `COUNT <- 0` (R101). -/
def resetTransfer (s : State) : State := { s with off := 0#32, count := 0#32 }

/-- After a chunk of `n` bytes: `OFF <- OFF + n`, `COUNT <- OFF` (R101). -/
def advance (n : Nat) (s : State) : State :=
  { s with off := BitVec.ofNat 32 (s.off.toNat + n), count := BitVec.ofNat 32 (s.off.toNat + n) }

/-- The bytes of the next chunk: `FB[OFF .. OFF+n)` (R101). -/
def nextChunk (s : State) : List Byte :=
  s.fb.readRange s.off.toNat (chunkLen s.cfg s.len.toNat s.off.toNat)

/-- Step 4: the chunk loop (R101, R103). The first argument bounds the number of turns; every turn moves at least one byte,
so `LEN` turns are enough. An access outside the array `FB`, which "cannot be formed" (R42), is a fault. -/
def chunkLoop : Nat → State → Res
  | 0, s => .ok s
  | k + 1, s =>
    if s.off.toNat < s.len.toNat then
      if s.off.toNat + chunkLen s.cfg s.len.toNat s.off.toNat ≤ fbSize s.cfg then
        if (wrc (nextChunk s) s).1 then
          chunkLoop k (advance (chunkLen s.cfg s.len.toNat s.off.toNat) (wrc (nextChunk s) s).2)
        else .err .busError (wrc (nextChunk s) s).2
      else .fault .frameBufferRange
    else .ok s

/-- Steps 1 to 4 of FRAMEWR (R101). -/
def frameSteps (c : Cfg) : List Step :=
  [plain resetTransfer, cmd c.opcRamwr, plain (pinset .dc c.dcData), fun s => chunkLoop s.len.toNat s]

/-- FRAMEWR (R101). -/
def execFramewr (s : State) : Host.Outcome State Fault Refusal :=
  if frameAdmitted s then (runFrom 1 (frameSteps s.cfg) s).toOutcome
  else .next (refuse .stateError s)

end Sys2Proof.Machine
end

