-- ==== Sys2Proof/Machine/Transport.lean ====
section
/-! DEFINITION. The meanings of the transport primitives PINSET, PINGET, DELAY, SPIWR, WRC and of the generic symbols CMD
and DAT, each run as an instruction of its own (spec/40_bus_transport.md R67 to R73). A primitive writes neither `STATUS`
nor any flag; what it returns or raises goes to the model's field `reply`. -/

namespace Sys2Proof.Machine

/-- PINSET line, level (R67). -/
def execPinset (l : Line) (v : Level) (s : State) : Host.Outcome State Fault Refusal :=
  withHandle s fun s => (Res.ok (pinset l v s)).toReply

/-- PINGET line (R68): "returns `LINE[line]`". -/
def execPinget (l : Line) (s : State) : Host.Outcome State Fault Refusal :=
  withHandle s fun s => .next { (pinget l s).2 with reply := .level (pinget l s).1 }

/-- DELAY d (R69): a sleep, which needs no handle. -/
def execDelay (d : Nat) (s : State) : Host.Outcome State Fault Refusal :=
  (Res.ok (delay d s)).toReply

/-- The answer of a write goes to the caller (R70, R73). -/
def replyAnswer (r : Bool × State) : Host.Outcome State Fault Refusal :=
  .next { r.2 with reply := .answer r.1 }

/-- SPIWR bytes (R70). A byte count outside `1 .. CHUNK` "is never issued" and is refused. -/
def execSpiwr (bytes : List Byte) (s : State) : Host.Outcome State Fault Refusal :=
  withHandle s fun s =>
    if transferLength s.cfg bytes then replyAnswer (spiwr bytes s) else .refused .transferLength

/-- WRC bytes (R73): SPIWR with no PINSET. R73 makes `LINE[DC] = DC_DATA` a precondition that FRAMEWR, its only caller,
establishes, and does not say what a WRC does without it. DESIGN CHOICE (notes/assumptions/34.md): issued alone at another
level it still runs, and its symbols carry the level `LINE[DC]` has. -/
def execWrc (bytes : List Byte) (s : State) : Host.Outcome State Fault Refusal :=
  withHandle s fun s =>
    if transferLength s.cfg bytes then replyAnswer (wrc bytes s) else .refused .transferLength

/-- CMD b (R71). -/
def execCmd (b : Byte) (s : State) : Host.Outcome State Fault Refusal :=
  withHandle s fun s => (cmd b s).toReply

/-- DAT b (R72). -/
def execDat (b : Byte) (s : State) : Host.Outcome State Fault Refusal :=
  withHandle s fun s => (dat b s).toReply

end Sys2Proof.Machine
end

