-- ==== Sys2Proof/Machine/Dispatch.lean ====
section
/-! DEFINITION. The dispatch: one arm per instruction, each one direct call of its meaning. -/

namespace Sys2Proof.Machine

def exec (i : Instr) (s : State) : Host.Outcome State Fault Refusal :=
  match i with
  | .load width height bpp src => Sys2Proof.Machine.execLoad width height bpp src s
  | .openBus => Sys2Proof.Machine.execOpen s
  | .init => Sys2Proof.Machine.execInit s
  | .setwin x1 y1 x2 y2 => Sys2Proof.Machine.execSetwin x1 y1 x2 y2 s
  | .framewr => Sys2Proof.Machine.execFramewr s
  | .pwroff => Sys2Proof.Machine.execPwroff s
  | .close => Sys2Proof.Machine.execClose s
  | .dcs opcode payload => Sys2Proof.Machine.execDcs opcode payload s
  | .swreset => Sys2Proof.Machine.execSwreset s
  | .slpout => Sys2Proof.Machine.execSlpout s
  | .dispon => Sys2Proof.Machine.execDispon s
  | .caset first last => Sys2Proof.Machine.execCaset first last s
  | .paset first last => Sys2Proof.Machine.execPaset first last s
  | .ramwr => Sys2Proof.Machine.execRamwr s
  | .madctl m => Sys2Proof.Machine.execMadctl m s
  | .colmod m => Sys2Proof.Machine.execColmod m s
  | .cmd b => Sys2Proof.Machine.execCmd b s
  | .dat b => Sys2Proof.Machine.execDat b s
  | .pinset line level => Sys2Proof.Machine.execPinset line level s
  | .pinget line => Sys2Proof.Machine.execPinget line s
  | .delay d => Sys2Proof.Machine.execDelay d s
  | .spiwr bytes => Sys2Proof.Machine.execSpiwr bytes s
  | .wrc bytes => Sys2Proof.Machine.execWrc bytes s

end Sys2Proof.Machine
end

