-- ==== Sys2Proof/Machine/Fetch.lean ====
section
/-! DEFINITION. What a step does around an instruction: taking a request, idling, and turning away a request the decoder
rejects (spec/30_encoding.md R61, spec/70_reset_and_hazards.md R134). DESIGN CHOICE (notes/assumptions/2.md, 7.md). -/

namespace Sys2Proof.Machine

/-- The block with no request: it "waits for a host operation" (R134) and time passes (R24). -/
def idle (s : State) : State := tick s

/-- The block as it starts on a request: the request is off the list and the time since the last operation has passed. -/
def taken (rest : List Request) (s : State) : State := tick { s with requests := rest }

/-- A request the decoder rejects. An `op` that selects no operation is refused with UsageError, "no platform call is made
and no other state changes" (R61, R115). Bytes that are no request record stop the machine. -/
def decodeRejected (e : DecodeError) (s : State) : Host.Outcome State Fault Refusal :=
  match e with
  | .unknownOp _ => .next (refuse .usageError s)
  | .empty => .refused (.malformedRequest .empty)
  | .truncated => .refused (.malformedRequest .truncated)
  | .trailing => .refused (.malformedRequest .trailing)

end Sys2Proof.Machine
end

