-- ==== Sys2Proof/Machine/Step.lean ====
section
/-! DEFINITION. One step of the machine: the next request of the host is taken, decoded and run to its end. -/

namespace Sys2Proof.Machine

/-- One step. With no request waiting the block is idle and time passes (R134). Otherwise the oldest request is taken, the
time since the last operation passes, and the request is decoded and run. -/
def step (s : State) : Host.Outcome State Fault Refusal :=
  match s.requests with
  | [] => .next (idle s)
  | r :: rest =>
    match decode s.cfg r with
    | .ok i => exec i (taken rest s)
    | .error e => decodeRejected e (taken rest s)

/-- `s` with the instruction whose opcode-table bits are `w`, all other bits zero, as the next request. -/
def State.withFetchWord (s : State) (nbits w : Nat) : State :=
  { s with requests := tableRequest s.cfg nbits w :: s.requests }

end Sys2Proof.Machine
end

