-- ==== Sys2Proof/Machine/Observe.lean ====
section
/-! DEFINITION. What an execution shows to the outside (spec/00_scope.md R10): the result returned to the host (R53), the
platform-layer calls with their arguments (R129), the symbols on the wire and the receiver's reading of them (R49, R51,
R63), the order of the bits (R38), and the panel-visible view (R10, R40). Nothing here is read by a step. -/

namespace Sys2Proof.Machine

/-! ## Results -/

/-- The result record of format `HR` (R53). -/
structure HostResult where
  status : BitVec 3
  count : Word32
  pstate : BitVec 2
deriving DecidableEq, Repr

/-- What the host is given when an operation ends: `STATUS`, `COUNT`, `PSTATE` (R53, R121). -/
def State.hostResult (s : State) : HostResult := ⟨statusCode s.status, s.count, panelCode s.pstate⟩

/-- A request of the host (format `H`). Wire commands and primitive calls, run on their own, are the model's way of running
the other rows of the opcode table (notes/assumptions/2.md). -/
def hostForm : Request → Bool
  | .host _ => true
  | .wire _ _ => false
  | .call _ => false

/-- The next step answers a host request. An idle step and a wire command or primitive run on its own are no host
operation and return no result (R10 (2), R53). -/
def answersHost (s : State) : Bool := s.requests.head?.any hostForm

/-- The results that `n` steps return to the host, in order, as far as the machine goes on: one for each host request, at
its end (R10 (2), R136), a request refused with UsageError among them (R61, R115). -/
def resultsOf : Nat → State → List HostResult
  | 0, _ => []
  | n + 1, s =>
    match step s with
    | .next t => if answersHost s then t.hostResult :: resultsOf n t else resultsOf n t
    | .fault _ => []
    | .refused _ => []

/-! ## Platform calls -/

/-- The calls of the collaborator interface (R129) with the arguments the block hands over. The `mode` argument of
`request` is not in the source (spec/91_not_in_source.md N14) and is left out. -/
inductive PlatformCall where
  | initBus (busId chipSelect : Nat)
  | setSpeed (hz : Nat)
  | setMode (mode : Nat)
  | setBitsPerWord (width : Nat)
  | request (lineId : Nat)
  | setDirection (lineId : Nat) (d : Direction)
  | setLevel (lineId : Nat) (level : Level)
  | getLevel (lineId : Nat)
  | write (bytes : List Byte) (count : Nat)
  | freeBus
  | freeLine (lineId : Nat)
  | sleep (d : Nat)
deriving DecidableEq, Repr

/-- The platform's identifier of a line: `LINE_PWR`, `LINE_RST`, `LINE_DC` (R6). -/
def lineId (c : Cfg) : Line → Nat
  | .pwr => c.linePwr
  | .rst => c.lineRst
  | .dc => c.lineDc

/-- The platform call a `TRACE` entry records (R26, R129). -/
def platformCallOf (c : Cfg) : Event → PlatformCall
  | .acquire .spi _ => .initBus c.busId c.chipSelect
  | .acquire (.line l) _ => .request (lineId c l)
  | .configure (.speed hz) => .setSpeed hz
  | .configure (.mode m) => .setMode m
  | .configure (.bitsPerWord n) => .setBitsPerWord n
  | .configure (.direction l d) => .setDirection (lineId c l) d
  | .free .spi => .freeBus
  | .free (.line l) => .freeLine (lineId c l)
  | .pinSet l v _ => .setLevel (lineId c l) v
  | .pinGet l _ _ => .getLevel (lineId c l)
  | .spiWrite _ bytes _ _ => .write bytes bytes.length
  | .wait d _ _ => .sleep d

/-! ## Traces without their times -/

/-- A trace entry with its times left out: the form of the abbreviations of R64. -/
inductive Mark where
  | acquire (r : Resource) (ok : Bool)
  | configure (what : Setting)
  | free (r : Resource)
  | pinSet (l : Line) (level : Level)
  | pinGet (l : Line) (level : Level)
  | spiWrite (dc : Level) (bytes : List Byte) (ok : Bool)
  | wait (d : Nat)
deriving DecidableEq, Repr

/-- The entry without its times. -/
def markOf : Event → Mark
  | .acquire r ok => .acquire r ok
  | .configure w => .configure w
  | .free r => .free r
  | .pinSet l v _ => .pinSet l v
  | .pinGet l v _ => .pinGet l v
  | .spiWrite dc bytes ok _ => .spiWrite dc bytes ok
  | .wait d _ _ => .wait d

/-- `TRACE` without its times. -/
def State.marks (s : State) : List Mark := s.trace.map markOf

/-- `C:xx` (R64), with the platform's answer. -/
def cmdMarks (c : Cfg) (b : Byte) (ok : Bool) : List Mark := [.pinSet .dc c.dcCmd, .spiWrite c.dcCmd [b] ok]

/-- `D:xx` (R64), with the platform's answer. -/
def datMarks (c : Cfg) (b : Byte) (ok : Bool) : List Mark := [.pinSet .dc c.dcData, .spiWrite c.dcData [b] ok]

/-- The trace of a command frame whose writes all succeed (R51): `C:xx` and then `D:xx` for each parameter. -/
def frameMarks (c : Cfg) (opcode : Byte) (params : List Byte) : List Mark :=
  cmdMarks c opcode true ++ params.flatMap fun p => datMarks c p true

/-! ## Symbols on the wire -/

/-- The symbols of one SPI transaction of format `WT`: all carry the same `d` (R50). -/
def transactionSymbols (dc : Level) (bytes : List Byte) : List Symbol := bytes.map (symbolOf dc)

/-- The symbols of a command frame of format `CF` (R51). -/
def frameSymbols (c : Cfg) (opcode : Byte) (params : List Byte) : List Symbol :=
  symbolOf c.dcCmd opcode :: params.map (symbolOf c.dcData)

/-- The symbols of a trace. Of a failed write "an unspecified prefix" reached the wire (R40, R70): `sent k` is how many
bytes of it, `k` being the number of entries that follow. A claim quantifies over `sent`. -/
def wireSymbols (sent : Nat → Nat) : List Event → List Symbol
  | [] => []
  | .spiWrite dc bytes ok _ :: es =>
    transactionSymbols dc (if ok then bytes else bytes.take (sent es.length)) ++ wireSymbols sent es
  | .acquire _ _ :: es => wireSymbols sent es
  | .configure _ :: es => wireSymbols sent es
  | .free _ :: es => wireSymbols sent es
  | .pinSet _ _ _ :: es => wireSymbols sent es
  | .pinGet _ _ _ :: es => wireSymbols sent es
  | .wait _ _ _ :: es => wireSymbols sent es

/-- A command and its data bytes, as a receiver reads them. -/
structure WireFrame where
  opcode : Byte
  data : List Byte
deriving DecidableEq, Repr

/-- The data symbols a receiver reads up to the next command: "a receiver tells a new command from its parameters by the
`d` bit of each symbol, never by counting" (R63). -/
def leadingData (c : Cfg) : List Symbol → List Byte
  | [] => []
  | w :: ws => if symbolLevel w = c.dcCmd then [] else symbolByte w :: leadingData c ws

/-- The frames a receiver reads from the wire (R63); data before the first command belongs to none. -/
def readFrames (c : Cfg) : List Symbol → List WireFrame
  | [] => []
  | w :: ws =>
    if symbolLevel w = c.dcCmd then ⟨symbolByte w, leadingData c ws⟩ :: readFrames c ws else readFrames c ws

/-- The bits of a byte in the order they are shifted out (R38). -/
def shiftOrder (c : Cfg) (b : Byte) : List Bool :=
  let low := [b.getLsbD 0, b.getLsbD 1, b.getLsbD 2, b.getLsbD 3, b.getLsbD 4, b.getLsbD 5, b.getLsbD 6, b.getLsbD 7]
  if c.spiMsbFirst then low.reverse else low

/-! ## The panel-visible view -/

/-- An element of the panel-visible view (R10): a level change or an SPI transaction with its D/C level. -/
inductive WireEvent where
  | level (l : Line) (v : Level)
  | transaction (dc : Level) (bytes : List Byte)
deriving DecidableEq, Repr

/-- The level of each line as far as the trace has shown it. -/
structure Known where
  pwr : Option Level
  rst : Option Level
  dc : Option Level
deriving DecidableEq, Repr

/-- The known level of a line. -/
def Known.get (k : Known) : Line → Option Level
  | .pwr => k.pwr
  | .rst => k.rst
  | .dc => k.dc

/-- The known levels after one line's level is learned. -/
def Known.set (k : Known) (l : Line) (v : Level) : Known :=
  match l with
  | .pwr => { k with pwr := some v }
  | .rst => { k with rst := some v }
  | .dc => { k with dc := some v }

/-- The panel-visible view of a trace (R10). A `PinSet` to the level the line already has "changes nothing in that view";
of a failed write only what reached the wire is shown (`sent`, as in `wireSymbols`), and nothing where no byte did.
With `PERSIST` false CLOSE leaves the three levels unspecified (R30, R98), and the view forgets them at `Free(DC)`: only
CLOSE releases that line, since a failed OPEN releases what it acquired before the one that failed, never `DC`, the last,
and leaves the lines as they are (R90, R125).
DESIGN CHOICE (notes/assumptions/28.md): the view drops every `Wait`. R10 names level changes and SPI transactions only,
while R94 and program P1 write the waits of INIT into the view; `markOf` and `TRACE` keep them. -/
def panelView (c : Cfg) (sent : Nat → Nat) : Known → List Event → List WireEvent
  | _, [] => []
  | k, .pinSet l v _ :: es =>
    if k.get l = some v then panelView c sent k es else .level l v :: panelView c sent (k.set l v) es
  | k, .pinGet l v _ :: es => panelView c sent (k.set l v) es
  | k, .spiWrite dc bytes ok _ :: es =>
    let shown := if ok then bytes else bytes.take (sent es.length)
    if shown = [] then panelView c sent k es else .transaction dc shown :: panelView c sent k es
  | k, .free (.line .dc) :: es => panelView c sent (if c.persist then k else ⟨none, none, none⟩) es
  | k, .free (.line .pwr) :: es => panelView c sent k es
  | k, .free (.line .rst) :: es => panelView c sent k es
  | k, .free .spi :: es => panelView c sent k es
  | k, .acquire _ _ :: es => panelView c sent k es
  | k, .configure _ :: es => panelView c sent k es
  | k, .wait _ _ _ :: es => panelView c sent k es

end Sys2Proof.Machine
end

