-- ==== Sys2Proof/Machine/Pseudo.lean ====
section
/-! DEFINITION. The pseudo-operations of spec/30_encoding.md R65 (DRAW, BRINGUP, LOADBMP, SHOW) and the image-file boundary
of spec/44_image_source_adapter.md R111, R112: programs of host operations that the surrounding software runs. -/

namespace Sys2Proof.Machine

/-- Goes on from the state an operation left, after the time between two operations (R24). -/
def afterwards (o : Host.Outcome State Fault Refusal) (f : State → Host.Outcome State Fault Refusal) :
    Host.Outcome State Fault Refusal :=
  match o with
  | .next s => f (tick s)
  | .fault e => .fault e
  | .refused e => .refused e

/-- Goes on only "if that returned OK" (R65). -/
def ifOk (o : Host.Outcome State Fault Refusal) (f : State → Host.Outcome State Fault Refusal) :
    Host.Outcome State Fault Refusal :=
  match o with
  | .next s => if s.status = .ok then f (tick s) else .next s
  | .fault e => .fault e
  | .refused e => .refused e

/-- `DRAW` = `SETWIN 0, 0, WIDTH-1, HEIGHT-1`, then FRAMEWR (R65, R106). -/
def runDraw (s : State) : Host.Outcome State Fault Refusal :=
  ifOk (exec (.setwin 0#8 0#8 (BitVec.ofNat 8 (s.cfg.width.val - 1)) (BitVec.ofNat 8 (s.cfg.height.val - 1))) s)
    (exec .framewr)

/-- `BRINGUP` = `OPEN`, then INIT (R65). -/
def runBringup (s : State) : Host.Outcome State Fault Refusal := ifOk (exec .openBus s) (exec .init)

/-! ## The image file (R60, R111) -/

/-- The byte at a file offset; a file that has not the byte gives zero, and is turned away before by `imageRequest`. -/
def fileByte (file : List Byte) (k : Nat) : Byte := file.getD k 0#8

/-- A 4-byte little-endian field. -/
def fileLe32 (file : List Byte) (k : Nat) : Word32 :=
  le32 (fileByte file k) (fileByte file (k + 1)) (fileByte file (k + 2)) (fileByte file (k + 3))

/-- A 2-byte little-endian field. -/
def fileLe16 (file : List Byte) (k : Nat) : Word16 := le16 (fileByte file k) (fileByte file (k + 1))

/-- The LOAD that `LOADBMP file` issues (R111), or `none` for a file "too short to hold the header fields". -/
def imageRequest (file : List Byte) : Option Instr :=
  if file.length < 0x1E then none
  else
    some (.load (fileLe32 file 0x12) (fileLe32 file 0x16) (fileLe16 file 0x1C)
      (file.drop (fileLe32 file 0x0A).toNat))

/-- `LOADBMP file` (R65, R111): `none` is the InputFormatError "raised by the software before LOAD is issued". -/
def runLoadbmp (file : List Byte) (s : State) : Option (Host.Outcome State Fault Refusal) :=
  (imageRequest file).map fun i => exec i s

/-- After a DRAW, whatever it returned, the session is closed (R65). -/
def drawAndClose (s : State) : Host.Outcome State Fault Refusal := afterwards (runDraw s) (exec .close)

/-- INIT in `SHOW`: "if not OK then `PWROFF`, `CLOSE`, stop" (R65). -/
def initOrCleanUp (s : State) : Host.Outcome State Fault Refusal :=
  match exec .init s with
  | .next t =>
    if t.status = .ok then drawAndClose (tick t)
    else afterwards (exec .pwroff (tick t)) (exec .close)
  | .fault e => .fault e
  | .refused e => .refused e

/-- `SHOW file` (R65): the state the whole run leaves; `none` as for LOADBMP. -/
def runShow (file : List Byte) (s : State) : Option (Host.Outcome State Fault Refusal) :=
  (runLoadbmp file s).map fun o => ifOk o fun s => ifOk (exec .openBus s) initOrCleanUp

/-- The tool's exit code for a status; the source gives none for the codes above 3 (R112). -/
def exitCode : Status → Option Nat
  | .ok => some 0
  | .usageError => some 1
  | .inputFormatError => some 2
  | .validationError => some 3
  | .busError => none
  | .protocolTimingViolation => none
  | .stateError => none

end Sys2Proof.Machine
end

