-- ==== Sys2Proof/Safety.lean ====
section
/-! DEFINITION. The terms in which claims about the block are made: the invariants of spec/42_power_reset_sequencer.md R100
and of the register rules, the time discipline of the trace, and the traces that the rules of the operations list. -/

namespace Sys2Proof.Safety

open Sys2Proof.Machine

/-! ## Requests -/

/-- Every waiting request is a host request. -/
def HostOnly (s : State) : Prop := ∀ r ∈ s.requests, hostForm r = true

/-- The operation is a LOAD that succeeds (R107, R108). -/
def loadSucceeds (c : Cfg) : Instr → Bool
  | .load w h bpp src => imageValid c w h bpp && decide (frameLen c bpp.toNat ≤ src.length)
  | _ => false

/-! ## Registers -/

/-- `FB[0 .. LEN)` holds one complete frame of depth `BPP`, and nothing else has a value (R15, R16, R17, R35). -/
structure FrameValid (s : State) : Prop where
  depth : s.bpp ∈ s.cfg.bppSet
  length : s.len.toNat = frameLen s.cfg s.bpp.toNat
  filled : ∀ a, (s.fb.read? a).isSome = true ↔ a < s.len.toNat

/-- The state invariant between operations. -/
structure Inv (s : State) : Prop where
  /-- "It is 0 between host operations" (R19). -/
  seqIdle : s.seq = 0#5
  /-- R100 (a). -/
  closedIsOff : s.ctx = false → s.pstate = .poweredOff
  /-- R15. -/
  frame : s.fbv = true → FrameValid s
  /-- The canonical form of the frame buffer. -/
  canonical : s.fb.wf = true
  /-- Only addresses of the array `FB` hold a value (R35, R42). -/
  inArray : ∀ a, (s.fb.read? a).isSome = true → a < fbSize s.cfg
  /-- `TOFF` is a past value of `NOW` (R23). -/
  offPast : ∀ t, s.toff = some t → t ≤ s.now
  /-- `COUNT` never passes the largest frame (R18, R20). -/
  countBound : s.count.toNat ≤ fbSize s.cfg
  /-- `OFF` ends at `COUNT`, or was cleared by CLOSE or reset (R18, R20, R98). -/
  offCount : s.off = 0#32 ∨ s.off = s.count

/-! ## The settle time -/

/-- Every write of `PWR_ON` to the power line comes at least `T_SETTLE` after every earlier write of `PWR_OFF` (R100 (c),
R138). -/
def PowerSettled (s : State) : Prop :=
  ∀ before after t t', s.trace = before ++ Event.pinSet .pwr s.cfg.pwrOn t :: after →
    Event.pinSet .pwr s.cfg.pwrOff t' ∈ before → t' + s.cfg.tSettle ≤ t

/-- `TOFF` is not earlier than any write of `PWR_OFF` in the trace (R23). -/
def OffRemembered (s : State) : Prop :=
  ∀ t', Event.pinSet .pwr s.cfg.pwrOff t' ∈ s.trace → ∃ t, s.toff = some t ∧ t' ≤ t

/-- The invariant of the power line, for a block that only the host drives. -/
structure PowerInv (s : State) : Prop where
  hostOnly : HostOnly s
  levelsDiffer : s.cfg.pwrOn ≠ s.cfg.pwrOff
  offPast : ∀ t, s.toff = some t → t ≤ s.now
  remembered : OffRemembered s
  settled : PowerSettled s

/-! ## The trace -/

/-- The times of a trace never decrease, begin at `lo` at the earliest and end at `hi` at the latest, and every wait took at
least its lower bound (R24, R26, R44 (c)). Acquisitions, settings and releases carry no time (R26). -/
def clockOk : Nat → Nat → List Event → Bool
  | lo, hi, [] => decide (lo ≤ hi)
  | lo, hi, .acquire _ _ :: es => clockOk lo hi es
  | lo, hi, .configure _ :: es => clockOk lo hi es
  | lo, hi, .free _ :: es => clockOk lo hi es
  | lo, hi, .pinSet _ _ t :: es => decide (lo ≤ t) && clockOk t hi es
  | lo, hi, .pinGet _ _ t :: es => decide (lo ≤ t) && clockOk t hi es
  | lo, hi, .spiWrite _ _ _ t :: es => decide (lo ≤ t) && clockOk t hi es
  | lo, hi, .wait d t0 t1 :: es => decide (lo ≤ t0) && decide (t0 + d ≤ t1) && clockOk t1 hi es

/-- An SPI write of the trace carries 1 to `CHUNK` bytes (R50, R70); other entries are no writes. -/
def writeSized (c : Cfg) : Event → Bool
  | .spiWrite _ bytes _ _ => transferLength c bytes
  | .acquire _ _ => true
  | .configure _ => true
  | .free _ => true
  | .pinSet _ _ _ => true
  | .pinGet _ _ _ => true
  | .wait _ _ _ => true

/-- A mark of an SPI write at the data level. -/
def isDataWrite (c : Cfg) : Mark → Bool
  | .spiWrite dc _ _ => dc == c.dcData
  | .acquire _ _ => false
  | .configure _ => false
  | .free _ => false
  | .pinSet _ _ => false
  | .pinGet _ _ => false
  | .wait _ => false

/-! ## The traces of the operations -/

/-- A byte the block sends by CMD or by DAT. -/
inductive Send where
  | cmd (b : Byte)
  | dat (b : Byte)
deriving DecidableEq, Repr

/-- The marks of one send (R71, R72): `C:xx` or `D:xx`. -/
def sendMarks (c : Cfg) (ok : Bool) : Send → List Mark
  | .cmd b => cmdMarks c b ok
  | .dat b => datMarks c b ok

/-- The marks of a list of sends of which the first `k` succeed and the next, if there is one, fails: nothing follows a
failed send (R88, R124). -/
def sentMarks (c : Cfg) : Nat → List Send → List Mark
  | _, [] => []
  | 0, x :: _ => sendMarks c false x
  | k + 1, x :: xs => sendMarks c true x ++ sentMarks c k xs

/-- The level at which a send leaves the select line (R71, R72). -/
def sendLevel (c : Cfg) : Send → Level
  | .cmd _ => c.dcCmd
  | .dat _ => c.dcData

/-- The command frame of a wire command used as an operation (R51, R65). -/
def wireFrameOf (c : Cfg) : Instr → Option (Byte × List Byte)
  | .swreset => some (c.opcSwreset, [])
  | .slpout => some (c.opcSlpout, [])
  | .dispon => some (c.opcDispon, [])
  | .ramwr => some (c.opcRamwr, [])
  | .madctl m => some (c.opcMadctl, [m])
  | .colmod m => some (c.opcColmod, [m])
  | .caset a b => some (c.opcCaset, [a, b])
  | .paset a b => some (c.opcPaset, [a, b])
  | _ => none

/-- The sends of a command frame (R51). -/
def frameSends (opcode : Byte) (params : List Byte) : List Send := .cmd opcode :: params.map .dat

/-- The six sends of SETWIN (R87). -/
def windowSends (c : Cfg) (x1 y1 x2 y2 : Byte) : List Send :=
  frameSends c.opcCaset [x1, x2] ++ frameSends c.opcPaset [y1, y2]

/-- The ten entries of an OPEN that succeeds (R90). -/
def openMarks (c : Cfg) : List Mark :=
  [.acquire .spi true, .configure (.speed c.spiHz), .configure (.mode c.spiMode), .configure (.bitsPerWord c.wordBits),
   .acquire (.line .pwr) true, .configure (.direction .pwr .output),
   .acquire (.line .rst) true, .configure (.direction .rst .output),
   .acquire (.line .dc) true, .configure (.direction .dc .output)]

/-- The entries of POWEROFF_PINS (R97). -/
def pinsOffMarks (c : Cfg) : List Mark := [.pinSet .pwr c.pwrOff, .pinSet .rst c.rstIdle, .pinSet .dc c.dcIdle]

/-- The four releases of CLOSE (R98). -/
def closeMarks : List Mark := [.free (.line .dc), .free (.line .rst), .free (.line .pwr), .free .spi]

/-- Steps 2 to 6 of INIT that `s` needs after the read of step 1 (R92): the power-off sequence and the full hold where the
line reads on, the rest of the settle time where power went off too recently, nothing otherwise. -/
def holdMarks (s : State) : List Mark :=
  if s.lines.pwr = s.cfg.pwrOn then pinsOffMarks s.cfg ++ [.wait s.cfg.tSettle]
  else
    match s.toff with
    | none => []
    | some t =>
      if s.now + s.env.lag < t + s.cfg.tSettle then [.wait (t + s.cfg.tSettle - (s.now + s.env.lag))] else []

/-- INIT finds that power went off less than `T_SETTLE` ago and its policy is to refuse (R92 step 6). -/
def SettleRefused (s : State) : Prop :=
  s.lines.pwr ≠ s.cfg.pwrOn ∧ s.cfg.settlePolicy = .refuse ∧
    ∃ t, s.toff = some t ∧ s.now + s.env.lag < t + s.cfg.tSettle

/-- Steps 8 to 11 of INIT (R93): power on and the reset pulse. -/
def pulseMarks (c : Cfg) : List Mark :=
  [.pinSet .pwr c.pwrOn, .pinSet .rst c.rstLow, .wait c.tRst, .pinSet .rst c.rstHigh]

/-- The six sends of INIT after the soft reset: steps 15 to 20 (R94). -/
def initSends (c : Cfg) : List Send :=
  [.cmd c.opcMadctl, .dat c.madctlInit, .cmd c.opcSlpout, .cmd c.opcColmod, .dat c.pixfmt16, .cmd c.opcDispon]

/-- Steps 8 to 21 of an INIT whose writes all succeed (R93, R94). -/
def bringUpMarks (c : Cfg) : List Mark :=
  pulseMarks c ++ cmdMarks c c.opcSwreset true ++ [.wait c.tInit1] ++ sentMarks c 6 (initSends c) ++ [.wait c.tInit2]

/-- Steps 8 to 20 of an INIT whose write number `k` (from 0) fails (R95): nothing follows the failed write. -/
def bringUpFailedMarks (c : Cfg) : Nat → List Mark
  | 0 => pulseMarks c ++ cmdMarks c c.opcSwreset false
  | k + 1 => pulseMarks c ++ cmdMarks c c.opcSwreset true ++ [.wait c.tInit1] ++ sentMarks c k (initSends c)

/-- Chunk `j` of a frame of `len` bytes: `FB[j*CHUNK .. min((j+1)*CHUNK, len))` (R59, R102). -/
def chunkAt (c : Cfg) (m : Memory) (len j : Nat) : List Byte :=
  m.readRange (j * c.chunk.val) (min c.chunk.val (len - j * c.chunk.val))

/-- The first `n` chunk writes, all successful (R102). -/
def chunkMarks (c : Cfg) (m : Memory) (len n : Nat) : List Mark :=
  (List.range n).map fun j => .spiWrite c.dcData (chunkAt c m len j) true

/-- What precedes the chunk writes of FRAMEWR: `C:2C DC=1` (R101). -/
def frameStartMarks (c : Cfg) : List Mark := cmdMarks c c.opcRamwr true ++ [.pinSet .dc c.dcData]

/-! ## Writers -/

/-- The instructions that may change the level of a line (the writers of `LINE` in the table of R12, with R98 for CLOSE,
after which the levels are unspecified where `PERSIST` is false). -/
def mayDrive (c : Cfg) (l : Line) : Instr → Bool
  | .load _ _ _ _ => false
  | .openBus => false
  | .init => true
  | .setwin _ _ _ _ => decide (l = .dc)
  | .framewr => decide (l = .dc)
  | .pwroff => true
  | .close => !c.persist
  | .dcs _ _ => decide (l = .dc)
  | .swreset => decide (l = .dc)
  | .slpout => decide (l = .dc)
  | .dispon => decide (l = .dc)
  | .caset _ _ => decide (l = .dc)
  | .paset _ _ => decide (l = .dc)
  | .ramwr => decide (l = .dc)
  | .madctl _ => decide (l = .dc)
  | .colmod _ => decide (l = .dc)
  | .cmd _ => decide (l = .dc)
  | .dat _ => decide (l = .dc)
  | .pinset m _ => decide (l = m)
  | .pinget _ => false
  | .delay _ => false
  | .spiwr _ => false
  | .wrc _ => false

/-! ## Frames -/

/-- Every byte of the frame buffer reads in `t` as it did in `s`. -/
def FbKept (s t : State) : Prop := ∀ a, t.fb.read? a = s.fb.read? a ∧ t.fb.read a = s.fb.read a

end Sys2Proof.Safety
end

