-- ==== Sys2Proof/Certificates/Slice0/Obligations.lean ====
section
/-! DEFINITION. The statements about the block, for the provers. Each docstring names the rules of spec/ it formalises. -/

open Sys2Proof Sys2Proof.Machine Sys2Proof.Safety

/-! ## Transport primitives -/

/-- R67: PINSET writes the line, records the call with its time, and takes some time; nothing else changes but the
model's field `reply` (log entry 11). -/
def Obligations.PinsetSetsLineAndRecordsIt : Prop :=
  ∀ (l : Line) (v : Level) (s : State), s.ctx = true →
    exec (.pinset l v) s =
      .next { s with
        lines := s.lines.set l v
        trace := s.trace ++ [.pinSet l v s.now]
        now := s.now + s.env.lag
        env := s.env.afterLag
        reply := .done }

/-- R68: PINGET returns the level of the line and records it; no line changes. What it returns stands in the model's field
`reply` (log entry 11). -/
def Obligations.PingetReturnsLineAndRecordsIt : Prop :=
  ∀ (l : Line) (s : State), s.ctx = true →
    exec (.pinget l) s =
      .next { s with
        trace := s.trace ++ [.pinGet l (s.lines.get l) s.now]
        now := s.now + s.env.lag
        env := s.env.afterLag
        reply := .level (s.lines.get l) }

/-- R69: DELAY advances `NOW` by some `e >= d` and records `Wait(d, t0, t1)` with the old and the new time; nothing else
changes but the model's fields. THE MODEL'S CHOICES: it needs no handle (log entry 6), the caller is answered in `reply`
(log entry 11), and the time is drawn from `env` (log entry 3). -/
def Obligations.DelayWaitsAtLeastItsBound : Prop :=
  ∀ (d : Nat) (s : State), ∃ e, d ≤ e ∧
    exec (.delay d) s =
      .next { s with
        trace := s.trace ++ [.wait d s.now (s.now + e)]
        now := s.now + e
        env := s.env.afterLag
        reply := .done }

/-- R70: SPIWR of 1 to `CHUNK` bytes records one write at the level of the select line with the platform's answer, whichever
it is, and returns that answer. -/
def Obligations.SpiwrMakesOneTransaction : Prop :=
  ∀ (bytes : List Byte) (s : State) (ok : Bool) (rest : List Bool),
    s.ctx = true → 1 ≤ bytes.length → bytes.length ≤ s.cfg.chunk.val → s.env.oks = ok :: rest →
    ∃ t e, exec (.spiwr bytes) s = .next t ∧ t.env.oks = rest ∧
      t = { s with
        trace := s.trace ++ [.spiWrite s.lines.dc bytes ok s.now]
        now := s.now + e
        env := t.env
        reply := .answer ok }

/-- R73: WRC is SPIWR with no PINSET: no line is written, and with the select line at `DC_DATA`, the precondition of R73, the
bytes go at the data level. THE MODEL'S CHOICE (log entry 34): at another level, of which R73 says nothing, they go at that
level. -/
def Obligations.WrcWritesWithoutPinset : Prop :=
  ∀ (bytes : List Byte) (s : State) (ok : Bool) (rest : List Bool),
    s.ctx = true → 1 ≤ bytes.length → bytes.length ≤ s.cfg.chunk.val → s.env.oks = ok :: rest →
    ∃ t e, exec (.wrc bytes) s = .next t ∧ t.env.oks = rest ∧
      t = { s with
        trace := s.trace ++ [.spiWrite s.lines.dc bytes ok s.now]
        now := s.now + e
        env := t.env
        reply := .answer ok }

/-- R70, R144: a write of no byte or of more than `CHUNK` bytes is never issued. THE MODEL'S CHOICE (log entry 9): SPIWR and
WRC, asked for one, stop with a refusal; the rules give such a write no effect. -/
def Obligations.OversizedWriteIsNeverIssued : Prop :=
  ∀ (bytes : List Byte) (s : State), s.ctx = true → (bytes.length = 0 ∨ s.cfg.chunk.val < bytes.length) →
    exec (.spiwr bytes) s = .refused .transferLength ∧ exec (.wrc bytes) s = .refused .transferLength

/-- R71: CMD sets the select line to the command level and then writes one byte; a failed write is raised as BusError and
not retried; the line stays at the command level either way. What goes to the caller stands in `reply` (log entry 11). -/
def Obligations.CmdSetsCommandLevelThenWrites : Prop :=
  ∀ (b : Byte) (s : State) (ok : Bool) (rest : List Bool), s.ctx = true → s.env.oks = ok :: rest →
    ∃ t, exec (.cmd b) s = .next t ∧ s.now ≤ t.now ∧ t.env.oks = rest ∧
      t.marks = s.marks ++ [.pinSet .dc s.cfg.dcCmd, .spiWrite s.cfg.dcCmd [b] ok] ∧
      t = { s with
        lines := { s.lines with dc := s.cfg.dcCmd }
        trace := t.trace
        now := t.now
        env := t.env
        reply := if ok then .done else .raised .busError }

/-- R72: DAT sets the select line to the data level and then writes one byte; a failed write is raised as BusError and
not retried; the line stays at the data level either way. What goes to the caller stands in `reply` (log entry 11). -/
def Obligations.DatSetsDataLevelThenWrites : Prop :=
  ∀ (b : Byte) (s : State) (ok : Bool) (rest : List Bool), s.ctx = true → s.env.oks = ok :: rest →
    ∃ t, exec (.dat b) s = .next t ∧ s.now ≤ t.now ∧ t.env.oks = rest ∧
      t.marks = s.marks ++ [.pinSet .dc s.cfg.dcData, .spiWrite s.cfg.dcData [b] ok] ∧
      t = { s with
        lines := { s.lines with dc := s.cfg.dcData }
        trace := t.trace
        now := t.now
        env := t.env
        reply := if ok then .done else .raised .busError }

/-- R67 "Requires `CTX = 1`". THE MODEL'S CHOICE (log entry 6): without a handle a primitive or wire command makes no
platform call and raises StateError to its caller; nothing but the model's field `reply` changes. -/
def Obligations.PrimitiveWithoutHandleMakesNoCall : Prop :=
  ∀ (i : Instr) (s : State), s.ctx = false → i.format ≠ .host → (∀ d, i ≠ .delay d) →
    exec i s = .next { s with reply := .raised .stateError }

/-! ## Wire commands -/

/-- R76, R77, R82, R83: SWRESET, SLPOUT, DISPON and RAMWR each send their one command byte: `PINSET(DC, DC_CMD)` and one
SPI write. -/
def Obligations.PlainWireCommandsSendOneByte : Prop :=
  ∀ (s : State) (rest : List Bool) (i : Instr) (opcode : Byte), s.ctx = true → s.env.oks = true :: rest →
    (i, opcode) ∈ [(Instr.swreset, s.cfg.opcSwreset), (.slpout, s.cfg.opcSlpout), (.dispon, s.cfg.opcDispon),
      (.ramwr, s.cfg.opcRamwr)] →
    ∃ t, exec i s = .next t ∧ s.now ≤ t.now ∧ t.env.oks = rest ∧
      t.marks = s.marks ++ [.pinSet .dc s.cfg.dcCmd, .spiWrite s.cfg.dcCmd [opcode] true] ∧
      t = { s with
        lines := { s.lines with dc := s.cfg.dcCmd }
        trace := t.trace
        now := t.now
        env := t.env
        reply := .done }

/-- R78, R79: COLMOD m and MADCTL m each send their command byte at the command level and then `m` at the data level, in a
transaction of its own. -/
def Obligations.ModeWireCommandsSendOneParameter : Prop :=
  ∀ (s : State) (rest : List Bool) (m : Byte) (i : Instr) (opcode : Byte), s.ctx = true →
    s.env.oks = true :: true :: rest →
    (i, opcode) ∈ [(Instr.colmod m, s.cfg.opcColmod), (.madctl m, s.cfg.opcMadctl)] →
    ∃ t, exec i s = .next t ∧ s.now ≤ t.now ∧ t.env.oks = rest ∧
      t.marks = s.marks ++ [.pinSet .dc s.cfg.dcCmd, .spiWrite s.cfg.dcCmd [opcode] true,
        .pinSet .dc s.cfg.dcData, .spiWrite s.cfg.dcData [m] true] ∧
      t = { s with
        lines := { s.lines with dc := s.cfg.dcData }
        trace := t.trace
        now := t.now
        env := t.env
        reply := .done }

/-- R80, R81: CASET and PASET each send their command byte, then the first and then the last coordinate, one byte each, in
three transactions. -/
def Obligations.WindowWireCommandsSendTwoParameters : Prop :=
  ∀ (s : State) (rest : List Bool) (a b : Byte) (i : Instr) (opcode : Byte), s.ctx = true →
    s.env.oks = true :: true :: true :: rest →
    (i, opcode) ∈ [(Instr.caset a b, s.cfg.opcCaset), (.paset a b, s.cfg.opcPaset)] →
    ∃ t, exec i s = .next t ∧ s.now ≤ t.now ∧ t.env.oks = rest ∧
      t.marks = s.marks ++ [.pinSet .dc s.cfg.dcCmd, .spiWrite s.cfg.dcCmd [opcode] true,
        .pinSet .dc s.cfg.dcData, .spiWrite s.cfg.dcData [a] true,
        .pinSet .dc s.cfg.dcData, .spiWrite s.cfg.dcData [b] true] ∧
      t = { s with
        lines := { s.lines with dc := s.cfg.dcData }
        trace := t.trace
        now := t.now
        env := t.env
        reply := .done }

/-- R88: when write number `k` of a command frame fails, no later write of the frame is made, nothing sent is undone, and
BusError goes to the caller (log entry 11). -/
def Obligations.WireCommandStopsAtFailedWrite : Prop :=
  ∀ (s : State) (i : Instr) (opcode : Byte) (params : List Byte) (k : Nat) (rest : List Bool), s.ctx = true →
    wireFrameOf s.cfg i = some (opcode, params) → k ≤ params.length →
    s.env.oks = List.replicate k true ++ false :: rest →
    ∃ t, exec i s = .next t ∧ s.now ≤ t.now ∧ t.env.oks = rest ∧
      t.marks = s.marks ++ sentMarks s.cfg k (frameSends opcode params) ∧
      t = { s with
        lines := { s.lines with dc := if k = 0 then s.cfg.dcCmd else s.cfg.dcData }
        trace := t.trace
        now := t.now
        env := t.env
        reply := .raised .busError }

/-! ## LOAD -/

/-- R107, R109: a LOAD of the panel's width and height, at a depth of `BPP_SET`, with enough bytes, places the frame: at 16
bpp `FB[a] = src[a xor 1]`, else (8 bpp) `FB[a] = src[a]`; it sets `BPP`, `LEN` and `FBV`, makes no platform call and changes
nothing else. From `LEN` on the buffer holds no value (log entry 5: R35 calls those bytes unspecified). -/
def Obligations.LoadPlacesTheFrame : Prop :=
  ∀ (w h : Word32) (bpp : Word16) (src : List Byte) (s : State),
    w.toInt = s.cfg.width.val → h.toInt = s.cfg.height.val → (∃ d ∈ s.cfg.bppSet, bpp = d.setWidth 16) →
    frameLen s.cfg bpp.toNat ≤ src.length →
    ∃ t, exec (.load w h bpp src) s = .next t ∧
      t.bpp.toNat = bpp.toNat ∧
      t.len.toNat = s.cfg.width.val * s.cfg.height.val * (if bpp = 16#16 then 2 else 1) ∧
      t.len.toNat = frameLen s.cfg bpp.toNat ∧
      (∀ a, a < frameLen s.cfg bpp.toNat → t.fb.read? a = src[if bpp = 16#16 then a ^^^ 1 else a]?) ∧
      (∀ a, frameLen s.cfg bpp.toNat ≤ a → t.fb.read? a = none) ∧
      t = { s with
        fbv := true
        bpp := t.bpp
        len := t.len
        fb := t.fb
        env := t.env
        status := .ok
        seq := 0#5 }

/-- R107, R117: a LOAD with another width (signed), another height (signed) or a depth outside `BPP_SET` ends with ValidationError and
`FBV = 0`; no platform call is made; only `FB`, `BPP` and `LEN`, which are unspecified, change besides. -/
def Obligations.LoadRejectsOtherGeometry : Prop :=
  ∀ (w h : Word32) (bpp : Word16) (src : List Byte) (s : State),
    (w.toInt ≠ s.cfg.width.val ∨ h.toInt ≠ s.cfg.height.val ∨ ∀ d ∈ s.cfg.bppSet, bpp ≠ d.setWidth 16) →
    ∃ t, exec (.load w h bpp src) s = .next t ∧
      t = { s with
        fbv := false
        bpp := t.bpp
        len := t.len
        fb := t.fb
        env := t.env
        status := .validationError
        seq := 0#5 }

/-- R108, R116: a LOAD that passes validation but supplies fewer than `LEN` bytes ends with InputFormatError and `FBV = 0`. -/
def Obligations.LoadRejectsTruncatedData : Prop :=
  ∀ (w h : Word32) (bpp : Word16) (src : List Byte) (s : State),
    w.toInt = s.cfg.width.val → h.toInt = s.cfg.height.val → (∃ d ∈ s.cfg.bppSet, bpp = d.setWidth 16) →
    src.length < frameLen s.cfg bpp.toNat →
    ∃ t, exec (.load w h bpp src) s = .next t ∧
      t = { s with
        fbv := false
        bpp := t.bpp
        len := t.len
        fb := t.fb
        env := t.env
        status := .inputFormatError
        seq := 0#5 }

/-- R113: the byte swap keeps the length, moves byte `a xor 1` to `a`, and is its own inverse on sequences of even length. -/
def Obligations.ByteSwapIsItsOwnInverse : Prop :=
  ∀ bytes : List Byte, bytes.length % 2 = 0 →
    swap16 (swap16 bytes) = bytes ∧ (swap16 bytes).length = bytes.length ∧
      ∀ a, a < bytes.length → (swap16 bytes)[a]? = bytes[a ^^^ 1]?

/-! ## OPEN -/

/-- R90: an OPEN whose four acquisitions are granted makes the ten platform calls in order, sets `CTX` and returns OK;
`PSTATE`, the lines and everything else stay as they are. -/
def Obligations.OpenAcquiresTheHandle : Prop :=
  ∀ (s : State) (rest : List Bool), s.ctx = false → s.fbv = true →
    s.env.oks = true :: true :: true :: true :: rest →
    ∃ t, exec .openBus s = .next t ∧ s.now ≤ t.now ∧ t.env.oks = rest ∧ t.marks = s.marks ++ openMarks s.cfg ∧
      t = { s with
        ctx := true
        trace := t.trace
        now := t.now
        env := t.env
        status := .ok
        seq := 0#5 }

/-- R90: when an acquisition fails, every resource acquired in this OPEN is released in reverse order, `CTX` stays 0 and the
status is BusError. -/
def Obligations.OpenReleasesWhatItTookOnFailure : Prop :=
  ∀ (s : State) (k : Nat) (r : Resource) (rest : List Bool), s.ctx = false → s.fbv = true →
    handleResources[k]? = some r → s.env.oks = List.replicate k true ++ false :: rest →
    ∃ t, exec .openBus s = .next t ∧ s.now ≤ t.now ∧ t.env.oks = rest ∧
      t.marks = s.marks ++
        (handleResources.take k).flatMap (fun q => .acquire q true :: (settingsOf s.cfg q).map .configure) ++
        [.acquire r false] ++ (handleResources.take k).reverse.map .free ∧
      t = { s with
        trace := t.trace
        now := t.now
        env := t.env
        status := .busError
        seq := 0#5 }

/-! ## INIT -/

/-- R91 to R94: an INIT whose seven writes succeed makes, after the read of the power line and what the settle time asks for
(`holdMarks`), exactly the calls of steps 8 to 21, and ends Ready: power on, reset high, select at the command level. `TOFF`
changes only where the panel was found on, and is then the time of that power-off. -/
def Obligations.InitBringsThePanelUp : Prop :=
  ∀ (s : State) (rest : List Bool), s.ctx = true → s.pstate = .poweredOff → ¬ SettleRefused s →
    s.env.oks = List.replicate 7 true ++ rest →
    ∃ t, exec .init s = .next t ∧
      s.now + s.cfg.tRst + s.cfg.tInit1 + s.cfg.tInit2 ≤ t.now ∧ t.env.oks = rest ∧
      t.marks = s.marks ++ [.pinGet .pwr s.lines.pwr] ++ holdMarks s ++ bringUpMarks s.cfg ∧
      t = { s with
        pstate := .ready
        lines := ⟨s.cfg.pwrOn, s.cfg.rstHigh, s.cfg.dcCmd⟩
        toff := if s.lines.pwr = s.cfg.pwrOn then some (s.now + s.env.lag) else s.toff
        trace := t.trace
        now := t.now
        env := t.env
        status := .ok
        seq := 0#5 }

/-- R92 step 6, R119: with the policy `refuse`, an INIT less than `T_SETTLE` after the power-off ends with
ProtocolTimingViolation after one platform call, the read of the power line; `PSTATE` stays PoweredOff. -/
def Obligations.InitRefusedWithinTheSettleTime : Prop :=
  ∀ s : State, s.ctx = true → s.pstate = .poweredOff → SettleRefused s →
    exec .init s =
      .next { s with
        trace := s.trace ++ [.pinGet .pwr s.lines.pwr s.now]
        now := s.now + s.env.lag
        env := s.env.afterLag
        status := .protocolTimingViolation
        seq := 0#5 }

/-- R95: when write number `k` of INIT fails, no later step runs, the status is BusError and `PSTATE` stays Resetting
(the soft reset failed) or Initializing; power stays on and reset high. -/
def Obligations.InitFailureLeavesItsPhase : Prop :=
  ∀ (s : State) (k : Nat) (x : Send) (rest : List Bool), s.ctx = true → s.pstate = .poweredOff → ¬ SettleRefused s →
    (Send.cmd s.cfg.opcSwreset :: initSends s.cfg)[k]? = some x →
    s.env.oks = List.replicate k true ++ false :: rest →
    ∃ t, exec .init s = .next t ∧ s.now ≤ t.now ∧ t.env.oks = rest ∧
      t.marks = s.marks ++ [.pinGet .pwr s.lines.pwr] ++ holdMarks s ++ bringUpFailedMarks s.cfg k ∧
      t = { s with
        pstate := if k = 0 then .resetting else .initializing
        lines := ⟨s.cfg.pwrOn, s.cfg.rstHigh, sendLevel s.cfg x⟩
        toff := if s.lines.pwr = s.cfg.pwrOn then some (s.now + s.env.lag) else s.toff
        trace := t.trace
        now := t.now
        env := t.env
        status := .busError
        seq := 0#5 }

/-- R137, R100 (e): in every INIT that is admitted, whatever the platform answers, the reset line is low for at least
`T_RST`; the first write it makes is the soft reset, also where no other follows; every later write comes at least `T_INIT1`
after the first; and an INIT that returns OK returns at least `T_INIT2` after its last write. -/
def Obligations.InitKeepsTheMinimumDelays : Prop :=
  ∀ s t : State, s.ctx = true → s.pstate = .poweredOff → s.cfg.rstLow ≠ s.cfg.rstHigh → exec .init s = .next t →
    ∃ new, t.trace = s.trace ++ new ∧
      (∀ a b c t1 t2, new = a ++ .pinSet .rst s.cfg.rstLow t1 :: b ++ .pinSet .rst s.cfg.rstHigh t2 :: c →
        t1 + s.cfg.tRst ≤ t2) ∧
      (∀ a c d1 b1 k1 t1, new = a ++ .spiWrite d1 b1 k1 t1 :: c →
        (∀ d bytes ok u, Event.spiWrite d bytes ok u ∉ a) →
        d1 = s.cfg.dcCmd ∧ b1 = [s.cfg.opcSwreset] ∧
          ∀ d2 b2 k2 t2, Event.spiWrite d2 b2 k2 t2 ∈ c → t1 + s.cfg.tInit1 ≤ t2) ∧
      (t.status = .ok → ∀ d bytes ok u, Event.spiWrite d bytes ok u ∈ new → u + s.cfg.tInit2 ≤ t.now)

/-! ## PWROFF and CLOSE -/

/-- R96, R97: with a handle PWROFF sets `TOFF` to the time of its first write and drives power, reset and select to their
inactive levels, in that order, with no SPI write; `PSTATE` becomes PoweredOff from any state and the status is OK. -/
def Obligations.PwroffDrivesTheLinesInOrder : Prop :=
  ∀ s : State, s.ctx = true →
    ∃ t t1 t2, exec .pwroff s = .next t ∧ s.now ≤ t1 ∧ t1 ≤ t2 ∧ t2 ≤ t.now ∧
      t = { s with
        pstate := .poweredOff
        lines := ⟨s.cfg.pwrOff, s.cfg.rstIdle, s.cfg.dcIdle⟩
        toff := some s.now
        trace := s.trace ++ [.pinSet .pwr s.cfg.pwrOff s.now, .pinSet .rst s.cfg.rstIdle t1, .pinSet .dc s.cfg.dcIdle t2]
        now := t.now
        env := t.env
        status := .ok
        seq := 0#5 }

/-- R96: without a handle PWROFF makes no platform call: it logs the warning with the time, returns OK, and nothing else
changes. -/
def Obligations.PwroffWithoutHandleOnlyWarns : Prop :=
  ∀ s : State, s.ctx = false →
    exec .pwroff s =
      .next { s with log := s.log ++ [⟨.poweroffNoContext, s.now⟩], status := .ok, seq := 0#5 }

/-- R98, R30: with a handle CLOSE releases select, reset, power and the SPI device in that order, drives no line, and clears
`CTX`, `FBV`, `PSTATE` and `OFF`; with `PERSIST` the lines keep their levels, without it they take drawn levels (log
entry 4); the rest is kept. -/
def Obligations.CloseReleasesTheHandle : Prop :=
  ∀ s : State, s.ctx = true →
    ∃ t, exec .close s = .next t ∧ s.now ≤ t.now ∧ t.marks = s.marks ++ closeMarks ∧
      (s.cfg.persist = true → t.lines = s.lines) ∧
      (s.cfg.persist = false → ∀ a b c rest, s.env.levels = a :: b :: c :: rest → t.lines = ⟨a, b, c⟩) ∧
      t = { s with
        ctx := false
        fbv := false
        pstate := .poweredOff
        off := 0#32
        lines := t.lines
        trace := t.trace
        now := t.now
        env := t.env
        status := .ok
        seq := 0#5 }

/-- R98: without a handle CLOSE does nothing but return OK. -/
def Obligations.CloseWithoutHandleDoesNothing : Prop :=
  ∀ s : State, s.ctx = false → exec .close s = .next { s with status := .ok, seq := 0#5 }

/-! ## SETWIN and DCS -/

/-- R87: a SETWIN in Ready with its coordinates on the panel, all writes granted, sends `CASET x1, x2` and then
`PASET y1, y2`, six transactions, and returns OK; only the select line changes besides. -/
def Obligations.SetwinProgramsTheWindow : Prop :=
  ∀ (s : State) (x1 y1 x2 y2 : Byte) (rest : List Bool), s.ctx = true → s.pstate = .ready →
    x1.toNat < s.cfg.width.val → x2.toNat < s.cfg.width.val → y1.toNat < s.cfg.height.val →
    y2.toNat < s.cfg.height.val → s.env.oks = List.replicate 6 true ++ rest →
    ∃ t, exec (.setwin x1 y1 x2 y2) s = .next t ∧ s.now ≤ t.now ∧ t.env.oks = rest ∧
      t.marks = s.marks ++ frameMarks s.cfg s.cfg.opcCaset [x1, x2] ++ frameMarks s.cfg s.cfg.opcPaset [y1, y2] ∧
      t = { s with
        lines := { s.lines with dc := s.cfg.dcData }
        trace := t.trace
        now := t.now
        env := t.env
        status := .ok
        seq := 0#5 }

/-- R87, R88: when write number `k` of a SETWIN fails, the writes after it are not made and the status is BusError. -/
def Obligations.SetwinStopsAtFailedWrite : Prop :=
  ∀ (s : State) (x1 y1 x2 y2 : Byte) (k : Nat) (x : Send) (rest : List Bool), s.ctx = true → s.pstate = .ready →
    x1.toNat < s.cfg.width.val → x2.toNat < s.cfg.width.val → y1.toNat < s.cfg.height.val →
    y2.toNat < s.cfg.height.val → (windowSends s.cfg x1 y1 x2 y2)[k]? = some x →
    s.env.oks = List.replicate k true ++ false :: rest →
    ∃ t, exec (.setwin x1 y1 x2 y2) s = .next t ∧ s.now ≤ t.now ∧ t.env.oks = rest ∧
      t.marks = s.marks ++ sentMarks s.cfg k (windowSends s.cfg x1 y1 x2 y2) ∧
      t = { s with
        lines := { s.lines with dc := sendLevel s.cfg x }
        trace := t.trace
        now := t.now
        env := t.env
        status := .busError
        seq := 0#5 }

/-- R87: a SETWIN in Ready with a coordinate off the panel makes no platform call; only `STATUS` changes, to
ValidationError. -/
def Obligations.SetwinRejectsCoordinatesOffThePanel : Prop :=
  ∀ (s : State) (x1 y1 x2 y2 : Byte), s.ctx = true → s.pstate = .ready →
    (s.cfg.width.val ≤ x1.toNat ∨ s.cfg.width.val ≤ x2.toNat ∨ s.cfg.height.val ≤ y1.toNat ∨
      s.cfg.height.val ≤ y2.toNat) →
    exec (.setwin x1 y1 x2 y2) s = .next { s with status := .validationError }

/-- R84: of a 4-byte column- or page-address payload the filter keeps positions 1 and 3, the low bytes of start and end; a
payload of any other length, and of any other command, is unchanged. -/
def Obligations.CoordinateFilterKeepsTheLowBytes : Prop :=
  ∀ (c : Cfg) (opcode : Byte) (payload : List Byte),
    ((opcode = c.opcCaset ∨ opcode = c.opcPaset) →
      ∀ p0 p1 p2 p3, payload = [p0, p1, p2, p3] → coordFilter c opcode payload = [p1, p3]) ∧
    (payload.length ≠ 4 → coordFilter c opcode payload = payload) ∧
    (opcode ≠ c.opcCaset → opcode ≠ c.opcPaset → coordFilter c opcode payload = payload) ∧
    ∀ first last, (opcode = c.opcCaset ∨ opcode = c.opcPaset) →
      coordFilter c opcode (payloadP4 first last) = payloadP2 first last

/-- R85, R86: a DCS in Ready, all writes granted, sends the command byte and the filtered payload, each byte in a transaction
of its own, and returns OK. -/
def Obligations.DcsSendsTheFilteredFrame : Prop :=
  ∀ (s : State) (opcode : Byte) (payload : List Byte) (rest : List Bool), s.ctx = true → s.pstate = .ready →
    s.env.oks = List.replicate ((coordFilter s.cfg opcode payload).length + 1) true ++ rest →
    ∃ t, exec (.dcs opcode payload) s = .next t ∧ s.now ≤ t.now ∧ t.env.oks = rest ∧
      t.marks = s.marks ++ frameMarks s.cfg opcode (coordFilter s.cfg opcode payload) ∧
      t = { s with
        lines := { s.lines with dc := if coordFilter s.cfg opcode payload = [] then s.cfg.dcCmd else s.cfg.dcData }
        trace := t.trace
        now := t.now
        env := t.env
        status := .ok
        seq := 0#5 }

/-- R86, R88: when write number `k` of a DCS fails, the writes after it are not made and the status is BusError. -/
def Obligations.DcsStopsAtFailedWrite : Prop :=
  ∀ (s : State) (opcode : Byte) (payload : List Byte) (k : Nat) (rest : List Bool), s.ctx = true → s.pstate = .ready →
    k ≤ (coordFilter s.cfg opcode payload).length → s.env.oks = List.replicate k true ++ false :: rest →
    ∃ t, exec (.dcs opcode payload) s = .next t ∧ s.now ≤ t.now ∧ t.env.oks = rest ∧
      t.marks = s.marks ++ sentMarks s.cfg k (frameSends opcode (coordFilter s.cfg opcode payload)) ∧
      t = { s with
        lines := { s.lines with dc := if k = 0 then s.cfg.dcCmd else s.cfg.dcData }
        trace := t.trace
        now := t.now
        env := t.env
        status := .busError
        seq := 0#5 }

/-- R87 (d): where all writes are granted, SETWIN and the two DCS operations with the same window in the 4-byte form make the
same platform calls. -/
def Obligations.SetwinAgreesWithDcsInFourByteForm : Prop :=
  ∀ (s : State) (x1 y1 x2 y2 : Byte) (rest : List Bool), s.ctx = true → s.pstate = .ready →
    x1.toNat < s.cfg.width.val → x2.toNat < s.cfg.width.val → y1.toNat < s.cfg.height.val →
    y2.toNat < s.cfg.height.val → s.env.oks = List.replicate 6 true ++ rest →
    ∃ t u v, exec (.setwin x1 y1 x2 y2) s = .next t ∧
      exec (.dcs s.cfg.opcCaset (payloadP4 (x1.setWidth 16) (x2.setWidth 16))) s = .next u ∧
      exec (.dcs s.cfg.opcPaset (payloadP4 (y1.setWidth 16) (y2.setWidth 16))) u = .next v ∧
      v.marks = t.marks

/-! ## FRAMEWR -/

/-- R101: a FRAMEWR in Ready with a valid frame, all writes granted, sends one start-memory-write command, sets the select
line to the data level once, and writes `FB[0 .. LEN)` in chunks; `OFF` and `COUNT` end at `LEN`, the status is OK. -/
def Obligations.FramewrStreamsTheFrame : Prop :=
  ∀ (s : State) (rest : List Bool), s.ctx = true → s.pstate = .ready → s.fbv = true → s.len.toNat ≤ fbSize s.cfg →
    s.env.oks = List.replicate (chunkCount s.cfg s.len.toNat + 1) true ++ rest →
    ∃ t, exec .framewr s = .next t ∧ s.now ≤ t.now ∧ t.env.oks = rest ∧
      t.marks = s.marks ++ frameStartMarks s.cfg ++
        chunkMarks s.cfg s.fb s.len.toNat (chunkCount s.cfg s.len.toNat) ∧
      FbKept s t ∧
      t = { s with
        off := s.len
        count := s.len
        lines := { s.lines with dc := s.cfg.dcData }
        trace := t.trace
        now := t.now
        env := t.env
        status := .ok
        seq := 0#5 }

/-- R103: when chunk write `j` fails no further write is made; `OFF` and `COUNT` are `j * CHUNK`; the status is BusError and
`PSTATE` stays Ready; no line is driven. -/
def Obligations.FramewrCountsTheChunksBeforeAFailure : Prop :=
  ∀ (s : State) (j : Nat) (rest : List Bool), s.ctx = true → s.pstate = .ready → s.fbv = true →
    s.len.toNat ≤ fbSize s.cfg → j < chunkCount s.cfg s.len.toNat →
    s.env.oks = List.replicate (j + 1) true ++ false :: rest →
    ∃ t, exec .framewr s = .next t ∧ s.now ≤ t.now ∧ t.env.oks = rest ∧
      t.count.toNat = j * s.cfg.chunk.val ∧
      t.marks = s.marks ++ frameStartMarks s.cfg ++ chunkMarks s.cfg s.fb s.len.toNat j ++
        [.spiWrite s.cfg.dcData (chunkAt s.cfg s.fb s.len.toNat j) false] ∧
      FbKept s t ∧
      t = { s with
        off := t.count
        count := t.count
        lines := { s.lines with dc := s.cfg.dcData }
        trace := t.trace
        now := t.now
        env := t.env
        status := .busError
        seq := 0#5 }

/-- R103: when the start-memory-write command fails the count is 0, the data level is never set and no chunk is written. -/
def Obligations.FramewrWithoutItsCommandSendsNothing : Prop :=
  ∀ (s : State) (rest : List Bool), s.ctx = true → s.pstate = .ready → s.fbv = true →
    s.env.oks = false :: rest →
    ∃ t, exec .framewr s = .next t ∧ s.now ≤ t.now ∧ t.env.oks = rest ∧
      t.marks = s.marks ++ cmdMarks s.cfg s.cfg.opcRamwr false ∧
      t = { s with
        off := 0#32
        count := 0#32
        lines := { s.lines with dc := s.cfg.dcCmd }
        trace := t.trace
        now := t.now
        env := t.env
        status := .busError
        seq := 0#5 }

/-- R104: in every FRAMEWR that is admitted, whatever the platform answers, the select line is set to the data level once
after the command and from then on there are only SPI writes at that level. -/
def Obligations.FramewrHoldsTheSelectLine : Prop :=
  ∀ s t : State, s.ctx = true → s.pstate = .ready → s.fbv = true → exec .framewr s = .next t →
    t.marks = s.marks ++ cmdMarks s.cfg s.cfg.opcRamwr false ∨
    ∃ writes, t.marks = s.marks ++ frameStartMarks s.cfg ++ writes ∧ t.lines.dc = s.cfg.dcData ∧
      ∀ m ∈ writes, isDataWrite s.cfg m = true

/-- R102: for a frame of `len` bytes there are `ceil(len / CHUNK)` chunks, all of `CHUNK` bytes but the last, which has
`len - (NCH-1)*CHUNK`, between 1 and `CHUNK`; in order they are exactly `FB[0 .. len)`. -/
def Obligations.ChunksCoverTheFrameOnce : Prop :=
  ∀ (c : Cfg) (m : Memory) (len : Nat),
    len ≤ chunkCount c len * c.chunk.val ∧ chunkCount c len * c.chunk.val < len + c.chunk.val ∧
    (List.range (chunkCount c len)).flatMap (chunkAt c m len) = m.readRange 0 len ∧
    ∀ j, j < chunkCount c len →
      (chunkAt c m len j).length =
        (if j + 1 < chunkCount c len then c.chunk.val else len - (chunkCount c len - 1) * c.chunk.val) ∧
      1 ≤ (chunkAt c m len j).length ∧ (chunkAt c m len j).length ≤ c.chunk.val

/-- R42. THE MODEL'S CHOICE (log entry 8): a FRAMEWR whose `LEN` passes the array `FB`, which no run reaches, stops with a
fault once its writes come to the end of the array. -/
def Obligations.FramewrStopsAtTheEndOfTheArray : Prop :=
  ∀ (s : State) (rest : List Bool), s.ctx = true → s.pstate = .ready → s.fbv = true → fbSize s.cfg < s.len.toNat →
    s.env.oks = List.replicate (chunkCount s.cfg s.len.toNat + 1) true ++ rest →
    exec .framewr s = .fault .frameBufferRange

/-- R37, R101, R109: a LOAD followed by a FRAMEWR, all writes granted, puts on the wire the start-memory-write command and
then the bytes of the source, pairs swapped at 16 bpp, each at the data level, in order, none lost and none sent twice. -/
def Obligations.LoadedImageReachesTheWire : Prop :=
  ∀ (w h : Word32) (bpp : Word16) (src : List Byte) (s : State) (rest : List Bool),
    s.ctx = true → s.pstate = .ready → imageValid s.cfg w h bpp = true →
    frameLen s.cfg bpp.toNat ≤ src.length →
    s.env.oks = List.replicate (chunkCount s.cfg (frameLen s.cfg bpp.toNat) + 1) true ++ rest →
    ∃ t u new, exec (.load w h bpp src) s = .next t ∧ exec .framewr t = .next u ∧ u.trace = s.trace ++ new ∧
      u.count.toNat = frameLen s.cfg bpp.toNat ∧
      ∀ sent, wireSymbols sent new =
        symbolOf s.cfg.dcCmd s.cfg.opcRamwr :: (frameOf s.cfg bpp src).map (symbolOf s.cfg.dcData)

/-! ## Admission and requests -/

/-- R99: OPEN, INIT, SETWIN, DCS and FRAMEWR, where the table does not admit them, make no platform call and change nothing
but `STATUS`, which becomes StateError. -/
def Obligations.RefusedOperationsChangeOnlyTheStatus : Prop :=
  ∀ (s : State),
    (s.ctx = true ∨ s.fbv = false → exec .openBus s = .next { s with status := .stateError }) ∧
    (s.ctx = false ∨ s.pstate ≠ .poweredOff → exec .init s = .next { s with status := .stateError }) ∧
    (s.ctx = false ∨ s.pstate ≠ .ready →
      (∀ x1 y1 x2 y2, exec (.setwin x1 y1 x2 y2) s = .next { s with status := .stateError }) ∧
      ∀ opcode payload, exec (.dcs opcode payload) s = .next { s with status := .stateError }) ∧
    (s.ctx = false ∨ s.pstate ≠ .ready ∨ s.fbv = false →
      exec .framewr s = .next { s with status := .stateError })

/-- R124, R125, R122: every instruction comes back: whatever the platform answers and however the state stands, it ends in a
next state with `SEQ` at 0 if it was 0, where a valid frame lies in the array `FB` and an SPI write has a length that is
issued (R70). Without a handle a primitive returns as log entry 6 says. That no platform call blocks forever, which R129
makes an assumption of such a claim, is the model's (log entry 33). -/
def Obligations.EveryInstructionReturns : Prop :=
  ∀ (i : Instr) (s : State), s.seq = 0#5 → (s.fbv = true → s.len.toNat ≤ fbSize s.cfg) →
    (∀ bytes, i = .spiwr bytes ∨ i = .wrc bytes → 1 ≤ bytes.length ∧ bytes.length ≤ s.cfg.chunk.val) →
    ∃ t, exec i s = .next t ∧ t.seq = 0#5

/-- R65: the whole run `SHOW file`, begun without a handle and whatever the platform answers, comes to its end and leaves no
handle open. That no platform call blocks forever (R129) is the model's assumption (log entry 33). -/
def Obligations.ShowEndsWithoutAHandle : Prop :=
  ∀ (file : List Byte) (s : State), s.ctx = false → 0x1E ≤ file.length →
    ∃ t, runShow file s = some (.next t) ∧ t.ctx = false

/-- R61, R115: a request whose `op` is outside 0x01 .. 0x08 is refused with UsageError and no platform call is made. THE
MODEL'S CHOICES: the request is off the list (log entry 2) and the time before it has passed (log entry 7); no other state
changes. -/
def Obligations.UnknownOperationIsAUsageError : Prop :=
  ∀ (s : State) (op : Byte) (bytes : List Byte) (rest : List Request), s.requests = .host (op :: bytes) :: rest →
    (op = 0#8 ∨ 8 < op.toNat) →
    step s = .next { s with
      requests := rest
      now := s.now + s.env.lag
      env := s.env.afterLag
      status := .usageError }

/-- The step runs the decoded instruction: with a request waiting that decodes to `i`, the step is `exec i` on the state
without that request and with some time passed (R9, R134: the block waits for the host's next operation and runs it). THE
MODEL'S CHOICES: the request list (log entry 2), and that `NOW` advances by a drawn time before the request is run (log
entry 7). -/
def Obligations.StepRunsTheDecodedInstruction : Prop :=
  ∀ (s : State) (r : Request) (rest : List Request) (i : Instr), s.requests = r :: rest → decode s.cfg r = .ok i →
    step s = exec i { s with requests := rest, now := s.now + s.env.lag, env := s.env.afterLag }

/-- R134. THE MODEL'S CHOICE (log entry 7): with no request the block is idle and only time passes. It is no host operation,
so no result is returned (R10). -/
def Obligations.IdleStepOnlyLetsTimePass : Prop :=
  ∀ s : State, s.requests = [] →
    step s = .next { s with now := s.now + s.env.lag, env := s.env.afterLag } ∧ resultsOf 1 s = []

/-! ## Encoding -/

/-- Decode and encode agree, for every well-formed instruction with every operand at every value, under every configuration
whose DC levels and command bytes can be told apart (R49, R53, R54, R55, R66; the packing is the model's, log entry 2). -/
def Obligations.DecodeReadsBackWhatEncodeWrote : Prop :=
  ∀ (c : Cfg) (i : Instr), c.codesDistinct = true → wellFormed c i = true → decode c (encode c i) = .ok i

/-- R51, R63: a receiver that tells commands from parameters by the `d` bit alone reads back every sequence of command
frames; and, all writes granted, the symbols that a wire command, a DCS or a SETWIN puts on the wire are those of its
frames: one of the command and its parameters, one of the filtered payload, or CASET and then PASET. -/
def Obligations.ReceiverReadsBackTheCommandFrames : Prop :=
  (∀ (c : Cfg) (frames : List WireFrame), c.dcCmd ≠ c.dcData →
    readFrames c (frames.flatMap fun f => frameSymbols c f.opcode f.data) = frames) ∧
  (∀ (s : State) (i : Instr) (opcode : Byte) (params : List Byte) (rest : List Bool), s.ctx = true →
    wireFrameOf s.cfg i = some (opcode, params) → s.env.oks = List.replicate (params.length + 1) true ++ rest →
    ∃ t new, exec i s = .next t ∧ t.trace = s.trace ++ new ∧
      ∀ sent, wireSymbols sent new = frameSymbols s.cfg opcode params) ∧
  (∀ (s : State) (opcode : Byte) (payload : List Byte) (rest : List Bool), s.ctx = true → s.pstate = .ready →
    s.env.oks = List.replicate ((coordFilter s.cfg opcode payload).length + 1) true ++ rest →
    ∃ t new, exec (.dcs opcode payload) s = .next t ∧ t.trace = s.trace ++ new ∧
      ∀ sent, wireSymbols sent new = frameSymbols s.cfg opcode (coordFilter s.cfg opcode payload)) ∧
  (∀ (s : State) (x1 y1 x2 y2 : Byte) (rest : List Bool), s.ctx = true → s.pstate = .ready →
    x1.toNat < s.cfg.width.val → x2.toNat < s.cfg.width.val → y1.toNat < s.cfg.height.val →
    y2.toNat < s.cfg.height.val → s.env.oks = List.replicate 6 true ++ rest →
    ∃ t new, exec (.setwin x1 y1 x2 y2) s = .next t ∧ t.trace = s.trace ++ new ∧
      ∀ sent, wireSymbols sent new =
        frameSymbols s.cfg s.cfg.opcCaset [x1, x2] ++ frameSymbols s.cfg s.cfg.opcPaset [y1, y2])

/-- R49, R54, R55, R66: words written out from the tables decode to the instructions they stand for, and the frame of
`CASET 0, 131` is `0 00101010`, `1 00000000`, `1 10000011` on the wire. -/
def Obligations.TableWordsDecode : Prop :=
  decodeTableWord 8 0x02 = some .openBus ∧ decodeTableWord 8 0x07 = some .close ∧ decodeTableWord 8 0x09 = none ∧
  decodeTableWord 16 0x011 = some .slpout ∧ decodeTableWord 16 0x02C = some .ramwr ∧
  decodeTableWord 16 0x0B1 = some (.cmd 0xB1#8) ∧ decodeTableWord 16 0x183 = some (.dat 0x83#8) ∧
  frameSymbols Config.default 0x2A#8 [0x00#8, 0x83#8] = [0b000101010#9, 0b100000000#9, 0b110000011#9]

/-! ## Reset -/

/-- R29, R133: the entries of the reset table that have a value. -/
def Obligations.ResetHasTheValuesOfTheTable : Prop :=
  State.reset.pstate = .poweredOff ∧ State.reset.ctx = false ∧ State.reset.fbv = false ∧ State.reset.off = 0#32 ∧
  State.reset.seq = 0#5 ∧ State.reset.count = 0#32 ∧ State.reset.status = .ok ∧ State.reset.toff = none ∧
  State.reset.log = [] ∧ State.reset.trace = []

/-- The invariants hold after reset. -/
def Obligations.ResetMeetsTheInvariants : Prop :=
  Inv State.reset ∧ PowerInv State.reset ∧ clockOk 0 State.reset.now State.reset.trace = true

/-! ## Invariants -/

/-- Every step, of any instruction, keeps the state invariant: `SEQ` idle, a block without handle is PoweredOff (R100 (a)), a
valid frame is whole (R15 to R17, R35), the frame buffer canonical and inside its array, `TOFF` in the past, `COUNT` and `OFF`
bounded and in step (R18, R20). -/
def Obligations.StepKeepsTheStateInvariant : Prop :=
  ∀ s t : State, Inv s → step s = .next t → Inv t

/-- R100 (c), R138: under host operations, whatever the platform answers and however long anything takes, power is never
asserted less than `T_SETTLE` after any earlier deassertion by the block. -/
def Obligations.HostStepKeepsPowerSettled : Prop :=
  ∀ s t : State, PowerInv s → step s = .next t → PowerInv t

/-- R24, R26, R44 (c): every step keeps the clock of the trace: times never decrease and every wait took its lower bound. -/
def Obligations.StepKeepsTheTraceClock : Prop :=
  ∀ s t : State, clockOk 0 s.now s.trace = true → step s = .next t → clockOk 0 t.now t.trace = true

/-- R50, R144: every step keeps it true that each SPI write of the trace carries 1 to `CHUNK` bytes. -/
def Obligations.StepKeepsWritesWithinTheChunk : Prop :=
  ∀ s t : State, (∀ e ∈ s.trace, writeSized s.cfg e = true) → step s = .next t →
    ∀ e ∈ t.trace, writeSized t.cfg e = true

/-- R24, R26, R27: a step only appends to `TRACE` and `LOG`, never turns back `NOW`, and never changes the configuration. -/
def Obligations.StepOnlyAppends : Prop :=
  ∀ s t : State, step s = .next t → s.trace <+: t.trace ∧ s.log <+: t.log ∧ s.now ≤ t.now ∧ t.cfg = s.cfg

/-- The column "written by" of the table of R12, with R32, R98 and R110: which instructions may change which register. A
line changes only by an instruction that drives it (`mayDrive`), so not by LOAD, OPEN, PINGET, DELAY, SPIWR or WRC, nor by
CLOSE with `PERSIST`; LOAD makes no platform call. A transport primitive or wire command changes no register but the lines,
the time and the trace, and only these answer in the model's field `reply` (log entry 11). -/
def Obligations.RegistersHaveOnlyTheirWriters : Prop :=
  ∀ (i : Instr) (s t : State), exec i s = .next t →
    (t.pstate = s.pstate ∨ i = .init ∨ i = .pwroff ∨ i = .close) ∧
    (t.ctx = s.ctx ∨ i = .openBus ∨ i = .close) ∧
    (t.fbv = s.fbv ∨ i = .close ∨ ∃ w h b src, i = .load w h b src) ∧
    ((t.bpp = s.bpp ∧ t.len = s.len ∧ FbKept s t) ∨ ∃ w h b src, i = .load w h b src) ∧
    (t.off = s.off ∨ i = .framewr ∨ i = .close) ∧
    (t.count = s.count ∨ i = .framewr) ∧
    (t.toff = s.toff ∨ i = .pwroff ∨ i = .init) ∧
    (t.log = s.log ∨ i = .pwroff) ∧
    ((t.status = s.status ∧ t.seq = s.seq) ∨ i.format = .host) ∧
    (∀ l, t.lines.get l = s.lines.get l ∨ mayDrive s.cfg l i = true) ∧
    (t.trace = s.trace ∨ ∀ w h b src, i ≠ .load w h b src) ∧
    (t.reply = s.reply ∨ i.format ≠ .host) ∧
    t.cfg = s.cfg ∧ t.requests = s.requests

/-- R89, R100 (b): `PSTATE` moves only by INIT from PoweredOff, or to PoweredOff by PWROFF and CLOSE; it becomes Ready only by
an INIT that returned OK. -/
def Obligations.PanelStateMovesOnlyAlongItsTransitions : Prop :=
  ∀ (i : Instr) (s t : State), exec i s = .next t → t.pstate ≠ s.pstate →
    (i = .init ∧ s.pstate = .poweredOff ∧ (t.pstate = .ready ↔ t.status = .ok)) ∨
    ((i = .pwroff ∨ i = .close) ∧ t.pstate = .poweredOff)

/-- R100 (d), R110, R143: from any state without handle and without valid frame, however many steps run, as long as no LOAD
among the host's requests succeeds there is no platform call and no line changes. -/
def Obligations.NoPlatformCallBeforeAValidImage : Prop :=
  ∀ (n : Nat) (s t : State), s.ctx = false → s.fbv = false → HostOnly s →
    (∀ r ∈ s.requests, ∀ i, decode s.cfg r = .ok i → loadSucceeds s.cfg i = false) →
    core.run n s = .next t → t.trace = s.trace ∧ t.lines = s.lines
end

