-- ==== Sys2Proof/Laws/Encoding.lean ====
section
/-! SUPPORT. What the encoder's parts read back as: operand bytes, symbol fields, and the table's words. -/

namespace Sys2Proof

/-- A 16-bit operand is read back from its bytes. -/
theorem le16_bytes (w : Word16) : le16 (w.extractLsb' 0 8) (w.extractLsb' 8 8) = w := by
  unfold le16
  apply BitVec.eq_of_getLsbD_eq
  intro i hi
  rw [BitVec.getLsbD_append]
  split
  · simp_all
  · have e : 8 + (i - 8) = i := by omega
    rw [BitVec.getLsbD_extractLsb', e]
    simp
    intro _
    omega

/-- A 32-bit operand is read back from its bytes. -/
theorem le32_bytes (w : Word32) :
    le32 (w.extractLsb' 0 8) (w.extractLsb' 8 8) (w.extractLsb' 16 8) (w.extractLsb' 24 8) = w := by
  unfold le32
  apply BitVec.eq_of_getLsbD_eq
  intro i hi
  rw [BitVec.getLsbD_append]
  split
  · simp_all
  rw [BitVec.getLsbD_append]
  split
  · have e : 8 + (i - 8) = i := by omega
    rw [BitVec.getLsbD_extractLsb', e]
    simp
    omega
  rw [BitVec.getLsbD_append]
  split
  · have e : 16 + (i - 8 - 8) = i := by omega
    rw [BitVec.getLsbD_extractLsb', e]
    simp
    omega
  · have e : 24 + (i - 8 - 8 - 8) = i := by omega
    rw [BitVec.getLsbD_extractLsb', e]
    simp
    intro _
    omega

/-- Field `d` of a symbol is the level it was made with (R49). -/
@[simp] theorem symbolLevel_symbolOf (d : Level) (b : Byte) : symbolLevel (symbolOf d b) = d := by
  unfold symbolLevel symbolOf
  rw [BitVec.getLsbD_append]
  simp

/-- Field `b` of a symbol is the byte it was made with (R49). -/
@[simp] theorem symbolByte_symbolOf (d : Level) (b : Byte) : symbolByte (symbolOf d b) = b := by
  unfold symbolByte symbolOf
  apply BitVec.eq_of_getLsbD_eq
  intro i hi
  simp only [BitVec.getLsbD_extractLsb', Nat.zero_add, BitVec.getLsbD_append]
  simp [hi]

/-- The default configuration's symbols can be told apart. -/
theorem default_codesDistinct : Config.default.codesDistinct = true := by decide

end Sys2Proof
end

