-- ==== Sys2Proof/Laws/Memory.lean ====
section
/-! SUPPORT. The frame buffer: a read after a write, writes elsewhere, and that every operation on it keeps the canonical
form. -/

namespace Sys2Proof.Machine

/-! ## Reads and writes -/

theorem cellAt_of_rising (cells : List Host.Cell) (lo a : Nat) (h : risingFrom lo cells = true) (ha : a < lo) :
    cellAt cells a = none := by
  induction cells generalizing lo with
  | nil => rfl
  | cons c rest ih =>
    obtain ⟨k, v⟩ := c
    simp only [risingFrom, Bool.and_eq_true, decide_eq_true_eq] at h
    have hk : ¬ k = a := by omega
    simp [cellAt, hk, ih (k + 1) h.2 (by omega)]

theorem cellAt_cellPut (cells : List Host.Cell) (a b : Nat) (v : Byte) (lo : Nat) (h : risingFrom lo cells = true) :
    cellAt (cellPut cells a v) b = if b = a then some v else cellAt cells b := by
  induction cells generalizing lo with
  | nil =>
    by_cases hb : b = a
    · simp [cellPut, cellAt, hb]
    · simp [cellPut, cellAt, hb, Ne.symm hb]
  | cons c rest ih =>
    obtain ⟨k, w⟩ := c
    simp only [risingFrom, Bool.and_eq_true, decide_eq_true_eq] at h
    by_cases h1 : a < k
    · by_cases hb : b = a
      · simp [cellPut, h1, cellAt, hb]
      · simp [cellPut, h1, cellAt, hb, Ne.symm hb]
    · by_cases h2 : a = k
      · subst h2
        by_cases hb : b = a
        · simp [cellPut, cellAt, hb]
        · simp [cellPut, cellAt, hb, Ne.symm hb]
      · by_cases hk : k = b
        · subst hk
          have : ¬ k = a := fun e => h2 e.symm
          simp [cellPut, h1, h2, cellAt, this]
        · simp [cellPut, h1, h2, cellAt, hk, ih (k + 1) h.2]

theorem risingFrom_weaken (cells : List Host.Cell) (lo lo' : Nat) (hl : lo' ≤ lo) (h : risingFrom lo cells = true) :
    risingFrom lo' cells = true := by
  cases cells with
  | nil => rfl
  | cons c rest =>
    obtain ⟨k, v⟩ := c
    simp only [risingFrom, Bool.and_eq_true, decide_eq_true_eq] at h ⊢
    exact ⟨by omega, h.2⟩

theorem risingFrom_cellPut (cells : List Host.Cell) (a : Nat) (v : Byte) (lo : Nat) (hl : lo ≤ a)
    (h : risingFrom lo cells = true) : risingFrom lo (cellPut cells a v) = true := by
  induction cells generalizing lo with
  | nil => simp [cellPut, risingFrom, hl]
  | cons c rest ih =>
    obtain ⟨k, w⟩ := c
    simp only [risingFrom, Bool.and_eq_true, decide_eq_true_eq] at h
    by_cases h1 : a < k
    · simp only [cellPut, h1, if_true, risingFrom, Bool.and_eq_true, decide_eq_true_eq]
      exact ⟨hl, by omega, h.2⟩
    · by_cases h2 : a = k
      · subst h2
        simp only [cellPut, lt_irrefl, if_false, if_true, risingFrom, Bool.and_eq_true, decide_eq_true_eq]
        exact ⟨hl, h.2⟩
      · simp only [cellPut, h1, h2, if_false, risingFrom, Bool.and_eq_true, decide_eq_true_eq]
        exact ⟨h.1, ih (k + 1) (by omega) h.2⟩

/-- A read after a write: the value at the written address, the old value elsewhere. -/
theorem Memory.read?_write (m : Memory) (a b : Nat) (v : Byte) (h : m.wf = true) :
    (m.write a v).read? b = if b = a then some v else m.read? b :=
  cellAt_cellPut m.cells a b v 0 h

/-! ## The canonical form -/

theorem Memory.wf_unspecified (n : Nat) : (Memory.unspecified n).wf = true := rfl

@[simp] theorem Memory.read?_unspecified (n a : Nat) : (Memory.unspecified n).read? a = none := rfl

/-- A write keeps the canonical form. -/
theorem Memory.wf_write (m : Memory) (a : Nat) (v : Byte) (h : m.wf = true) : (m.write a v).wf = true :=
  risingFrom_cellPut m.cells a v 0 (Nat.zero_le a) h

/-- Filling keeps the canonical form. -/
theorem Memory.wf_fillFrom (m : Memory) (a : Nat) (bytes : List Byte) (h : m.wf = true) :
    (m.fillFrom a bytes).wf = true := by
  induction bytes generalizing a with
  | nil => exact h
  | cons b bs ih => exact Memory.wf_write _ _ _ (ih (a + 1))

/-- What a filled buffer reads as: the bytes from `a` on, the old contents elsewhere. -/
theorem Memory.read?_fillFrom (m : Memory) (a b : Nat) (bytes : List Byte) (h : m.wf = true) :
    (m.fillFrom a bytes).read? b =
      if a ≤ b ∧ b < a + bytes.length then bytes[b - a]? else m.read? b := by
  induction bytes generalizing a with
  | nil =>
    have : ¬ (a ≤ b ∧ b < a) := by omega
    simp [Memory.fillFrom, this]
  | cons x xs ih =>
    rw [Memory.fillFrom, Memory.read?_write _ _ _ _ (Memory.wf_fillFrom m (a + 1) xs h), ih (a + 1)]
    by_cases hb : b = a
    · subst hb; simp
    · by_cases hr : a + 1 ≤ b ∧ b < a + 1 + xs.length
      · have h1 : a ≤ b ∧ b < a + (x :: xs).length := by simp only [List.length_cons]; omega
        have h2 : b - a = (b - (a + 1)) + 1 := by omega
        rw [if_neg hb, if_pos hr, if_pos h1, h2, List.getElem?_cons_succ]
      · have h1 : ¬ (a ≤ b ∧ b < a + (x :: xs).length) := by simp only [List.length_cons]; omega
        rw [if_neg hb, if_neg hr, if_neg h1]

@[simp] theorem Memory.length_readRange (m : Memory) (a n : Nat) : (m.readRange a n).length = n := by
  simp [Memory.readRange]

/-- The frame buffer of the reset state is canonical. -/
theorem reset_fb_wf : State.reset.fb.wf = true := rfl

end Sys2Proof.Machine
end

