-- ==== Sys2Proof/Laws/State.lean ====
section
/-! SUPPORT. One lemma per field for each named update of the state, true by `rfl` and in the simp set, so that no later
proof unfolds a record update. -/

namespace Sys2Proof.Machine

/-! ## Draws -/

@[simp] theorem Env.afterOk_oks (e : Env) : e.afterOk.oks = e.oks.tail := rfl
@[simp] theorem Env.afterOk_lags (e : Env) : e.afterOk.lags = e.lags := rfl
@[simp] theorem Env.afterOk_levels (e : Env) : e.afterOk.levels = e.levels := rfl
@[simp] theorem Env.afterLag_oks (e : Env) : e.afterLag.oks = e.oks := rfl
@[simp] theorem Env.afterLag_lags (e : Env) : e.afterLag.lags = e.lags.tail := rfl
@[simp] theorem Env.afterLag_levels (e : Env) : e.afterLag.levels = e.levels := rfl
@[simp] theorem Env.afterFree_oks (e : Env) : e.afterFree.oks = e.oks := rfl

/-- An answer already fixed is the next answer, however the environment was reached by steps that only took time. -/
theorem Env.ok_of_oks (e : Env) (b : Bool) (rest : List Bool) (h : e.oks = b :: rest) : e.ok = b := by
  simp [Env.ok, h]

/-! ## Lines -/

@[simp] theorem Lines.get_set_self (ls : Lines) (l : Line) (v : Level) : (ls.set l v).get l = v := by cases l <;> rfl

theorem Lines.get_set_other (ls : Lines) (l m : Line) (v : Level) (h : m ≠ l) : (ls.set l v).get m = ls.get m := by
  cases l <;> cases m <;> first | rfl | exact absurd rfl h

@[simp] theorem Lines.set_pwr (ls : Lines) (v : Level) : ls.set .pwr v = { ls with pwr := v } := rfl
@[simp] theorem Lines.set_rst (ls : Lines) (v : Level) : ls.set .rst v = { ls with rst := v } := rfl
@[simp] theorem Lines.set_dc (ls : Lines) (v : Level) : ls.set .dc v = { ls with dc := v } := rfl
@[simp] theorem Lines.get_pwr (ls : Lines) : ls.get .pwr = ls.pwr := rfl

/-! ## tick -/

@[simp] theorem tick_cfg (s : State) : (tick s).cfg = s.cfg := rfl
@[simp] theorem tick_pstate (s : State) : (tick s).pstate = s.pstate := rfl
@[simp] theorem tick_ctx (s : State) : (tick s).ctx = s.ctx := rfl
@[simp] theorem tick_fbv (s : State) : (tick s).fbv = s.fbv := rfl
@[simp] theorem tick_bpp (s : State) : (tick s).bpp = s.bpp := rfl
@[simp] theorem tick_len (s : State) : (tick s).len = s.len := rfl
@[simp] theorem tick_off (s : State) : (tick s).off = s.off := rfl
@[simp] theorem tick_seq (s : State) : (tick s).seq = s.seq := rfl
@[simp] theorem tick_count (s : State) : (tick s).count = s.count := rfl
@[simp] theorem tick_status (s : State) : (tick s).status = s.status := rfl
@[simp] theorem tick_lines (s : State) : (tick s).lines = s.lines := rfl
@[simp] theorem tick_toff (s : State) : (tick s).toff = s.toff := rfl
@[simp] theorem tick_now (s : State) : (tick s).now = s.now + s.env.lag := rfl
@[simp] theorem tick_fb (s : State) : (tick s).fb = s.fb := rfl
@[simp] theorem tick_log (s : State) : (tick s).log = s.log := rfl
@[simp] theorem tick_trace (s : State) : (tick s).trace = s.trace := rfl
@[simp] theorem tick_requests (s : State) : (tick s).requests = s.requests := rfl
@[simp] theorem tick_env (s : State) : (tick s).env = s.env.afterLag := rfl
@[simp] theorem tick_reply (s : State) : (tick s).reply = s.reply := rfl

/-! ## emit -/

@[simp] theorem emit_cfg (e : Event) (s : State) : (emit e s).cfg = s.cfg := rfl
@[simp] theorem emit_pstate (e : Event) (s : State) : (emit e s).pstate = s.pstate := rfl
@[simp] theorem emit_ctx (e : Event) (s : State) : (emit e s).ctx = s.ctx := rfl
@[simp] theorem emit_fbv (e : Event) (s : State) : (emit e s).fbv = s.fbv := rfl
@[simp] theorem emit_bpp (e : Event) (s : State) : (emit e s).bpp = s.bpp := rfl
@[simp] theorem emit_len (e : Event) (s : State) : (emit e s).len = s.len := rfl
@[simp] theorem emit_off (e : Event) (s : State) : (emit e s).off = s.off := rfl
@[simp] theorem emit_seq (e : Event) (s : State) : (emit e s).seq = s.seq := rfl
@[simp] theorem emit_count (e : Event) (s : State) : (emit e s).count = s.count := rfl
@[simp] theorem emit_status (e : Event) (s : State) : (emit e s).status = s.status := rfl
@[simp] theorem emit_lines (e : Event) (s : State) : (emit e s).lines = s.lines := rfl
@[simp] theorem emit_toff (e : Event) (s : State) : (emit e s).toff = s.toff := rfl
@[simp] theorem emit_now (e : Event) (s : State) : (emit e s).now = s.now := rfl
@[simp] theorem emit_fb (e : Event) (s : State) : (emit e s).fb = s.fb := rfl
@[simp] theorem emit_log (e : Event) (s : State) : (emit e s).log = s.log := rfl
@[simp] theorem emit_trace (e : Event) (s : State) : (emit e s).trace = s.trace ++ [e] := rfl
@[simp] theorem emit_requests (e : Event) (s : State) : (emit e s).requests = s.requests := rfl
@[simp] theorem emit_env (e : Event) (s : State) : (emit e s).env = s.env := rfl
@[simp] theorem emit_reply (e : Event) (s : State) : (emit e s).reply = s.reply := rfl

/-! ## pinset -/

@[simp] theorem pinset_cfg (l : Line) (v : Level) (s : State) : (pinset l v s).cfg = s.cfg := rfl
@[simp] theorem pinset_pstate (l : Line) (v : Level) (s : State) : (pinset l v s).pstate = s.pstate := rfl
@[simp] theorem pinset_ctx (l : Line) (v : Level) (s : State) : (pinset l v s).ctx = s.ctx := rfl
@[simp] theorem pinset_fbv (l : Line) (v : Level) (s : State) : (pinset l v s).fbv = s.fbv := rfl
@[simp] theorem pinset_bpp (l : Line) (v : Level) (s : State) : (pinset l v s).bpp = s.bpp := rfl
@[simp] theorem pinset_len (l : Line) (v : Level) (s : State) : (pinset l v s).len = s.len := rfl
@[simp] theorem pinset_off (l : Line) (v : Level) (s : State) : (pinset l v s).off = s.off := rfl
@[simp] theorem pinset_seq (l : Line) (v : Level) (s : State) : (pinset l v s).seq = s.seq := rfl
@[simp] theorem pinset_count (l : Line) (v : Level) (s : State) : (pinset l v s).count = s.count := rfl
@[simp] theorem pinset_status (l : Line) (v : Level) (s : State) : (pinset l v s).status = s.status := rfl
@[simp] theorem pinset_lines (l : Line) (v : Level) (s : State) : (pinset l v s).lines = s.lines.set l v := rfl
@[simp] theorem pinset_toff (l : Line) (v : Level) (s : State) : (pinset l v s).toff = s.toff := rfl
@[simp] theorem pinset_now (l : Line) (v : Level) (s : State) : (pinset l v s).now = s.now + s.env.lag := rfl
@[simp] theorem pinset_fb (l : Line) (v : Level) (s : State) : (pinset l v s).fb = s.fb := rfl
@[simp] theorem pinset_log (l : Line) (v : Level) (s : State) : (pinset l v s).log = s.log := rfl
@[simp] theorem pinset_trace (l : Line) (v : Level) (s : State) : (pinset l v s).trace = s.trace ++ [.pinSet l v s.now] := rfl
@[simp] theorem pinset_requests (l : Line) (v : Level) (s : State) : (pinset l v s).requests = s.requests := rfl
@[simp] theorem pinset_env (l : Line) (v : Level) (s : State) : (pinset l v s).env = s.env.afterLag := rfl
@[simp] theorem pinset_reply (l : Line) (v : Level) (s : State) : (pinset l v s).reply = s.reply := rfl

/-! ## pinget -/

@[simp] theorem pinget_cfg (l : Line) (s : State) : ((pinget l s).2).cfg = s.cfg := rfl
@[simp] theorem pinget_pstate (l : Line) (s : State) : ((pinget l s).2).pstate = s.pstate := rfl
@[simp] theorem pinget_ctx (l : Line) (s : State) : ((pinget l s).2).ctx = s.ctx := rfl
@[simp] theorem pinget_fbv (l : Line) (s : State) : ((pinget l s).2).fbv = s.fbv := rfl
@[simp] theorem pinget_bpp (l : Line) (s : State) : ((pinget l s).2).bpp = s.bpp := rfl
@[simp] theorem pinget_len (l : Line) (s : State) : ((pinget l s).2).len = s.len := rfl
@[simp] theorem pinget_off (l : Line) (s : State) : ((pinget l s).2).off = s.off := rfl
@[simp] theorem pinget_seq (l : Line) (s : State) : ((pinget l s).2).seq = s.seq := rfl
@[simp] theorem pinget_count (l : Line) (s : State) : ((pinget l s).2).count = s.count := rfl
@[simp] theorem pinget_status (l : Line) (s : State) : ((pinget l s).2).status = s.status := rfl
@[simp] theorem pinget_lines (l : Line) (s : State) : ((pinget l s).2).lines = s.lines := rfl
@[simp] theorem pinget_toff (l : Line) (s : State) : ((pinget l s).2).toff = s.toff := rfl
@[simp] theorem pinget_now (l : Line) (s : State) : ((pinget l s).2).now = s.now + s.env.lag := rfl
@[simp] theorem pinget_fb (l : Line) (s : State) : ((pinget l s).2).fb = s.fb := rfl
@[simp] theorem pinget_log (l : Line) (s : State) : ((pinget l s).2).log = s.log := rfl
@[simp] theorem pinget_trace (l : Line) (s : State) : ((pinget l s).2).trace = s.trace ++ [.pinGet l (s.lines.get l) s.now] := rfl
@[simp] theorem pinget_requests (l : Line) (s : State) : ((pinget l s).2).requests = s.requests := rfl
@[simp] theorem pinget_env (l : Line) (s : State) : ((pinget l s).2).env = s.env.afterLag := rfl
@[simp] theorem pinget_reply (l : Line) (s : State) : ((pinget l s).2).reply = s.reply := rfl

/-! ## delay -/

@[simp] theorem delay_cfg (d : Nat) (s : State) : (delay d s).cfg = s.cfg := rfl
@[simp] theorem delay_pstate (d : Nat) (s : State) : (delay d s).pstate = s.pstate := rfl
@[simp] theorem delay_ctx (d : Nat) (s : State) : (delay d s).ctx = s.ctx := rfl
@[simp] theorem delay_fbv (d : Nat) (s : State) : (delay d s).fbv = s.fbv := rfl
@[simp] theorem delay_bpp (d : Nat) (s : State) : (delay d s).bpp = s.bpp := rfl
@[simp] theorem delay_len (d : Nat) (s : State) : (delay d s).len = s.len := rfl
@[simp] theorem delay_off (d : Nat) (s : State) : (delay d s).off = s.off := rfl
@[simp] theorem delay_seq (d : Nat) (s : State) : (delay d s).seq = s.seq := rfl
@[simp] theorem delay_count (d : Nat) (s : State) : (delay d s).count = s.count := rfl
@[simp] theorem delay_status (d : Nat) (s : State) : (delay d s).status = s.status := rfl
@[simp] theorem delay_lines (d : Nat) (s : State) : (delay d s).lines = s.lines := rfl
@[simp] theorem delay_toff (d : Nat) (s : State) : (delay d s).toff = s.toff := rfl
@[simp] theorem delay_now (d : Nat) (s : State) : (delay d s).now = s.now + d + s.env.lag := rfl
@[simp] theorem delay_fb (d : Nat) (s : State) : (delay d s).fb = s.fb := rfl
@[simp] theorem delay_log (d : Nat) (s : State) : (delay d s).log = s.log := rfl
@[simp] theorem delay_trace (d : Nat) (s : State) : (delay d s).trace = s.trace ++ [.wait d s.now (s.now + d + s.env.lag)] := rfl
@[simp] theorem delay_requests (d : Nat) (s : State) : (delay d s).requests = s.requests := rfl
@[simp] theorem delay_env (d : Nat) (s : State) : (delay d s).env = s.env.afterLag := rfl
@[simp] theorem delay_reply (d : Nat) (s : State) : (delay d s).reply = s.reply := rfl

/-! ## spiwr -/

@[simp] theorem spiwr_cfg (bytes : List Byte) (s : State) : ((spiwr bytes s).2).cfg = s.cfg := rfl
@[simp] theorem spiwr_pstate (bytes : List Byte) (s : State) : ((spiwr bytes s).2).pstate = s.pstate := rfl
@[simp] theorem spiwr_ctx (bytes : List Byte) (s : State) : ((spiwr bytes s).2).ctx = s.ctx := rfl
@[simp] theorem spiwr_fbv (bytes : List Byte) (s : State) : ((spiwr bytes s).2).fbv = s.fbv := rfl
@[simp] theorem spiwr_bpp (bytes : List Byte) (s : State) : ((spiwr bytes s).2).bpp = s.bpp := rfl
@[simp] theorem spiwr_len (bytes : List Byte) (s : State) : ((spiwr bytes s).2).len = s.len := rfl
@[simp] theorem spiwr_off (bytes : List Byte) (s : State) : ((spiwr bytes s).2).off = s.off := rfl
@[simp] theorem spiwr_seq (bytes : List Byte) (s : State) : ((spiwr bytes s).2).seq = s.seq := rfl
@[simp] theorem spiwr_count (bytes : List Byte) (s : State) : ((spiwr bytes s).2).count = s.count := rfl
@[simp] theorem spiwr_status (bytes : List Byte) (s : State) : ((spiwr bytes s).2).status = s.status := rfl
@[simp] theorem spiwr_lines (bytes : List Byte) (s : State) : ((spiwr bytes s).2).lines = s.lines := rfl
@[simp] theorem spiwr_toff (bytes : List Byte) (s : State) : ((spiwr bytes s).2).toff = s.toff := rfl
@[simp] theorem spiwr_now (bytes : List Byte) (s : State) : ((spiwr bytes s).2).now = s.now + s.env.afterOk.lag := rfl
@[simp] theorem spiwr_fb (bytes : List Byte) (s : State) : ((spiwr bytes s).2).fb = s.fb := rfl
@[simp] theorem spiwr_log (bytes : List Byte) (s : State) : ((spiwr bytes s).2).log = s.log := rfl
@[simp] theorem spiwr_trace (bytes : List Byte) (s : State) : ((spiwr bytes s).2).trace = s.trace ++ [.spiWrite s.lines.dc bytes s.env.ok s.now] := rfl
@[simp] theorem spiwr_requests (bytes : List Byte) (s : State) : ((spiwr bytes s).2).requests = s.requests := rfl
@[simp] theorem spiwr_env (bytes : List Byte) (s : State) : ((spiwr bytes s).2).env = s.env.afterOk.afterLag := rfl
@[simp] theorem spiwr_reply (bytes : List Byte) (s : State) : ((spiwr bytes s).2).reply = s.reply := rfl

/-! ## platformCall -/

@[simp] theorem platformCall_cfg (e : Event) (s : State) : (platformCall e s).cfg = s.cfg := rfl
@[simp] theorem platformCall_pstate (e : Event) (s : State) : (platformCall e s).pstate = s.pstate := rfl
@[simp] theorem platformCall_ctx (e : Event) (s : State) : (platformCall e s).ctx = s.ctx := rfl
@[simp] theorem platformCall_fbv (e : Event) (s : State) : (platformCall e s).fbv = s.fbv := rfl
@[simp] theorem platformCall_bpp (e : Event) (s : State) : (platformCall e s).bpp = s.bpp := rfl
@[simp] theorem platformCall_len (e : Event) (s : State) : (platformCall e s).len = s.len := rfl
@[simp] theorem platformCall_off (e : Event) (s : State) : (platformCall e s).off = s.off := rfl
@[simp] theorem platformCall_seq (e : Event) (s : State) : (platformCall e s).seq = s.seq := rfl
@[simp] theorem platformCall_count (e : Event) (s : State) : (platformCall e s).count = s.count := rfl
@[simp] theorem platformCall_status (e : Event) (s : State) : (platformCall e s).status = s.status := rfl
@[simp] theorem platformCall_lines (e : Event) (s : State) : (platformCall e s).lines = s.lines := rfl
@[simp] theorem platformCall_toff (e : Event) (s : State) : (platformCall e s).toff = s.toff := rfl
@[simp] theorem platformCall_now (e : Event) (s : State) : (platformCall e s).now = s.now + s.env.lag := rfl
@[simp] theorem platformCall_fb (e : Event) (s : State) : (platformCall e s).fb = s.fb := rfl
@[simp] theorem platformCall_log (e : Event) (s : State) : (platformCall e s).log = s.log := rfl
@[simp] theorem platformCall_trace (e : Event) (s : State) : (platformCall e s).trace = s.trace ++ [e] := rfl
@[simp] theorem platformCall_requests (e : Event) (s : State) : (platformCall e s).requests = s.requests := rfl
@[simp] theorem platformCall_env (e : Event) (s : State) : (platformCall e s).env = s.env.afterLag := rfl
@[simp] theorem platformCall_reply (e : Event) (s : State) : (platformCall e s).reply = s.reply := rfl

/-! ## setPstate -/

@[simp] theorem setPstate_cfg (p : PanelState) (s : State) : (setPstate p s).cfg = s.cfg := rfl
@[simp] theorem setPstate_pstate (p : PanelState) (s : State) : (setPstate p s).pstate = p := rfl
@[simp] theorem setPstate_ctx (p : PanelState) (s : State) : (setPstate p s).ctx = s.ctx := rfl
@[simp] theorem setPstate_fbv (p : PanelState) (s : State) : (setPstate p s).fbv = s.fbv := rfl
@[simp] theorem setPstate_bpp (p : PanelState) (s : State) : (setPstate p s).bpp = s.bpp := rfl
@[simp] theorem setPstate_len (p : PanelState) (s : State) : (setPstate p s).len = s.len := rfl
@[simp] theorem setPstate_off (p : PanelState) (s : State) : (setPstate p s).off = s.off := rfl
@[simp] theorem setPstate_seq (p : PanelState) (s : State) : (setPstate p s).seq = s.seq := rfl
@[simp] theorem setPstate_count (p : PanelState) (s : State) : (setPstate p s).count = s.count := rfl
@[simp] theorem setPstate_status (p : PanelState) (s : State) : (setPstate p s).status = s.status := rfl
@[simp] theorem setPstate_lines (p : PanelState) (s : State) : (setPstate p s).lines = s.lines := rfl
@[simp] theorem setPstate_toff (p : PanelState) (s : State) : (setPstate p s).toff = s.toff := rfl
@[simp] theorem setPstate_now (p : PanelState) (s : State) : (setPstate p s).now = s.now + s.env.lag := rfl
@[simp] theorem setPstate_fb (p : PanelState) (s : State) : (setPstate p s).fb = s.fb := rfl
@[simp] theorem setPstate_log (p : PanelState) (s : State) : (setPstate p s).log = s.log := rfl
@[simp] theorem setPstate_trace (p : PanelState) (s : State) : (setPstate p s).trace = s.trace := rfl
@[simp] theorem setPstate_requests (p : PanelState) (s : State) : (setPstate p s).requests = s.requests := rfl
@[simp] theorem setPstate_env (p : PanelState) (s : State) : (setPstate p s).env = s.env.afterLag := rfl
@[simp] theorem setPstate_reply (p : PanelState) (s : State) : (setPstate p s).reply = s.reply := rfl

/-! ## raiseStatus -/

@[simp] theorem raiseStatus_cfg (e : Status) (s : State) : (raiseStatus e s).cfg = s.cfg := rfl
@[simp] theorem raiseStatus_pstate (e : Status) (s : State) : (raiseStatus e s).pstate = s.pstate := rfl
@[simp] theorem raiseStatus_ctx (e : Status) (s : State) : (raiseStatus e s).ctx = s.ctx := rfl
@[simp] theorem raiseStatus_fbv (e : Status) (s : State) : (raiseStatus e s).fbv = s.fbv := rfl
@[simp] theorem raiseStatus_bpp (e : Status) (s : State) : (raiseStatus e s).bpp = s.bpp := rfl
@[simp] theorem raiseStatus_len (e : Status) (s : State) : (raiseStatus e s).len = s.len := rfl
@[simp] theorem raiseStatus_off (e : Status) (s : State) : (raiseStatus e s).off = s.off := rfl
@[simp] theorem raiseStatus_seq (e : Status) (s : State) : (raiseStatus e s).seq = 0#5 := rfl
@[simp] theorem raiseStatus_count (e : Status) (s : State) : (raiseStatus e s).count = s.count := rfl
@[simp] theorem raiseStatus_status (e : Status) (s : State) : (raiseStatus e s).status = e := rfl
@[simp] theorem raiseStatus_lines (e : Status) (s : State) : (raiseStatus e s).lines = s.lines := rfl
@[simp] theorem raiseStatus_toff (e : Status) (s : State) : (raiseStatus e s).toff = s.toff := rfl
@[simp] theorem raiseStatus_now (e : Status) (s : State) : (raiseStatus e s).now = s.now := rfl
@[simp] theorem raiseStatus_fb (e : Status) (s : State) : (raiseStatus e s).fb = s.fb := rfl
@[simp] theorem raiseStatus_log (e : Status) (s : State) : (raiseStatus e s).log = s.log := rfl
@[simp] theorem raiseStatus_trace (e : Status) (s : State) : (raiseStatus e s).trace = s.trace := rfl
@[simp] theorem raiseStatus_requests (e : Status) (s : State) : (raiseStatus e s).requests = s.requests := rfl
@[simp] theorem raiseStatus_env (e : Status) (s : State) : (raiseStatus e s).env = s.env := rfl
@[simp] theorem raiseStatus_reply (e : Status) (s : State) : (raiseStatus e s).reply = s.reply := rfl

/-! ## refuse -/

@[simp] theorem refuse_cfg (e : Status) (s : State) : (refuse e s).cfg = s.cfg := rfl
@[simp] theorem refuse_pstate (e : Status) (s : State) : (refuse e s).pstate = s.pstate := rfl
@[simp] theorem refuse_ctx (e : Status) (s : State) : (refuse e s).ctx = s.ctx := rfl
@[simp] theorem refuse_fbv (e : Status) (s : State) : (refuse e s).fbv = s.fbv := rfl
@[simp] theorem refuse_bpp (e : Status) (s : State) : (refuse e s).bpp = s.bpp := rfl
@[simp] theorem refuse_len (e : Status) (s : State) : (refuse e s).len = s.len := rfl
@[simp] theorem refuse_off (e : Status) (s : State) : (refuse e s).off = s.off := rfl
@[simp] theorem refuse_seq (e : Status) (s : State) : (refuse e s).seq = s.seq := rfl
@[simp] theorem refuse_count (e : Status) (s : State) : (refuse e s).count = s.count := rfl
@[simp] theorem refuse_status (e : Status) (s : State) : (refuse e s).status = e := rfl
@[simp] theorem refuse_lines (e : Status) (s : State) : (refuse e s).lines = s.lines := rfl
@[simp] theorem refuse_toff (e : Status) (s : State) : (refuse e s).toff = s.toff := rfl
@[simp] theorem refuse_now (e : Status) (s : State) : (refuse e s).now = s.now := rfl
@[simp] theorem refuse_fb (e : Status) (s : State) : (refuse e s).fb = s.fb := rfl
@[simp] theorem refuse_log (e : Status) (s : State) : (refuse e s).log = s.log := rfl
@[simp] theorem refuse_trace (e : Status) (s : State) : (refuse e s).trace = s.trace := rfl
@[simp] theorem refuse_requests (e : Status) (s : State) : (refuse e s).requests = s.requests := rfl
@[simp] theorem refuse_env (e : Status) (s : State) : (refuse e s).env = s.env := rfl
@[simp] theorem refuse_reply (e : Status) (s : State) : (refuse e s).reply = s.reply := rfl

/-! ## complete -/

@[simp] theorem complete_cfg (s : State) : (complete s).cfg = s.cfg := rfl
@[simp] theorem complete_pstate (s : State) : (complete s).pstate = s.pstate := rfl
@[simp] theorem complete_ctx (s : State) : (complete s).ctx = s.ctx := rfl
@[simp] theorem complete_fbv (s : State) : (complete s).fbv = s.fbv := rfl
@[simp] theorem complete_bpp (s : State) : (complete s).bpp = s.bpp := rfl
@[simp] theorem complete_len (s : State) : (complete s).len = s.len := rfl
@[simp] theorem complete_off (s : State) : (complete s).off = s.off := rfl
@[simp] theorem complete_seq (s : State) : (complete s).seq = 0#5 := rfl
@[simp] theorem complete_count (s : State) : (complete s).count = s.count := rfl
@[simp] theorem complete_status (s : State) : (complete s).status = .ok := rfl
@[simp] theorem complete_lines (s : State) : (complete s).lines = s.lines := rfl
@[simp] theorem complete_toff (s : State) : (complete s).toff = s.toff := rfl
@[simp] theorem complete_now (s : State) : (complete s).now = s.now := rfl
@[simp] theorem complete_fb (s : State) : (complete s).fb = s.fb := rfl
@[simp] theorem complete_log (s : State) : (complete s).log = s.log := rfl
@[simp] theorem complete_trace (s : State) : (complete s).trace = s.trace := rfl
@[simp] theorem complete_requests (s : State) : (complete s).requests = s.requests := rfl
@[simp] theorem complete_env (s : State) : (complete s).env = s.env := rfl
@[simp] theorem complete_reply (s : State) : (complete s).reply = s.reply := rfl

end Sys2Proof.Machine
end

