-- ==== Sys2Proof/Laws/Ops.lean ====
section
/-! SUPPORT. One lemma for each shared operation that says once everything it can do, for proofs to cite instead of unfolding
it: the transport primitives, command frames, numbered steps and the chunk loop. -/

namespace Sys2Proof.Machine

open Sys2Proof.Safety

/-! ## How a sequence ends -/

/-- `P` holds of the state in which a sequence ends, completed or aborted. -/
def Res.Holds (P : State → Prop) : Res → Prop
  | .ok s => P s
  | .err _ s => P s
  | .fault _ => True

/-- Sequencing keeps what both parts keep. -/
theorem Res.holds_andThen {P Q : State → Prop} {r : Res} {f : State → Res} (hr : r.Holds P)
    (hPQ : ∀ s, P s → Q s) (hf : ∀ s, P s → (f s).Holds Q) : (r.andThen f).Holds Q := by
  cases r with
  | ok s => exact hf s hr
  | err e s => exact hPQ s hr
  | fault e => trivial

/-- What every step of a list keeps, the list keeps, if `SEQ` is no part of it. -/
theorem runFrom_holds {P : State → Prop} (hseq : ∀ s q, P s → P { s with seq := q }) (fs : List Step)
    (hf : ∀ f ∈ fs, ∀ s, P s → (f s).Holds P) (k : Nat) (s : State) (hs : P s) : (runFrom k fs s).Holds P := by
  induction fs generalizing k s with
  | nil => exact hseq s _ hs
  | cons f fs ih =>
    refine Res.holds_andThen (P := P) (hf f (by simp) _ (hseq s _ hs)) (fun s h => h) ?_
    intro t ht
    exact ih (fun g hg => hf g (by simp [hg])) (k + 1) t ht

/-- A list of numbered steps that is cut in two: the second part goes on with the numbering where the first ends. -/
theorem runFrom_append (fs gs : List Step) (k : Nat) (s : State) :
    runFrom k (fs ++ gs) s = (runFrom k fs s).andThen (runFrom (k + fs.length) gs) := by
  induction fs generalizing k s with
  | nil => cases gs <;> rfl
  | cons f fs ih =>
    simp only [List.cons_append, runFrom, List.length_cons]
    cases h : f { s with seq := BitVec.ofNat 5 k } with
    | ok t => simp only [Res.andThen, ih]; rw [show k + 1 + fs.length = k + (fs.length + 1) by omega]
    | err e t => rfl
    | fault e => rfl

/-- The outcome of a host operation is the state its steps end in, with `STATUS` written and `SEQ` cleared. -/
theorem toOutcome_next {r : Res} {t : State} (h : r.toOutcome = .next t) :
    (∃ u, r = .ok u ∧ t = complete u) ∨ ∃ e u, r = .err e u ∧ t = raiseStatus e u := by
  cases r with
  | ok u => exact .inl ⟨u, rfl, by simpa [Res.toOutcome] using h.symm⟩
  | err e u => exact .inr ⟨e, u, rfl, by simpa [Res.toOutcome] using h.symm⟩
  | fault f => simp [Res.toOutcome] at h

/-- The outcome of a primitive run on its own is the state it ends in, with the reply written. -/
theorem toReply_next {r : Res} {t : State} (h : r.toReply = .next t) :
    (∃ u, r = .ok u ∧ t = { u with reply := .done }) ∨ ∃ e u, r = .err e u ∧ t = { u with reply := .raised e } := by
  cases r with
  | ok u => exact .inl ⟨u, rfl, by simpa [Res.toReply] using h.symm⟩
  | err e u => exact .inr ⟨e, u, rfl, by simpa [Res.toReply] using h.symm⟩
  | fault f => simp [Res.toReply] at h

/-! ## Lengths and depths -/

/-- The frame length of the configuration is that of R17 and R59. -/
theorem frameLen_eq (c : Cfg) (bpp : Nat) :
    frameLen c bpp = c.width.val * c.height.val * (if bpp = 16 then 2 else 1) := by
  unfold frameLen
  split
  · exact c.len16.2
  · exact c.len8.2

/-- No frame is longer than the array `FB`. -/
theorem frameLen_le_fbSize (c : Cfg) (bpp : Nat) : frameLen c bpp ≤ fbSize c := by
  rw [frameLen_eq, fbSize, c.len16.2]
  exact Nat.mul_le_mul_left _ (by split <;> omega)

/-- A side of the panel is at most 256, the number of values of a byte. -/
theorem side_le (bits : CoordBits) (side : PanelSide bits) : side.val ≤ 256 :=
  side.2.2.trans (Nat.pow_le_pow_right (n := 2) (by omega) bits.2.2)

/-- The array `FB` has at most 131072 bytes, so that `LEN`, `OFF` and `COUNT` hold every length in it. -/
theorem fbSize_le (c : Cfg) : fbSize c ≤ 131072 := by
  rw [fbSize, c.len16.2]
  exact Nat.mul_le_mul_right 2 (Nat.mul_le_mul (side_le _ c.width) (side_le _ c.height))

/-- A depth is legal when it is one of `BPP_SET`. -/
theorem depthLegal_iff (c : Cfg) (bpp : Word16) : depthLegal c bpp = true ↔ ∃ d ∈ c.bppSet, bpp = d.setWidth 16 := by
  simp only [depthLegal, List.any_eq_true, decide_eq_true_eq]
  exact ⟨fun ⟨d, hd, e⟩ => ⟨d, hd, e.symm⟩, fun ⟨d, hd, e⟩ => ⟨d, hd, e.symm⟩⟩

/-- The three checks of LOAD. -/
theorem imageValid_iff (c : Cfg) (w h : Word32) (bpp : Word16) :
    imageValid c w h bpp = true ↔
      w.toInt = c.width.val ∧ h.toInt = c.height.val ∧ ∃ d ∈ c.bppSet, bpp = d.setWidth 16 := by
  simp [imageValid, depthLegal_iff, and_assoc]

/-! ## Symbols of granted writes -/

/-- The symbols of a mark whose write was granted; of a mark that is no write there are none. -/
def markSymbols : Mark → List Symbol
  | .spiWrite dc bytes _ => transactionSymbols dc bytes
  | .acquire _ _ => []
  | .configure _ => []
  | .free _ => []
  | .pinSet _ _ => []
  | .pinGet _ _ => []
  | .wait _ => []

/-- Where every write of a trace was granted, its symbols are those of its marks. -/
theorem wireSymbols_granted (sent : Nat → Nat) (es : List Event)
    (h : ∀ dc bytes, Mark.spiWrite dc bytes false ∉ es.map markOf) :
    wireSymbols sent es = (es.map markOf).flatMap markSymbols := by
  induction es with
  | nil => rfl
  | cons e es ih =>
    have ht := ih fun dc bytes hm => h dc bytes (by simp [hm])
    cases e with
    | spiWrite dc bytes ok t =>
      cases ok with
      | true => simp [wireSymbols, ht, markOf, markSymbols]
      | false => exact absurd (by simp [markOf]) (h dc bytes)
    | _ => simpa [wireSymbols, markOf, markSymbols] using ht

/-- The symbols of the marks of a command frame (R51). -/
theorem frameMarks_symbols (c : Cfg) (opcode : Byte) (params : List Byte) :
    (frameMarks c opcode params).flatMap markSymbols = frameSymbols c opcode params := by
  simp [frameMarks, cmdMarks, datMarks, frameSymbols, markSymbols, transactionSymbols, List.flatMap_assoc,
    ← List.map_eq_flatMap]

/-- No write of a granted command frame failed. -/
theorem frameMarks_granted (c : Cfg) (opcode : Byte) (params : List Byte) (dc : Level) (bytes : List Byte) :
    Mark.spiWrite dc bytes false ∉ frameMarks c opcode params := by
  simp [frameMarks, cmdMarks, datMarks]

/-! ## Marks -/

theorem marks_append (s t : State) (es : List Event) (h : t.trace = s.trace ++ es) :
    t.marks = s.marks ++ es.map markOf := by
  simp [State.marks, h]

/-! ## Sends -/

/-- A raising write completes or raises BusError with the platform's next answer. -/
theorem spiwrOrRaise_eq (bytes : List Byte) (s : State) :
    spiwrOrRaise bytes s = if s.env.ok then .ok (spiwr bytes s).2 else .err .busError (spiwr bytes s).2 := rfl

/-- One turn of OPEN's loop goes by the platform's next answer. -/
theorem acquireStep_eq (c : Cfg) (got : List Resource) (r : Resource) (s : State) :
    acquireStep c got r s =
      if s.env.ok then .ok (platformCalls ((settingsOf c r).map .configure) (acquire r s).2)
      else .err .busError (platformCalls (got.reverse.map .free) (acquire r s).2) := rfl

/-- INIT's settle step (R92 step 6): nothing to wait for where power was never turned off. -/
theorem settleStep_none (c : Cfg) (s : State) (h : s.toff = none) : settleStep c s = .ok s := by
  simp [settleStep, h]

/-- Nothing to wait for where power went off long enough ago. -/
theorem settleStep_settled (c : Cfg) (s : State) (t : Nat) (h : s.toff = some t) (hn : t + c.tSettle ≤ s.now) :
    settleStep c s = .ok s := by
  simp [settleStep, h, Nat.not_lt.2 hn]

/-- The rest of the settle time is waited out. -/
theorem settleStep_wait (c : Cfg) (s : State) (t : Nat) (h : s.toff = some t) (hn : s.now < t + c.tSettle)
    (hp : c.settlePolicy = .wait) : settleStep c s = .ok (delay (t + c.tSettle - s.now) s) := by
  simp [settleStep, h, hn, hp]

/-- An INIT within the settle time is refused. -/
theorem settleStep_refuse (c : Cfg) (s : State) (t : Nat) (h : s.toff = some t) (hn : s.now < t + c.tSettle)
    (hp : c.settlePolicy = .refuse) : settleStep c s = .err .protocolTimingViolation s := by
  simp [settleStep, h, hn, hp]

/-- One turn of the chunk loop goes by `OFF`, `LEN` and the platform's next answer. -/
theorem chunkLoop_succ (k : Nat) (s : State) :
    chunkLoop (k + 1) s =
      if s.off.toNat < s.len.toNat then
        if s.off.toNat + chunkLen s.cfg s.len.toNat s.off.toNat ≤ fbSize s.cfg then
          if s.env.ok then chunkLoop k (advance (chunkLen s.cfg s.len.toNat s.off.toNat) (wrc (nextChunk s) s).2)
          else .err .busError (wrc (nextChunk s) s).2
        else .fault .frameBufferRange
      else .ok s := rfl

/-- The step that makes a send. -/
def sendStep : Send → Step
  | .cmd b => cmd b
  | .dat b => dat b

/-- `t` is `s` after sends: marks appended, the select line at `d`, some time passed, the answers used up to `rest`. -/
structure Sent (s t : State) (marks : List Mark) (d : Level) (rest : List Bool) : Prop where
  frame : t = { s with
    lines := { s.lines with dc := d }
    trace := t.trace
    now := t.now
    env := t.env
    seq := t.seq }
  marks : t.marks = s.marks ++ marks
  time : s.now ≤ t.now
  oks : t.env.oks = rest

/-- One send, whatever the platform answers: it completes or raises BusError with the answer that comes after the time of
its PINSET, and it uses that answer up. -/
theorem sendStep_cases (x : Send) (s : State) :
    ∃ t, sendStep x s = (if s.env.afterLag.ok then .ok t else .err .busError t) ∧
      Sent s t (sendMarks s.cfg s.env.afterLag.ok x) (sendLevel s.cfg x) s.env.oks.tail := by
  cases x with
  | cmd b =>
    refine ⟨(spiwr [b] (pinset .dc s.cfg.dcCmd s)).2, ?_, ⟨?_, ?_, ?_, ?_⟩⟩
    · exact spiwrOrRaise_eq [b] _
    · simp [spiwr, pinset, tick, emit, Lines.set, sendLevel]
    · simp [State.marks, sendMarks, cmdMarks, markOf]
    · simp; omega
    · simp
  | dat b =>
    refine ⟨(spiwr [b] (pinset .dc s.cfg.dcData s)).2, ?_, ⟨?_, ?_, ?_, ?_⟩⟩
    · exact spiwrOrRaise_eq [b] _
    · simp [spiwr, pinset, tick, emit, Lines.set, sendLevel]
    · simp [State.marks, sendMarks, datMarks, markOf]
    · simp; omega
    · simp

/-- One send whose answer is fixed: the write has that answer, and the send completes or raises BusError with it. -/
theorem sendStep_spec (x : Send) (s : State) (ok : Bool) (rest : List Bool) (h : s.env.oks = ok :: rest) :
    ∃ t, sendStep x s = (if ok then .ok t else .err .busError t) ∧
      Sent s t (sendMarks s.cfg ok x) (sendLevel s.cfg x) rest := by
  have hok : s.env.afterLag.ok = ok := Env.ok_of_oks _ _ rest h
  obtain ⟨t, ht, hs⟩ := sendStep_cases x s
  rw [hok] at ht hs
  exact ⟨t, ht, by simpa [h] using hs⟩

theorem Sent.trans {s t u : State} {m1 m2 : List Mark} {d1 d2 : Level} {r1 r2 : List Bool}
    (h1 : Sent s t m1 d1 r1) (h2 : Sent t u m2 d2 r2) : Sent s u (m1 ++ m2) d2 r2 := by
  refine ⟨?_, ?_, le_trans h1.time h2.time, h2.oks⟩
  · have e2 := h2.frame; have e1 := h1.frame
    rw [e1] at e2; exact e2
  · rw [h2.marks, h1.marks, List.append_assoc]

theorem Sent.cfg {s t : State} {m : List Mark} {d : Level} {r : List Bool} (h : Sent s t m d r) : t.cfg = s.cfg := by
  rw [h.frame]

/-- `SEQ` is no part of what sends do. -/
theorem Sent.of_seq {s t : State} {m : List Mark} {d : Level} {r : List Bool} {q : BitVec 5}
    (h : Sent { s with seq := q } t m d r) : Sent s t m d r :=
  ⟨h.frame, h.marks, h.time, h.oks⟩

theorem Sent.seq {s t : State} {m : List Mark} {d : Level} {r : List Bool} (q : BitVec 5)
    (h : Sent s t m d r) : Sent s { t with seq := q } m d r := by
  refine ⟨?_, h.marks, h.time, h.oks⟩
  have e := h.frame
  rw [e]

/-- Sends that are all granted: each in order, none left out. -/
theorem runFrom_sends_ok (x : Send) (xs : List Send) (k : Nat) (s : State) (rest : List Bool)
    (h : s.env.oks = List.replicate (x :: xs).length true ++ rest) :
    ∃ t, runFrom k ((x :: xs).map sendStep) s = .ok t ∧
      Sent s t (sentMarks s.cfg (x :: xs).length (x :: xs)) (sendLevel s.cfg ((x :: xs).getLast (by simp))) rest := by
  induction xs generalizing x k s with
  | nil =>
    obtain ⟨t, ht, hs⟩ := sendStep_spec x { s with seq := BitVec.ofNat 5 k } true rest (by simpa using h)
    refine ⟨{ t with seq := BitVec.ofNat 5 (k + 1) }, ?_, ?_⟩
    · simp [runFrom, ht, Res.andThen]
    · simpa [sentMarks] using hs.of_seq.seq _
  | cons y ys ih =>
    obtain ⟨t, ht, hs⟩ := sendStep_spec x { s with seq := BitVec.ofNat 5 k } true
      (List.replicate (y :: ys).length true ++ rest) (by simpa [List.replicate_succ] using h)
    obtain ⟨u, hu, hs'⟩ := ih y (k + 1) t hs.oks
    have hc : t.cfg = s.cfg := hs.cfg
    refine ⟨u, ?_, ?_⟩
    · rw [List.map_cons, runFrom, ht]; simpa [Res.andThen] using hu
    · rw [hc] at hs'
      simpa [sentMarks] using hs.of_seq.trans hs'

/-- Sends of which number `k` fails: those before it are made, it is the last, and BusError is raised (R88). -/
theorem runFrom_sends_err (xs : List Send) (k n : Nat) (x : Send) (s : State) (rest : List Bool) (more : List Step)
    (hx : xs[k]? = some x) (h : s.env.oks = List.replicate k true ++ false :: rest) :
    ∃ t, runFrom n (xs.map sendStep ++ more) s = .err .busError t ∧
      Sent s t (sentMarks s.cfg k xs) (sendLevel s.cfg x) rest := by
  induction k generalizing xs n s with
  | zero =>
    cases xs with
    | nil => simp at hx
    | cons y ys =>
      obtain rfl : y = x := by simpa using hx
      obtain ⟨t, ht, hs⟩ := sendStep_spec y { s with seq := BitVec.ofNat 5 n } false rest (by simpa using h)
      refine ⟨t, ?_, ?_⟩
      · simp [runFrom, ht, Res.andThen]
      · simpa [sentMarks] using hs.of_seq
  | succ k ih =>
    cases xs with
    | nil => simp at hx
    | cons y ys =>
      obtain ⟨t, ht, hs⟩ := sendStep_spec y { s with seq := BitVec.ofNat 5 n } true
        (List.replicate k true ++ false :: rest) (by simpa [List.replicate_succ] using h)
      obtain ⟨u, hu, hs'⟩ := ih ys (n + 1) t (by simpa using hx) hs.oks
      have hc : t.cfg = s.cfg := hs.cfg
      refine ⟨u, ?_, ?_⟩
      · rw [List.map_cons, List.cons_append, runFrom, ht]; simpa [Res.andThen] using hu
      · rw [hc] at hs'
        simpa [sentMarks] using hs.of_seq.trans hs'

/-! ## Command frames -/

/-- The parameters of a frame, all granted or up to the first failure. -/
theorem sendParams_ok (ps : List Byte) (s : State) (rest : List Bool) (d : Level) (hd : s.lines.dc = d)
    (h : s.env.oks = List.replicate ps.length true ++ rest) :
    ∃ t, sendParams ps s = .ok t ∧
      Sent s t (ps.flatMap fun p => datMarks s.cfg p true) (if ps = [] then d else s.cfg.dcData) rest := by
  induction ps generalizing s d with
  | nil => exact ⟨s, rfl, ⟨by simp [← hd], by simp, le_refl _, by simpa using h⟩⟩
  | cons p ps ih =>
    obtain ⟨t, ht, hs⟩ := sendStep_spec (.dat p) s true (List.replicate ps.length true ++ rest)
      (by simpa [List.replicate_succ] using h)
    have hdc : t.lines.dc = s.cfg.dcData := by rw [hs.frame]; rfl
    obtain ⟨u, hu, hs'⟩ := ih t s.cfg.dcData hdc hs.oks
    have hc : t.cfg = s.cfg := hs.cfg
    refine ⟨u, ?_, ?_⟩
    · rw [sendParams, show dat p s = .ok t by simpa [sendStep] using ht]; simpa [Res.andThen] using hu
    · rw [hc] at hs'
      have := hs.trans hs'
      simpa [sendMarks] using this

theorem sendParams_err (ps : List Byte) (k : Nat) (s : State) (rest : List Bool) (hk : k < ps.length)
    (h : s.env.oks = List.replicate k true ++ false :: rest) :
    ∃ t, sendParams ps s = .err .busError t ∧ Sent s t (sentMarks s.cfg k (ps.map .dat)) s.cfg.dcData rest := by
  induction k generalizing ps s with
  | zero =>
    cases ps with
    | nil => simp at hk
    | cons p ps =>
      obtain ⟨t, ht, hs⟩ := sendStep_spec (.dat p) s false rest (by simpa using h)
      exact ⟨t, by rw [sendParams, show dat p s = .err .busError t by simpa [sendStep] using ht]; rfl,
        by simpa [sentMarks, sendLevel] using hs⟩
  | succ k ih =>
    cases ps with
    | nil => simp at hk
    | cons p ps =>
      obtain ⟨t, ht, hs⟩ := sendStep_spec (.dat p) s true (List.replicate k true ++ false :: rest)
        (by simpa [List.replicate_succ] using h)
      obtain ⟨u, hu, hs'⟩ := ih ps t (by simpa using hk) hs.oks
      have hc : t.cfg = s.cfg := hs.cfg
      refine ⟨u, ?_, ?_⟩
      · rw [sendParams, show dat p s = .ok t by simpa [sendStep] using ht]; simpa [Res.andThen] using hu
      · rw [hc] at hs'
        simpa [sentMarks] using hs.trans hs'

/-- A command frame whose writes are all granted (R51). -/
theorem sendFrame_ok (opcode : Byte) (ps : List Byte) (s : State) (rest : List Bool)
    (h : s.env.oks = List.replicate (ps.length + 1) true ++ rest) :
    ∃ t, sendFrame opcode ps s = .ok t ∧
      Sent s t (frameMarks s.cfg opcode ps) (if ps = [] then s.cfg.dcCmd else s.cfg.dcData) rest := by
  obtain ⟨t, ht, hs⟩ := sendStep_spec (.cmd opcode) s true (List.replicate ps.length true ++ rest)
    (by simpa [List.replicate_succ] using h)
  have hdc : t.lines.dc = s.cfg.dcCmd := by rw [hs.frame]; rfl
  obtain ⟨u, hu, hs'⟩ := sendParams_ok ps t rest s.cfg.dcCmd hdc hs.oks
  have hc : t.cfg = s.cfg := hs.cfg
  refine ⟨u, ?_, ?_⟩
  · rw [sendFrame, show cmd opcode s = .ok t by simpa [sendStep] using ht]; simpa [Res.andThen] using hu
  · rw [hc] at hs'
    simpa [frameMarks, sendMarks] using hs.trans hs'

/-- A command frame whose write number `k` fails (R88). -/
theorem sendFrame_err (opcode : Byte) (ps : List Byte) (k : Nat) (s : State) (rest : List Bool) (hk : k ≤ ps.length)
    (h : s.env.oks = List.replicate k true ++ false :: rest) :
    ∃ t, sendFrame opcode ps s = .err .busError t ∧
      Sent s t (sentMarks s.cfg k (frameSends opcode ps)) (if k = 0 then s.cfg.dcCmd else s.cfg.dcData) rest := by
  cases k with
  | zero =>
    obtain ⟨t, ht, hs⟩ := sendStep_spec (.cmd opcode) s false rest (by simpa using h)
    exact ⟨t, by rw [sendFrame, show cmd opcode s = .err .busError t by simpa [sendStep] using ht]; rfl,
      by simpa [sentMarks, sendLevel, frameSends] using hs⟩
  | succ k =>
    obtain ⟨t, ht, hs⟩ := sendStep_spec (.cmd opcode) s true (List.replicate k true ++ false :: rest)
      (by simpa [List.replicate_succ] using h)
    obtain ⟨u, hu, hs'⟩ := sendParams_err ps k t rest (by omega) hs.oks
    have hc : t.cfg = s.cfg := hs.cfg
    refine ⟨u, ?_, ?_⟩
    · rw [sendFrame, show cmd opcode s = .ok t by simpa [sendStep] using ht]; simpa [Res.andThen] using hu
    · rw [hc] at hs'
      simpa [sentMarks, frameSends] using hs.trans hs'

/-! ## What the sends keep, whatever the platform answers -/

/-- A send keeps what PINSET on the select line and a one-byte SPIWR keep. -/
theorem sendStep_holds {P : State → Prop} (hp : ∀ v s, P s → P (pinset .dc v s))
    (hw : ∀ b s, P s → P (spiwr [b] s).2) (x : Send) (s : State) (hs : P s) : (sendStep x s).Holds P := by
  cases x with
  | cmd b =>
    have h := hw b _ (hp s.cfg.dcCmd s hs)
    simp only [sendStep, cmd, spiwrOrRaise]; split <;> exact h
  | dat b =>
    have h := hw b _ (hp s.cfg.dcData s hs)
    simp only [sendStep, dat, spiwrOrRaise]; split <;> exact h

theorem sendParams_holds {P : State → Prop} (hp : ∀ v s, P s → P (pinset .dc v s))
    (hw : ∀ b s, P s → P (spiwr [b] s).2) (ps : List Byte) (s : State) (hs : P s) : (sendParams ps s).Holds P := by
  induction ps generalizing s with
  | nil => exact hs
  | cons p ps ih =>
    exact Res.holds_andThen (P := P) (sendStep_holds hp hw (.dat p) s hs) (fun _ h => h) (fun t ht => ih t ht)

/-- A command frame keeps what PINSET on the select line and a one-byte SPIWR keep. -/
theorem sendFrame_holds {P : State → Prop} (hp : ∀ v s, P s → P (pinset .dc v s))
    (hw : ∀ b s, P s → P (spiwr [b] s).2) (opcode : Byte) (ps : List Byte) (s : State) (hs : P s) :
    (sendFrame opcode ps s).Holds P :=
  Res.holds_andThen (P := P) (sendStep_holds hp hw (.cmd opcode) s hs) (fun _ h => h)
    (fun t ht => sendParams_holds hp hw ps t ht)

/-- Platform calls keep what one of them keeps. -/
theorem platformCalls_holds {P : State → Prop} (es : List Event) (hp : ∀ e ∈ es, ∀ s, P s → P (platformCall e s))
    (s : State) (hs : P s) : P (platformCalls es s) := by
  induction es generalizing s with
  | nil => exact hs
  | cons e es ih =>
    exact ih (fun e' h' => hp e' (by simp [h'])) _ (hp e (by simp) s hs)

/-- The chunk loop keeps what a chunk write and the advance after it keep. -/
theorem chunkLoop_holds {P : State → Prop}
    (hw : ∀ s, P s → s.off.toNat < s.len.toNat →
      s.off.toNat + chunkLen s.cfg s.len.toNat s.off.toNat ≤ fbSize s.cfg → P (wrc (nextChunk s) s).2)
    (ha : ∀ s, P s → s.off.toNat < s.len.toNat →
      s.off.toNat + chunkLen s.cfg s.len.toNat s.off.toNat ≤ fbSize s.cfg →
      P (advance (chunkLen s.cfg s.len.toNat s.off.toNat) (wrc (nextChunk s) s).2))
    (k : Nat) (s : State) (hs : P s) : (chunkLoop k s).Holds P := by
  induction k generalizing s with
  | zero => exact hs
  | succ k ih =>
    rw [chunkLoop]
    split
    · next h1 =>
      split
      · next h2 =>
        split
        · exact ih _ (ha s hs h1 h2)
        · exact hw s hs h1 h2
      · trivial
    · exact hs

end Sys2Proof.Machine
end

