-- ==== Sys2Proof/Laws/Exec.lean ====
section
/-! SUPPORT. What every instruction keeps: a property of the trace, the time and the configuration that each platform call
keeps is kept by every instruction and by every step. -/

namespace Sys2Proof.Machine

open Sys2Proof.Safety

/-- A platform call of OPEN or CLOSE: an entry that carries no time. -/
def untimed : Event → Bool
  | .acquire _ _ => true
  | .configure _ => true
  | .free _ => true
  | .pinSet _ _ _ => false
  | .pinGet _ _ _ => false
  | .spiWrite _ _ _ _ => false
  | .wait _ _ _ => false

/-- `P` looks at the trace, the time and the configuration only, and every platform call keeps it. -/
structure KeptByCalls (P : State → Prop) : Prop where
  /-- It looks at nothing else. -/
  depends : ∀ s t : State, s.trace = t.trace → s.now = t.now → s.cfg = t.cfg → P s → P t
  /-- Time may pass. -/
  tick : ∀ s, P s → P (tick s)
  /-- A line may be set. -/
  pinset : ∀ l v s, P s → P (pinset l v s)
  /-- A line may be read. -/
  pinget : ∀ l s, P s → P (pinget l s).2
  /-- The block may wait. -/
  delay : ∀ d s, P s → P (delay d s)
  /-- A write of a legal size may be made. -/
  spiwr : ∀ bytes s, transferLength s.cfg bytes = true → P s → P (spiwr bytes s).2
  /-- An acquisition, setting or release may be made. -/
  call : ∀ e s, untimed e = true → P s → P (platformCall e s)

/-- A write of one byte has a legal size under every configuration. -/
theorem transferLength_one (c : Cfg) (b : Byte) : transferLength c [b] = true := by
  have := c.chunk.2
  simp [transferLength, this]

variable {P : State → Prop}

theorem KeptByCalls.seq (h : KeptByCalls P) (s : State) (q : BitVec 5) (hs : P s) : P { s with seq := q } :=
  h.depends s _ rfl rfl rfl hs

theorem KeptByCalls.send (h : KeptByCalls P) (x : Send) (s : State) (hs : P s) : (sendStep x s).Holds P :=
  sendStep_holds (fun v s hs => h.pinset .dc v s hs) (fun b s hs => h.spiwr [b] s (transferLength_one _ b) hs) x s hs

theorem KeptByCalls.frame (h : KeptByCalls P) (opcode : Byte) (ps : List Byte) (s : State) (hs : P s) :
    (sendFrame opcode ps s).Holds P :=
  sendFrame_holds (fun v s hs => h.pinset .dc v s hs) (fun b s hs => h.spiwr [b] s (transferLength_one _ b) hs) opcode ps s hs

theorem KeptByCalls.run (h : KeptByCalls P) (fs : List Step) (hf : ∀ f ∈ fs, ∀ s, P s → (f s).Holds P) (k : Nat)
    (s : State) (hs : P s) : (runFrom k fs s).Holds P :=
  runFrom_holds (fun s q hs => h.seq s q hs) fs hf k s hs

theorem KeptByCalls.outcome (h : KeptByCalls P) {r : Res} {t : State} (hr : r.Holds P) (ht : r.toOutcome = .next t) :
    P t := by
  obtain ⟨u, rfl, rfl⟩ | ⟨e, u, rfl, rfl⟩ := toOutcome_next ht <;> exact h.depends u _ rfl rfl rfl hr

theorem KeptByCalls.reply (h : KeptByCalls P) {r : Res} {t : State} (hr : r.Holds P) (ht : r.toReply = .next t) : P t := by
  obtain ⟨u, rfl, rfl⟩ | ⟨e, u, rfl, rfl⟩ := toReply_next ht <;> exact h.depends u _ rfl rfl rfl hr

theorem KeptByCalls.wire (h : KeptByCalls P) (opcode : Byte) (ps : List Byte) (s t : State) (hs : P s)
    (ht : wireCommand opcode ps s = .next t) : P t := by
  unfold wireCommand withHandle at ht
  split at ht
  · exact h.reply (h.frame opcode ps s hs) ht
  · cases ht
    exact h.depends s _ rfl rfl rfl hs

theorem KeptByCalls.pins (h : KeptByCalls P) (c : Cfg) : ∀ f ∈ poweroffPins c, ∀ s, P s → (f s).Holds P := by
  intro f hf s hs
  simp only [poweroffPins, List.mem_cons, List.not_mem_nil, or_false] at hf
  rcases hf with rfl | rfl | rfl
  · exact h.pinset _ _ _ (h.depends s _ rfl rfl rfl hs)
  · exact h.pinset _ _ _ hs
  · exact h.pinset _ _ _ hs

theorem KeptByCalls.initRun (h : KeptByCalls P) (s : State) (hs : P s) : (initRun s).Holds P := by
  have hg : P (Machine.pinget .pwr { s with seq := 1#5 }).2 := h.pinget _ _ (h.seq s _ hs)
  unfold Machine.initRun afterPowerRead
  refine Res.holds_andThen (P := P) ?_ (fun _ h => h) (fun u hu => h.run _ ?_ _ _ hu)
  · split
    · refine h.run _ ?_ _ _ hg
      intro f hf u hu
      rcases List.mem_append.1 hf with hf | hf
      · exact h.pins _ f hf u hu
      · simp only [List.mem_cons, List.not_mem_nil, or_false] at hf
        subst hf
        exact h.delay _ u hu
    · refine h.run _ ?_ _ _ hg
      intro f hf u hu
      simp only [List.mem_cons, List.not_mem_nil, or_false] at hf
      subst hf
      unfold settleStep
      split
      · exact hu
      · split
        · split
          · exact h.delay _ u hu
          · exact hu
        · exact hu
  · have hp : ∀ p u, P u → P (setPstate p u) := fun p u hu => h.tick _ (h.depends u _ rfl rfl rfl hu)
    intro f hf u hu
    simp only [bringUpSteps, List.mem_cons, List.not_mem_nil, or_false] at hf
    rcases hf with rfl | rfl | rfl | rfl | rfl | rfl | rfl | rfl | rfl | rfl | rfl | rfl | rfl | rfl | rfl | rfl
    · exact hp _ u hu
    · exact h.pinset _ _ u hu
    · exact h.pinset _ _ u hu
    · exact h.delay _ u hu
    · exact h.pinset _ _ u hu
    · exact h.send (.cmd _) u hu
    · exact hp _ u hu
    · exact h.delay _ u hu
    · exact h.send (.cmd _) u hu
    · exact h.send (.dat _) u hu
    · exact h.send (.cmd _) u hu
    · exact h.send (.cmd _) u hu
    · exact h.send (.dat _) u hu
    · exact h.send (.cmd _) u hu
    · exact h.delay _ u hu
    · exact hp _ u hu

theorem KeptByCalls.acquire (h : KeptByCalls P) (c : Cfg) (got : List Resource) (r : Resource) (s : State) (hs : P s) :
    (acquireStep c got r s).Holds P := by
  have ha : P (Machine.acquire r s).2 := h.call _ _ rfl (h.depends s _ rfl rfl rfl hs)
  rw [acquireStep_eq]
  split
  · refine platformCalls_holds _ ?_ _ ha
    intro e he s hs
    obtain ⟨w, -, rfl⟩ := List.mem_map.1 he
    exact h.call _ s rfl hs
  · refine platformCalls_holds _ ?_ _ ha
    intro e he s hs
    obtain ⟨w, -, rfl⟩ := List.mem_map.1 he
    exact h.call _ s rfl hs

/-- A chunk of FRAMEWR has a legal size where a byte is left to send. -/
theorem nextChunk_length (s : State) (h : s.off.toNat < s.len.toNat) : transferLength s.cfg (nextChunk s) = true := by
  have := s.cfg.chunk.2
  simp only [transferLength, nextChunk, Memory.length_readRange, chunkLen, Bool.and_eq_true, decide_eq_true_eq]
  omega

theorem KeptByCalls.chunks (h : KeptByCalls P) (k : Nat) (s : State) (hs : P s) : (chunkLoop k s).Holds P :=
  chunkLoop_holds (fun s hs ho _ => h.spiwr _ s (nextChunk_length s ho) hs)
    (fun s hs ho _ => h.depends (Machine.spiwr (nextChunk s) s).2 _ rfl rfl rfl (h.spiwr _ s (nextChunk_length s ho) hs)) k s hs

/-- What every platform call keeps, every instruction keeps. -/
theorem KeptByCalls.exec (h : KeptByCalls P) (i : Instr) (s t : State) (hs : P s) (ht : exec i s = .next t) : P t := by
  cases i with
  | load w hh b src =>
    simp only [Machine.exec, execLoad] at ht
    split at ht
    · split at ht <;> cases ht <;> exact h.depends s _ rfl rfl rfl hs
    · cases ht
      exact h.depends s _ rfl rfl rfl hs
  | openBus =>
    simp only [Machine.exec, execOpen] at ht
    split at ht
    · refine h.outcome (Res.holds_andThen (P := P) (Q := P) (h.run _ ?_ _ s hs) (fun _ h => h) ?_) ht
      · intro f hf u hu
        simp only [openSteps, List.mem_cons, List.not_mem_nil, or_false] at hf
        rcases hf with rfl | rfl | rfl | rfl <;> exact h.acquire _ _ _ u hu
      · intro u hu
        exact h.depends u _ rfl rfl rfl hu
    · cases ht
      exact h.depends s _ rfl rfl rfl hs
  | init =>
    simp only [Machine.exec, execInit] at ht
    split at ht
    · exact h.outcome (h.initRun s hs) ht
    · cases ht
      exact h.depends s _ rfl rfl rfl hs
  | setwin x1 y1 x2 y2 =>
    simp only [Machine.exec, execSetwin] at ht
    split at ht
    · split at ht
      · refine h.outcome (h.run _ ?_ _ s hs) ht
        intro f hf u hu
        simp only [windowSteps, List.mem_cons, List.not_mem_nil, or_false] at hf
        rcases hf with rfl | rfl | rfl | rfl | rfl | rfl
        · exact h.send (.cmd _) u hu
        · exact h.send (.dat _) u hu
        · exact h.send (.dat _) u hu
        · exact h.send (.cmd _) u hu
        · exact h.send (.dat _) u hu
        · exact h.send (.dat _) u hu
      · cases ht
        exact h.depends s _ rfl rfl rfl hs
    · cases ht
      exact h.depends s _ rfl rfl rfl hs
  | framewr =>
    simp only [Machine.exec, execFramewr] at ht
    split at ht
    · refine h.outcome (h.run _ ?_ _ s hs) ht
      intro f hf u hu
      simp only [frameSteps, List.mem_cons, List.not_mem_nil, or_false] at hf
      rcases hf with rfl | rfl | rfl | rfl
      · exact h.depends u _ rfl rfl rfl hu
      · exact h.send (.cmd _) u hu
      · exact h.pinset _ _ u hu
      · exact h.chunks _ u hu
    · cases ht
      exact h.depends s _ rfl rfl rfl hs
  | pwroff =>
    simp only [Machine.exec, execPwroff] at ht
    split at ht
    · refine h.outcome (Res.holds_andThen (P := P) (Q := P) (h.run _ (h.pins _) _ s hs) (fun _ h => h) ?_) ht
      intro u hu
      exact h.depends u _ rfl rfl rfl hu
    · cases ht
      exact h.depends s _ rfl rfl rfl hs
  | close =>
    simp only [Machine.exec, execClose] at ht
    split at ht
    · refine h.outcome (Res.holds_andThen (P := P) (h.run _ ?_ _ s hs) (fun _ h => h) ?_) ht
      · intro f hf u hu
        simp only [closeSteps, List.mem_cons, List.not_mem_nil, or_false] at hf
        rcases hf with rfl | rfl | rfl | rfl <;> exact h.call _ u rfl hu
      · intro u hu
        simp only [Res.Holds, endSession, freeLines]
        split <;> exact h.depends u _ rfl rfl rfl hu
    · cases ht
      exact h.depends s _ rfl rfl rfl hs
  | dcs opcode payload =>
    simp only [Machine.exec, execDcs] at ht
    split at ht
    · refine h.outcome (h.run _ ?_ _ s hs) ht
      intro f hf u hu
      simp only [List.mem_cons, List.not_mem_nil, or_false] at hf
      subst hf
      exact h.frame _ _ u hu
    · cases ht
      exact h.depends s _ rfl rfl rfl hs
  | swreset => exact h.wire _ _ s t hs ht
  | slpout => exact h.wire _ _ s t hs ht
  | dispon => exact h.wire _ _ s t hs ht
  | caset a b => exact h.wire _ _ s t hs ht
  | paset a b => exact h.wire _ _ s t hs ht
  | ramwr => exact h.wire _ _ s t hs ht
  | madctl m => exact h.wire _ _ s t hs ht
  | colmod m => exact h.wire _ _ s t hs ht
  | cmd b =>
    simp only [Machine.exec, execCmd, withHandle] at ht
    split at ht
    · exact h.reply (h.send (.cmd b) s hs) ht
    · cases ht
      exact h.depends s _ rfl rfl rfl hs
  | dat b =>
    simp only [Machine.exec, execDat, withHandle] at ht
    split at ht
    · exact h.reply (h.send (.dat b) s hs) ht
    · cases ht
      exact h.depends s _ rfl rfl rfl hs
  | pinset l v =>
    simp only [Machine.exec, execPinset, withHandle] at ht
    split at ht
    · exact h.reply (r := .ok (Machine.pinset l v s)) (h.pinset l v s hs) ht
    · cases ht
      exact h.depends s _ rfl rfl rfl hs
  | pinget l =>
    simp only [Machine.exec, execPinget, withHandle] at ht
    split at ht <;> cases ht
    · exact h.depends (Machine.pinget l s).2 _ rfl rfl rfl (h.pinget l s hs)
    · exact h.depends s _ rfl rfl rfl hs
  | delay d =>
    exact h.reply (r := .ok (Machine.delay d s)) (h.delay d s hs) ht
  | spiwr bytes =>
    simp only [Machine.exec, execSpiwr, withHandle] at ht
    split at ht
    · split at ht
      · next hl =>
        cases ht
        exact h.depends (Machine.spiwr bytes s).2 _ rfl rfl rfl (h.spiwr bytes s hl hs)
      · cases ht
    · cases ht
      exact h.depends s _ rfl rfl rfl hs
  | wrc bytes =>
    simp only [Machine.exec, execWrc, withHandle] at ht
    split at ht
    · split at ht
      · next hl =>
        cases ht
        exact h.depends (Machine.spiwr bytes s).2 _ rfl rfl rfl (h.spiwr bytes s hl hs)
      · cases ht
    · cases ht
      exact h.depends s _ rfl rfl rfl hs

/-- What every platform call keeps, every step keeps. -/
theorem KeptByCalls.step (h : KeptByCalls P) (s t : State) (hs : P s) (ht : step s = .next t) : P t := by
  unfold Machine.step at ht
  split at ht
  · cases ht
    exact h.tick s hs
  · next r rest hr =>
    have hk : P (taken rest s) := h.tick _ (h.depends s _ rfl rfl rfl hs)
    split at ht
    · exact h.exec _ _ _ hk ht
    · next e he =>
      cases e with
      | unknownOp op =>
        cases ht
        exact h.depends (taken rest s) _ rfl rfl rfl hk
      | empty => cases ht
      | truncated => cases ht
      | trailing => cases ht

end Sys2Proof.Machine
end

