-- ==== Sys2Proof/Laws/PerInstr.lean ====
section
/-! SUPPORT. What holds of every instruction as syntax, one lemma per constructor. -/

namespace Sys2Proof.Laws.TableRow

/-- `mask` and `match` of the instruction's row of spec/opcode_table.json; a row of format `T` has none. -/
def pattern : Instr → Option (Nat × Nat)
  | .load _ _ _ _ => some (0xFF, 0x01)
  | .openBus => some (0xFF, 0x02)
  | .init => some (0xFF, 0x03)
  | .setwin _ _ _ _ => some (0xFF, 0x04)
  | .framewr => some (0xFF, 0x05)
  | .pwroff => some (0xFF, 0x06)
  | .close => some (0xFF, 0x07)
  | .dcs _ _ => some (0xFF, 0x08)
  | .swreset => some (0x1FF, 0x001)
  | .slpout => some (0x1FF, 0x011)
  | .dispon => some (0x1FF, 0x029)
  | .caset _ _ => some (0x1FF, 0x02A)
  | .paset _ _ => some (0x1FF, 0x02B)
  | .ramwr => some (0x1FF, 0x02C)
  | .madctl _ => some (0x1FF, 0x036)
  | .colmod _ => some (0x1FF, 0x03A)
  | .cmd _ => some (0x100, 0x000)
  | .dat _ => some (0x100, 0x100)
  | .pinset _ _ => none
  | .pinget _ => none
  | .delay _ => none
  | .spiwr _ => none
  | .wrc _ => none

/-- The bits of a request that the opcode table describes: the `op` byte of a host record, the symbol of a wire command. -/
def tableBits : Request → Option Nat
  | .host [] => none
  | .host (op :: _) => some op.toNat
  | .wire w _ => some w.toNat
  | .call _ => none

/-- The form a request of a format has. -/
def formOf : Request → Format
  | .host _ => .host
  | .wire _ _ => .wire
  | .call _ => .transport

/-- Under the default configuration the encoding of the instruction has the form of its row's format, and its table bits
carry the row's `match` under the row's `mask` (R66). -/
def Statement (i : Instr) : Prop :=
  formOf (encode Config.default i) = i.format ∧
    (tableBits (encode Config.default i)).isSome = (pattern i).isSome ∧
    ∀ w mask value, tableBits (encode Config.default i) = some w → pattern i = some (mask, value) → w &&& mask = value

/-- A row whose table bits are `w`. -/
theorem of_bits {i : Instr} {w mask value : Nat} (hf : formOf (encode Config.default i) = i.format)
    (hb : tableBits (encode Config.default i) = some w) (hp : pattern i = some (mask, value)) (hw : w &&& mask = value) :
    Statement i := by
  refine ⟨hf, by rw [hb, hp]; rfl, ?_⟩
  intro w' m' v' hb' hp'
  rw [hb] at hb'
  rw [hp] at hp'
  cases hb'
  cases hp'
  exact hw

/-- A row of format `T`. -/
theorem of_call {i : Instr} (hf : formOf (encode Config.default i) = i.format)
    (hb : tableBits (encode Config.default i) = none) (hp : pattern i = none) : Statement i := by
  refine ⟨hf, by rw [hb, hp]; rfl, ?_⟩
  intro w' m' v' hb'
  rw [hb] at hb'
  cases hb'

theorem load (width height : Word32) (bpp : Word16) (src : List Byte) : Statement (.load width height bpp src) :=
  of_bits (w := 0x01) rfl rfl rfl rfl
theorem openBus : Statement .openBus := of_bits (w := 0x02) rfl rfl rfl rfl
theorem init : Statement .init := of_bits (w := 0x03) rfl rfl rfl rfl
theorem setwin (x1 y1 x2 y2 : Byte) : Statement (.setwin x1 y1 x2 y2) := of_bits (w := 0x04) rfl rfl rfl rfl
theorem framewr : Statement .framewr := of_bits (w := 0x05) rfl rfl rfl rfl
theorem pwroff : Statement .pwroff := of_bits (w := 0x06) rfl rfl rfl rfl
theorem close : Statement .close := of_bits (w := 0x07) rfl rfl rfl rfl
theorem dcs (opcode : Byte) (payload : List Byte) : Statement (.dcs opcode payload) :=
  of_bits (w := 0x08) rfl rfl rfl rfl
theorem swreset : Statement .swreset := of_bits (w := 0x001) rfl rfl rfl rfl
theorem slpout : Statement .slpout := of_bits (w := 0x011) rfl rfl rfl rfl
theorem dispon : Statement .dispon := of_bits (w := 0x029) rfl rfl rfl rfl
theorem caset (first last : Byte) : Statement (.caset first last) := of_bits (w := 0x02A) rfl rfl rfl rfl
theorem paset (first last : Byte) : Statement (.paset first last) := of_bits (w := 0x02B) rfl rfl rfl rfl
theorem ramwr : Statement .ramwr := of_bits (w := 0x02C) rfl rfl rfl rfl
theorem madctl (m : Byte) : Statement (.madctl m) := of_bits (w := 0x036) rfl rfl rfl rfl
theorem colmod (m : Byte) : Statement (.colmod m) := of_bits (w := 0x03A) rfl rfl rfl rfl

/-- A generic symbol keeps its level in bit 8, whatever its byte. -/
theorem level_bit : ∀ b : Byte, (symbolOf false b).toNat &&& 0x100 = 0 ∧ (symbolOf true b).toNat &&& 0x100 = 0x100 := by
  decide

theorem cmd (b : Byte) : Statement (.cmd b) := of_bits rfl rfl rfl (level_bit b).1
theorem dat (b : Byte) : Statement (.dat b) := of_bits rfl rfl rfl (level_bit b).2
theorem pinset (line : Line) (level : Level) : Statement (.pinset line level) := of_call rfl rfl rfl
theorem pinget (line : Line) : Statement (.pinget line) := of_call rfl rfl rfl
theorem delay (d : Nat) : Statement (.delay d) := of_call rfl rfl rfl
theorem spiwr (bytes : List Byte) : Statement (.spiwr bytes) := of_call rfl rfl rfl
theorem wrc (bytes : List Byte) : Statement (.wrc bytes) := of_call rfl rfl rfl

end Sys2Proof.Laws.TableRow
end

