-- ==== Sys2Proof/Tests/Slice0.lean ====
section
/-! SUPPORT. Tests: ill-formed terms, words written out from the tables, one step of each instruction on a small state, and
for every obligation with hypotheses a state and operands that meet them. Expected values come from spec/95_test_vectors.md
(V1 to V33), from the tables of spec/30_encoding.md, or by hand from the rule named. -/

namespace Sys2Proof.Tests

open Sys2Proof.Machine Sys2Proof.Safety

/-! ## Ill-formed terms -/

theorem test_wellFormed_refuses_load_count :
    wellFormed Config.default (.load 0#32 0#32 0#16 (List.replicate (2 ^ 32) 0#8)) = false := by
  rw [wellFormed, fitsBits, List.length_replicate]; decide
theorem test_wellFormed_refuses_dcs_count :
    wellFormed Config.default (.dcs 0#8 (List.replicate (2 ^ 16) 0#8)) = false := by
  rw [wellFormed, fitsBits, List.length_replicate]; decide
theorem test_wellFormed_refuses_specific_cmd : wellFormed Config.default (.cmd 0x2A#8) = false := by decide
theorem test_wellFormed_refuses_empty_spiwr : wellFormed Config.default (.spiwr []) = false := by decide
theorem test_wellFormed_refuses_long_spiwr : wellFormed Config.default (.spiwr (List.replicate 64 0#8)) = false := by decide
theorem test_wellFormed_refuses_empty_wrc : wellFormed Config.default (.wrc []) = false := by decide
theorem test_wellFormed_refuses_long_wrc : wellFormed Config.default (.wrc (List.replicate 64 0#8)) = false := by decide
theorem test_wellFormed_admits_full_chunk : wellFormed Config.default (.wrc (List.replicate 63 0#8)) = true := by decide

/-! ## Words written out from the tables (R49, R53, R54, R55) -/

/-- A decoded instruction, or `none` where the decoder rejects. -/
def decoded (r : Request) : Option Instr := (decode Config.default r).toOption

theorem test_decode_load : decoded (.host [0x01#8, 0x84#8, 0#8, 0#8, 0#8, 0xB0#8, 0#8, 0#8, 0#8, 0x10#8, 0#8, 3#8, 0#8, 0#8, 0#8,
    0x12#8, 0x34#8, 0x56#8]) = some (.load 132#32 176#32 16#16 [0x12#8, 0x34#8, 0x56#8]) := by decide
theorem test_decode_load_short : decode Config.default (.host [0x01#8, 0x84#8, 0#8, 0#8, 0#8, 0xB0#8, 0#8, 0#8, 0#8, 0x10#8,
    0#8, 3#8, 0#8, 0#8, 0#8, 0x12#8]) = .error .truncated := by rfl
theorem test_decode_open : decoded (.host [0b00000010#8]) = some .openBus := by decide
theorem test_decode_init : decoded (.host [0b00000011#8]) = some .init := by decide
theorem test_decode_setwin : decoded (.host [0x04#8, 10#8, 20#8, 50#8, 60#8]) = some (.setwin 10#8 20#8 50#8 60#8) := by decide
theorem test_decode_framewr : decoded (.host [0b00000101#8]) = some .framewr := by decide
theorem test_decode_pwroff : decoded (.host [0b00000110#8]) = some .pwroff := by decide
theorem test_decode_close : decoded (.host [0b00000111#8]) = some .close := by decide
theorem test_decode_dcs : decoded (.host [0x08#8, 0x2A#8, 4#8, 0#8, 0#8, 0#8, 0#8, 0x83#8]) =
    some (.dcs 0x2A#8 [0#8, 0#8, 0#8, 0x83#8]) := by decide
theorem test_decode_unknown_op : decode Config.default (.host [0x09#8]) = .error (.unknownOp 0x09#8) := by rfl
theorem test_decode_no_op_byte : decode Config.default (.host []) = .error .empty := by rfl
theorem test_decode_trailing : decode Config.default (.host [0x02#8, 0#8]) = .error .trailing := by rfl
theorem test_decode_swreset : decoded (.wire 0b000000001#9 []) = some .swreset := by decide
theorem test_decode_slpout : decoded (.wire 0b000010001#9 []) = some .slpout := by decide
theorem test_decode_dispon : decoded (.wire 0b000101001#9 []) = some .dispon := by decide
theorem test_decode_caset : decoded (.wire 0b000101010#9 [0#8, 0x83#8]) = some (.caset 0#8 0x83#8) := by decide
theorem test_decode_paset : decoded (.wire 0b000101011#9 [0x10#8, 0xAF#8]) = some (.paset 0x10#8 0xAF#8) := by decide
theorem test_decode_ramwr : decoded (.wire 0b000101100#9 []) = some .ramwr := by decide
theorem test_decode_madctl : decoded (.wire 0b000110110#9 [0x60#8]) = some (.madctl 0x60#8) := by decide
theorem test_decode_colmod : decoded (.wire 0b000111010#9 [0x05#8]) = some (.colmod 0x05#8) := by decide
theorem test_decode_cmd : decoded (.wire 0b010110001#9 []) = some (.cmd 0xB1#8) := by decide
theorem test_decode_dat : decoded (.wire 0b100101010#9 []) = some (.dat 0x2A#8) := by decide
theorem test_decode_pinset : decoded (.call (.pinset .rst false)) = some (.pinset .rst false) := by decide
theorem test_decode_pinget : decoded (.call (.pinget .pwr)) = some (.pinget .pwr) := by decide
theorem test_decode_delay : decoded (.call (.delay 2000)) = some (.delay 2000) := by decide
theorem test_decode_spiwr : decoded (.call (.spiwr [0x2C#8])) = some (.spiwr [0x2C#8]) := by decide
theorem test_decode_wrc : decoded (.call (.wrc [1#8])) = some (.wrc [1#8]) := by decide
theorem test_table_word_load : decodeTableWord 8 0x01 = some (.load 0#32 0#32 0#16 []) := by decide
theorem test_table_word_caset : decodeTableWord 16 0x02A = some (.caset 0#8 0#8) := by decide
theorem test_table_word_too_wide : decodeTableWord 16 0x200 = none := by decide

/-! ## A small state -/

/-- The small configuration of V32 with short delays and every open parameter fixed. -/
def small : Cfg :=
  { Config.default with
    width := ⟨2, by decide⟩
    height := ⟨2, by decide⟩
    len8 := ⟨4, by decide⟩
    len16 := ⟨8, by decide⟩
    chunk := ⟨3, by decide⟩
    tRst := 2
    tInit1 := 20
    tInit2 := 30
    tSettle := 1500
    pixfmt8 := 0x03#8
    spiHz := 8000
    busId := 1
    chipSelect := 2
    linePwr := 10
    lineRst := 11
    lineDc := 12 }

/-- No handle, nothing loaded, time 1000; every step takes no longer than it must. -/
def bare : State where
  cfg := small
  pstate := .poweredOff
  ctx := false
  fbv := false
  bpp := 0#5
  len := 0#32
  off := 0#32
  seq := 0#5
  count := 0#32
  status := .ok
  lines := ⟨false, false, false⟩
  toff := none
  now := 1000
  fb := ⟨[], 0⟩
  log := []
  trace := []
  requests := []
  env := ⟨[], List.replicate 60 0, [true, false, true], 0⟩
  reply := .none

/-- An 8 bpp frame of the small panel is loaded. -/
def loaded : State :=
  { bare with fbv := true, bpp := 8#5, len := 4#32, fb := ⟨[(0, 0x0A#8), (1, 0x0B#8), (2, 0x0C#8), (3, 0x0D#8)], 0⟩ }

/-- The handle is held, the panel off. -/
def opened : State := { loaded with ctx := true }

/-- The panel is Ready, all lines high. -/
def ready : State := { opened with pstate := .ready, lines := ⟨true, true, true⟩, status := .busError }

/-- The platform's next answers. -/
def answers (oks : List Bool) (s : State) : State := { s with env := { s.env with oks := oks } }

/-- The requests of the host. -/
def asked (rs : List Request) (s : State) : State := { s with requests := rs }

/-- The state after, where there is one; the state `bare` stands for a stop. -/
def after : Host.Outcome State Fault Refusal → State
  | .next t => t
  | .fault _ => bare
  | .refused _ => bare

/-- A write at the command level with its line write, `C:xx` (R64). -/
def C (b : Byte) : List Mark := [.pinSet .dc false, .spiWrite false [b] true]

/-- A write at the data level with its line write, `D:xx` (R64). -/
def D (b : Byte) : List Mark := [.pinSet .dc true, .spiWrite true [b] true]

/-! ## One step of each instruction -/

-- V32a: the byte swap; V17c, V18a with the small geometry.
theorem test_load_swaps : ((after (exec (.load 2#32 2#32 16#16 [1#8, 2#8, 3#8, 4#8, 5#8, 6#8, 7#8, 8#8]) bare)).fb.readRange 0 8) =
    [2#8, 1#8, 4#8, 3#8, 6#8, 5#8, 8#8, 7#8] := by decide
theorem test_load_negative_height : (after (exec (.load 2#32 (-2#32) 8#16 [1#8, 2#8, 3#8, 4#8]) loaded)).hostResult =
    ⟨3#3, 0#32, 0#2⟩ := by decide
-- R90: the example of ten entries; D27 order, release in reverse.
theorem test_open_ten_entries : (after (exec .openBus (answers [true, true, true, true] loaded))).marks.length = 10 := by decide
theorem test_open_releases : (after (exec .openBus (answers [true, true, false] loaded))).marks =
    [.acquire .spi true, .configure (.speed 8000), .configure (.mode 0), .configure (.bitsPerWord 8),
     .acquire (.line .pwr) true, .configure (.direction .pwr .output), .acquire (.line .rst) false,
     .free (.line .pwr), .free .spi] := by decide
-- V30b with the small settle time: power off at 400, INIT at 1000, remainder 1500 - 600.
theorem test_init_waits_the_remainder :
    (after (exec .init (answers (List.replicate 7 true) { opened with toff := some 400 }))).marks =
      [.pinGet .pwr false, .wait 900, .pinSet .pwr true, .pinSet .rst false, .wait 2, .pinSet .rst true] ++ C 0x01#8 ++
      [.wait 20] ++ C 0x36#8 ++ D 0x00#8 ++ C 0x11#8 ++ C 0x3A#8 ++ D 0x05#8 ++ C 0x29#8 ++ [.wait 30] := by decide
-- R95: the third write (MADCTL's parameter) fails in Initializing.
theorem test_init_failure : (after (exec .init (answers [true, true, false] opened))).hostResult = ⟨4#3, 0#32, 2#2⟩ := by decide
-- V27b form with the small panel; V27i.
theorem test_setwin_order : (after (exec (.setwin 0#8 1#8 1#8 0#8) (answers (List.replicate 6 true) ready))).marks =
    C 0x2A#8 ++ D 0#8 ++ D 1#8 ++ C 0x2B#8 ++ D 1#8 ++ D 0#8 := by decide
theorem test_setwin_third_write_fails : (after (exec (.setwin 0#8 0#8 1#8 1#8) (answers [true, true, false] ready))).marks =
    C 0x2A#8 ++ D 0#8 ++ [.pinSet .dc true, .spiWrite true [1#8] false] := by decide
-- V32f and V32c.
theorem test_framewr_chunks : (after (exec .framewr (answers [true, true, true] ready))).marks =
    C 0x2C#8 ++ [.pinSet .dc true, .spiWrite true [0x0A#8, 0x0B#8, 0x0C#8] true, .spiWrite true [0x0D#8] true] := by decide
theorem test_framewr_counts_failed : (after (exec .framewr (answers [true, true, false] ready))).hostResult =
    ⟨4#3, 3#32, 3#2⟩ := by decide
-- R96, R97: the order of the three lines and the time of the first.
theorem test_pwroff_lines : (after (exec .pwroff ready)).trace =
    [.pinSet .pwr false 1000, .pinSet .rst false 1000, .pinSet .dc false 1000] := by decide
theorem test_pwroff_time : (after (exec .pwroff ready)).toff = some 1000 := by decide
-- R98.
theorem test_close_order : (after (exec .close ready)).marks =
    [.free (.line .dc), .free (.line .rst), .free (.line .pwr), .free .spi] := by decide
theorem test_close_keeps_lines : (after (exec .close ready)).lines = ⟨true, true, true⟩ := by decide
-- V28a, V28f.
theorem test_dcs_filters : (after (exec (.dcs 0x2A#8 [0#8, 0#8, 0#8, 0x83#8]) (answers (List.replicate 3 true) ready))).marks =
    C 0x2A#8 ++ D 0x00#8 ++ D 0x83#8 := by decide
theorem test_dcs_passes : (after (exec (.dcs 0xB1#8 [1#8, 2#8, 3#8, 4#8]) (answers (List.replicate 5 true) ready))).marks =
    C 0xB1#8 ++ D 1#8 ++ D 2#8 ++ D 3#8 ++ D 4#8 := by decide
-- R76 to R83: `C:01`, `C:11`, `C:29`, `C:2A D:.. D:..`, and so on.
theorem test_swreset : (after (exec .swreset (answers [true] ready))).marks = C 0x01#8 := by decide
theorem test_slpout : (after (exec .slpout (answers [true] ready))).marks = C 0x11#8 := by decide
theorem test_dispon : (after (exec .dispon (answers [true] ready))).marks = C 0x29#8 := by decide
theorem test_caset : (after (exec (.caset 0#8 0x83#8) (answers [true, true, true] ready))).marks =
    C 0x2A#8 ++ D 0x00#8 ++ D 0x83#8 := by decide
theorem test_paset : (after (exec (.paset 0x10#8 0xAF#8) (answers [true, true, true] ready))).marks =
    C 0x2B#8 ++ D 0x10#8 ++ D 0xAF#8 := by decide
theorem test_ramwr : (after (exec .ramwr (answers [true] ready))).marks = C 0x2C#8 := by decide
theorem test_madctl : (after (exec (.madctl 0x60#8) (answers [true, true] ready))).marks = C 0x36#8 ++ D 0x60#8 := by decide
theorem test_colmod : (after (exec (.colmod 0x05#8) (answers [true, true] ready))).marks = C 0x3A#8 ++ D 0x05#8 := by decide
theorem test_colmod_command_fails : (after (exec (.colmod 0x05#8) (answers [false] ready))).marks =
    [.pinSet .dc false, .spiWrite false [0x3A#8] false] := by decide
-- V25a, V25d, V25c.
theorem test_cmd : (after (exec (.cmd 0xB1#8) (answers [true] ready))).trace =
    [.pinSet .dc false 1000, .spiWrite false [0xB1#8] true 1000] := by decide
theorem test_cmd_raises : (after (exec (.cmd 0xB1#8) (answers [false] ready))).reply = .raised .busError := by decide
theorem test_dat : (after (exec (.dat 0x05#8) (answers [true] opened))).trace =
    [.pinSet .dc true 1000, .spiWrite true [0x05#8] true 1000] := by decide
theorem test_dat_leaves_line : (after (exec (.dat 0x05#8) (answers [false] opened))).lines = ⟨false, false, true⟩ := by decide
-- V25f, V25g, V26a, V25e.
theorem test_pinset : (after (exec (.pinset .rst false) ready)).lines = ⟨true, false, true⟩ := by decide
theorem test_pinget : (after (exec (.pinget .pwr) ready)).reply = .level true := by decide
theorem test_delay : (after (exec (.delay 2000) bare)).trace = [.wait 2000 1000 3000] := by decide
theorem test_delay_longer : (after (exec (.delay 0) { bare with env := ⟨[], [7], [], 0⟩ })).trace = [.wait 0 1000 1007] := by decide
theorem test_spiwr : (after (exec (.spiwr [0x2C#8]) (answers [true] opened))).marks = [.spiWrite false [0x2C#8] true] := by decide
theorem test_spiwr_answer : (after (exec (.spiwr [0x2C#8]) (answers [false] opened))).reply = .answer false := by decide
theorem test_wrc : (after (exec (.wrc [1#8, 2#8, 3#8]) (answers [true] ready))).marks =
    [.spiWrite true [1#8, 2#8, 3#8] true] := by decide
theorem test_wrc_answer : (after (exec (.wrc [1#8]) (answers [false] ready))).reply = .answer false := by decide

/-! ## Operand forms and views -/

-- V3, V4, V5, V7.
theorem test_filter_caset : coordFilter small 0x2A#8 [0x01#8, 0x83#8, 0x02#8, 0x05#8] = [0x83#8, 0x05#8] := by decide
theorem test_filter_paset : coordFilter small 0x2B#8 [0xAA#8, 0xBB#8, 0xCC#8, 0xDD#8] = [0xBB#8, 0xDD#8] := by decide
theorem test_filter_other : coordFilter small 0x2C#8 [1#8, 2#8, 3#8, 4#8] = [1#8, 2#8, 3#8, 4#8] := by decide
-- V20, V21, V22f: chunk counts.
theorem test_chunk_count : chunkCount Config.default 46464 = 738 ∧ chunkCount Config.default 23232 = 369 := by decide
theorem test_last_chunk : chunkLen Config.default 46464 (737 * 63) = 33 ∧ chunkLen Config.default 23232 (368 * 63) = 48 := by decide
-- V31b: op 0x00 and 0xFF.
theorem test_unknown_op : (after (step (asked [.host [0xFF#8]] bare))).hostResult = ⟨1#3, 0#32, 0#2⟩ := by decide
-- R38: the most significant bit first.
theorem test_shift_order : shiftOrder small 0x2C#8 = [false, false, true, false, true, true, false, false] := by decide
-- R10: a write of the level the line has is not seen; R40: a failed write shows its prefix only.
theorem test_panel_view : panelView small (fun _ => 1) ⟨none, none, some false⟩
    [.pinSet .dc false 1, .spiWrite false [0x2C#8] true 2, .pinSet .dc true 3, .spiWrite true [1#8, 2#8] false 4] =
    [.transaction false [0x2C#8], .level .dc true, .transaction true [1#8]] := by decide
-- R30, R98: without PERSIST CLOSE leaves no level known, so the next write is seen; a failed OPEN leaves them (R90, R125).
theorem test_panel_view_close : panelView { small with persist := false } (fun _ => 0) ⟨some true, some true, some false⟩
    [.free (.line .dc), .free (.line .rst), .free (.line .pwr), .free .spi, .pinSet .pwr true 5] = [.level .pwr true] := by decide
theorem test_panel_view_failed_open : panelView { small with persist := false } (fun _ => 0) ⟨some true, some true, some false⟩
    [.acquire .spi true, .acquire (.line .pwr) true, .acquire (.line .rst) false, .free (.line .pwr), .free .spi,
     .pinSet .pwr true 5] = [] := by decide
-- R10 (2): of a CLOSE, a wire command, an idle step and an unknown op only the two host requests return a result.
theorem test_results : resultsOf 4 (asked [.host [0x07#8], .wire 0b000101100#9 [], .host [0xFF#8]] (answers [true] bare)) =
    [⟨0#3, 0#32, 0#2⟩, ⟨1#3, 0#32, 0#2⟩] := by decide
-- R5: the depths and lengths of the default configuration; another set of depths admits other images.
theorem test_default_lengths : frameLen Config.default 8 = 23232 ∧ frameLen Config.default 16 = 46464 ∧
    fbSize Config.default = 46464 := by decide
theorem test_depth_set : imageValid { small with bppSet := [16#5] } 2#32 2#32 8#16 = false ∧
    imageValid small 2#32 2#32 8#16 = true := by decide
-- R111: a file too short for its header; V33b: a negative height is passed on as it is.
theorem test_short_file : imageRequest (List.replicate 0x1D 0#8) = none := by decide
theorem test_image_request : imageRequest (List.replicate 10 0#8 ++ [0x1E#8, 0#8, 0#8, 0#8] ++ List.replicate 4 0#8 ++
    [0x84#8, 0#8, 0#8, 0#8, 0x50#8, 0xFF#8, 0xFF#8, 0xFF#8, 0#8, 0#8, 0x10#8, 0#8] ++ [9#8]) =
    some (.load 132#32 (-176#32) 16#16 [9#8]) := by decide
-- R112, V31d.
theorem test_exit_code : exitCode .validationError = some 3 := by decide
-- R133: reset in the middle of a life keeps the configuration and makes no platform call.
theorem test_block_reset : (blockReset ready).ctx = false ∧ (blockReset ready).pstate = .poweredOff ∧
    (blockReset ready).trace = [] ∧ (blockReset ready).cfg.tRst = 2 := by decide

/-! ## Witnesses: a state and operands that meet the hypotheses of each obligation -/

-- PinsetSetsLineAndRecordsIt, PingetReturnsLineAndRecordsIt.
theorem test_witness_handle : opened.ctx = true := rfl
-- PwroffDrivesTheLinesInOrder: with a handle, from Ready.
theorem test_witness_pwroff : ready.ctx = true := rfl
-- PwroffWithoutHandleOnlyWarns, CloseWithoutHandleDoesNothing.
theorem test_witness_no_handle : bare.ctx = false := rfl
-- SpiwrMakesOneTransaction, WrcWritesWithoutPinset: the largest and the smallest write.
theorem test_witness_transaction_full : (answers [false] ready).ctx = true ∧ 1 ≤ [1#8, 2#8, 3#8].length ∧ [1#8, 2#8, 3#8].length ≤ ready.cfg.chunk.val ∧
    (answers [false] ready).env.oks = false :: [] := by decide
theorem test_witness_transaction_one : (answers [true] ready).ctx = true ∧ 1 ≤ [1#8].length ∧ [1#8].length ≤ ready.cfg.chunk.val ∧
    (answers [true] ready).env.oks = true :: [] := by decide
-- OversizedWriteIsNeverIssued: no byte, and one byte more than CHUNK.
theorem test_witness_oversized_empty : ready.ctx = true ∧ ([] : List Byte).length = 0 := by decide
theorem test_witness_oversized_long : ready.ctx = true ∧ ready.cfg.chunk.val < [1#8, 2#8, 3#8, 4#8].length := by decide
-- CmdSetsCommandLevelThenWrites, DatSetsDataLevelThenWrites, PlainWireCommandsSendOneByte.
theorem test_witness_send : (answers [true] ready).ctx = true ∧ (answers [true] ready).env.oks = true :: [] := by decide
theorem test_witness_plain_command : (answers [true] ready).ctx = true ∧ (answers [true] ready).env.oks = true :: [] ∧
    (Instr.ramwr, small.opcRamwr) ∈ [(Instr.swreset, small.opcSwreset),
    (.slpout, small.opcSlpout), (.dispon, small.opcDispon), (.ramwr, small.opcRamwr)] := by decide
-- PrimitiveWithoutHandleMakesNoCall.
theorem test_witness_primitive_no_handle : bare.ctx = false ∧ (Instr.ramwr).format ≠ .host ∧ ∀ d, Instr.ramwr ≠ .delay d :=
  ⟨rfl, by decide, fun _ h => by cases h⟩
-- ModeWireCommandsSendOneParameter, WindowWireCommandsSendTwoParameters.
theorem test_witness_mode_command : (answers [true, true] ready).ctx = true ∧ (answers [true, true] ready).env.oks = true :: true :: [] ∧
    (Instr.madctl 0x60#8, small.opcMadctl) ∈ [(Instr.colmod 0x60#8, small.opcColmod), (.madctl 0x60#8, small.opcMadctl)] := by
  decide
theorem test_witness_window_command : (answers [true, true, true] ready).ctx = true ∧
    (answers [true, true, true] ready).env.oks = true :: true :: true :: [] ∧
    (Instr.caset 0#8 1#8, small.opcCaset) ∈ [(Instr.caset 0#8 1#8, small.opcCaset), (.paset 0#8 1#8, small.opcPaset)] := by
  decide
-- WireCommandStopsAtFailedWrite: the command byte fails, the last parameter fails.
theorem test_witness_wire_failure_first : (answers [false] ready).ctx = true ∧ wireFrameOf small (.caset 0#8 1#8) = some (small.opcCaset, [0#8, 1#8]) ∧
    0 ≤ [0#8, 1#8].length ∧ (answers [false] ready).env.oks = List.replicate 0 true ++ false :: [] := by decide
theorem test_witness_wire_failure_last : (answers [true, true, false] ready).ctx = true ∧
    wireFrameOf small (.caset 0#8 1#8) = some (small.opcCaset, [0#8, 1#8]) ∧
    2 ≤ [0#8, 1#8].length ∧ (answers [true, true, false] ready).env.oks = List.replicate 2 true ++ false :: [] := by decide
-- LoadPlacesTheFrame: both depths, with exactly enough bytes.
theorem test_witness_load_8 : (2#32).toInt = small.width.val ∧ (2#32).toInt = small.height.val ∧ (∃ d ∈ small.bppSet, 8#16 = d.setWidth 16) ∧
    frameLen small (8#16).toNat ≤ [1#8, 2#8, 3#8, 4#8].length := by decide
theorem test_witness_load_16 : (2#32).toInt = small.width.val ∧ (2#32).toInt = small.height.val ∧
    (∃ d ∈ small.bppSet, 16#16 = d.setWidth 16) ∧ frameLen small (16#16).toNat ≤ [1#8, 2#8, 3#8, 4#8, 5#8, 6#8, 7#8, 8#8].length := by decide
-- LoadRejectsOtherGeometry: each of the three conditions, one off.
theorem test_witness_load_width : (3#32).toInt ≠ small.width.val := by decide
theorem test_witness_load_height : (-2#32).toInt ≠ small.height.val := by decide
theorem test_witness_load_depth : ∀ d ∈ small.bppSet, 9#16 ≠ d.setWidth 16 := by decide
-- LoadRejectsTruncatedData: one byte short.
theorem test_witness_load_truncated : (2#32).toInt = small.width.val ∧ (2#32).toInt = small.height.val ∧
    (∃ d ∈ small.bppSet, 16#16 = d.setWidth 16) ∧ [1#8, 2#8, 3#8, 4#8, 5#8, 6#8, 7#8].length < frameLen small (16#16).toNat := by decide
-- ByteSwapIsItsOwnInverse.
theorem test_witness_swap : [1#8, 2#8, 3#8, 4#8].length % 2 = 0 ∧ 3 < [1#8, 2#8, 3#8, 4#8].length := by decide
-- OpenAcquiresTheHandle.
theorem test_witness_open : (answers [true, true, true, true] loaded).ctx = false ∧ loaded.fbv = true ∧
    (answers [true, true, true, true] loaded).env.oks = true :: true :: true :: true :: [] := by decide
-- OpenReleasesWhatItTookOnFailure: the first and the last acquisition.
theorem test_witness_open_fails_first : loaded.ctx = false ∧ loaded.fbv = true ∧ handleResources[0]? = some .spi ∧
    (answers [false] loaded).env.oks = List.replicate 0 true ++ false :: [] := by decide
theorem test_witness_open_fails_last : loaded.ctx = false ∧ loaded.fbv = true ∧ handleResources[3]? = some (.line .dc) ∧
    (answers [true, true, true, false] loaded).env.oks = List.replicate 3 true ++ false :: [] := by decide
-- InitBringsThePanelUp: power found off, and power found on.
theorem test_witness_init : opened.ctx = true ∧ opened.pstate = .poweredOff ∧ ¬ SettleRefused opened ∧
    (answers (List.replicate 7 true) opened).env.oks = List.replicate 7 true ++ [] :=
  ⟨rfl, rfl, fun h => absurd h.2.1 (by decide), rfl⟩
theorem test_witness_init_left_on : opened.ctx = true ∧ opened.pstate = .poweredOff ∧
    ¬ SettleRefused { answers (List.replicate 7 true) opened with lines := ⟨true, true, true⟩ } :=
  ⟨rfl, rfl, fun h => absurd rfl h.1⟩
-- InitRefusedWithinTheSettleTime: one unit short.
theorem test_witness_init_refused : opened.ctx = true ∧ opened.pstate = .poweredOff ∧
    SettleRefused { opened with cfg := { small with settlePolicy := .refuse }, toff := some 0, now := 1499 } :=
  ⟨rfl, rfl, by decide, rfl, 0, rfl, by decide⟩
-- InitFailureLeavesItsPhase: the soft reset fails, and the last write fails.
theorem test_witness_init_fails_first : opened.ctx = true ∧ opened.pstate = .poweredOff ∧
    ¬ SettleRefused (answers [false] opened) ∧
    (Send.cmd small.opcSwreset :: initSends small)[0]? = some (.cmd small.opcSwreset) ∧
    (answers [false] opened).env.oks = List.replicate 0 true ++ false :: [] :=
  ⟨rfl, rfl, fun h => absurd h.2.1 (by decide), rfl, rfl⟩
theorem test_witness_init_fails_last : opened.ctx = true ∧ opened.pstate = .poweredOff ∧
    ¬ SettleRefused (answers (List.replicate 6 true ++ [false]) opened) ∧
    (Send.cmd small.opcSwreset :: initSends small)[6]? = some (.cmd small.opcDispon) ∧
    (answers (List.replicate 6 true ++ [false]) opened).env.oks = List.replicate 6 true ++ false :: [] :=
  ⟨rfl, rfl, fun h => absurd h.2.1 (by decide), rfl, rfl⟩
-- InitKeepsTheMinimumDelays: an INIT that ends OK.
theorem test_witness_init_delays : opened.ctx = true ∧ opened.pstate = .poweredOff ∧ small.rstLow ≠ small.rstHigh ∧
    ∃ t, exec .init (answers (List.replicate 7 true) opened) = .next t ∧ t.status = .ok :=
  ⟨rfl, rfl, by decide, _, rfl, by decide⟩
-- CloseReleasesTheHandle: both values of PERSIST.
theorem test_witness_close_persist : ready.ctx = true ∧ ready.cfg.persist = true := by decide
theorem test_witness_close_no_persist : ready.ctx = true ∧ { ready with cfg := { small with persist := false } }.cfg.persist = false ∧
    ready.env.levels = true :: false :: true :: [] := by decide
-- SetwinProgramsTheWindow, SetwinAgreesWithDcsInFourByteForm: the far corner.
theorem test_witness_setwin : ready.ctx = true ∧ ready.pstate = .ready ∧ (1#8).toNat < small.width.val ∧
    (1#8).toNat < small.height.val ∧ (answers (List.replicate 6 true) ready).env.oks = List.replicate 6 true ++ [] := by decide
-- SetwinStopsAtFailedWrite: the first and the last write.
theorem test_witness_setwin_fails_first : ready.ctx = true ∧ ready.pstate = .ready ∧ (1#8).toNat < small.width.val ∧
    (0#8).toNat < small.width.val ∧ (1#8).toNat < small.height.val ∧ (0#8).toNat < small.height.val ∧
    (windowSends small 0#8 0#8 1#8 1#8)[0]? = some (.cmd small.opcCaset) ∧
    (answers [false] ready).env.oks = List.replicate 0 true ++ false :: [] := by decide
theorem test_witness_setwin_fails_last : ready.ctx = true ∧ ready.pstate = .ready ∧ (1#8).toNat < small.width.val ∧
    (0#8).toNat < small.width.val ∧ (1#8).toNat < small.height.val ∧ (0#8).toNat < small.height.val ∧
    (windowSends small 0#8 0#8 1#8 1#8)[5]? = some (.dat 1#8) ∧
    (answers (List.replicate 5 true ++ [false]) ready).env.oks = List.replicate 5 true ++ false :: [] := by decide
-- SetwinRejectsCoordinatesOffThePanel: one past the panel.
theorem test_witness_setwin_off_panel : ready.ctx = true ∧ ready.pstate = .ready ∧ small.width.val ≤ (2#8).toNat ∧ small.height.val ≤ (2#8).toNat := by decide
-- CoordinateFilterKeepsTheLowBytes: four bytes, five bytes, another command.
theorem test_witness_filter : (0x2B#8 = small.opcCaset ∨ 0x2B#8 = small.opcPaset) ∧ [1#8, 2#8, 3#8, 4#8, 5#8].length ≠ 4 ∧
    0x2C#8 ≠ small.opcCaset ∧ 0x2C#8 ≠ small.opcPaset := by decide
-- DcsSendsTheFilteredFrame: four bytes filtered to two, and no payload.
theorem test_witness_dcs : ready.ctx = true ∧ ready.pstate = .ready ∧ (answers (List.replicate 3 true) ready).env.oks =
    List.replicate ((coordFilter small 0x2A#8 [0#8, 0#8, 0#8, 1#8]).length + 1) true ++ [] := by decide
theorem test_witness_dcs_bare : ready.ctx = true ∧ ready.pstate = .ready ∧ (answers [true] ready).env.oks =
    List.replicate ((coordFilter small 0x2C#8 []).length + 1) true ++ [] := by decide
-- DcsStopsAtFailedWrite: the command and the last byte.
theorem test_witness_dcs_fails_first : ready.ctx = true ∧ ready.pstate = .ready ∧ 0 ≤ (coordFilter small 0x2C#8 []).length ∧
    (answers [false] ready).env.oks = List.replicate 0 true ++ false :: [] := by decide
theorem test_witness_dcs_fails_last : ready.ctx = true ∧ ready.pstate = .ready ∧
    2 ≤ (coordFilter small 0x2A#8 [0#8, 0#8, 0#8, 1#8]).length ∧
    (answers [true, true, false] ready).env.oks = List.replicate 2 true ++ false :: [] := by decide
-- FramewrStreamsTheFrame, FramewrHoldsTheSelectLine.
theorem test_witness_framewr : ready.ctx = true ∧ ready.pstate = .ready ∧ ready.fbv = true ∧ ready.len.toNat ≤ fbSize small ∧
    (answers [true, true, true] ready).env.oks = List.replicate (chunkCount small ready.len.toNat + 1) true ++ [] := by decide
theorem test_witness_framewr_next : ready.ctx = true ∧ ready.pstate = .ready ∧ ready.fbv = true ∧
    ∃ t, exec .framewr (answers [true, false] ready) = .next t := ⟨rfl, rfl, rfl, _, rfl⟩
-- FramewrCountsTheChunksBeforeAFailure: the last chunk; FramewrWithoutItsCommandSendsNothing.
theorem test_witness_framewr_fails : ready.ctx = true ∧ ready.pstate = .ready ∧ ready.fbv = true ∧
    ready.len.toNat ≤ fbSize small ∧ 1 < chunkCount small ready.len.toNat ∧
    (answers [true, true, false] ready).env.oks = List.replicate (1 + 1) true ++ false :: [] := by decide
theorem test_witness_framewr_no_command : ready.ctx = true ∧ ready.pstate = .ready ∧ ready.fbv = true ∧
    (answers [false] ready).env.oks = false :: [] := by decide
-- FramewrStopsAtTheEndOfTheArray: one byte past the array.
theorem test_witness_framewr_past_array : ready.ctx = true ∧ ready.pstate = .ready ∧ ready.fbv = true ∧
    fbSize small < ({ ready with len := 9#32 }).len.toNat ∧
    (answers (List.replicate 4 true) { ready with len := 9#32 }).env.oks = List.replicate (chunkCount small (9#32).toNat + 1) true ++ [] := by decide
-- ChunksCoverTheFrameOnce: the last chunk.
theorem test_witness_chunks : 737 < chunkCount Config.default 46464 := by decide
-- LoadedImageReachesTheWire.
theorem test_witness_image : ready.ctx = true ∧ ready.pstate = .ready ∧ imageValid small 2#32 2#32 16#16 = true ∧
    frameLen small (16#16).toNat ≤ [1#8, 2#8, 3#8, 4#8, 5#8, 6#8, 7#8, 8#8].length ∧
    (answers (List.replicate 4 true) ready).env.oks =
      List.replicate (chunkCount small (frameLen small (16#16).toNat) + 1) true ++ [] := by decide
-- RefusedOperationsChangeOnlyTheStatus: a state for each way to miss each clause.
theorem test_witness_refused : (opened.ctx = true ∨ opened.fbv = false) ∧ (bare.ctx = true ∨ bare.fbv = false) ∧
    (ready.ctx = false ∨ ready.pstate ≠ .poweredOff) ∧ (opened.ctx = false ∨ opened.pstate ≠ .ready) ∧
    (({ ready with fbv := false }).ctx = false ∨ ({ ready with fbv := false }).pstate ≠ .ready ∨
      ({ ready with fbv := false }).fbv = false) := by decide
-- EveryInstructionReturns: a valid frame, a full write; and no valid frame with a `LEN` past the array.
theorem test_witness_returns_no_frame : bare.seq = 0#5 ∧
    (({ bare with len := 9#32 }).fbv = true → ({ bare with len := 9#32 }).len.toNat ≤ fbSize bare.cfg) := by decide
theorem test_witness_returns : ready.seq = 0#5 ∧ (ready.fbv = true → ready.len.toNat ≤ fbSize ready.cfg) ∧
    ∀ bytes, Instr.wrc [1#8, 2#8, 3#8] = .spiwr bytes ∨ Instr.wrc [1#8, 2#8, 3#8] = .wrc bytes →
      1 ≤ bytes.length ∧ bytes.length ≤ ready.cfg.chunk.val := by
  refine ⟨rfl, by decide, ?_⟩
  rintro bytes (h | h) <;> cases h
  decide
-- ShowEndsWithoutAHandle: a file with a header and no more.
theorem test_witness_show : bare.ctx = false ∧ 0x1E ≤ (List.replicate 0x1E 0#8).length := by decide
-- UnknownOperationIsAUsageError: 0 and 9.
theorem test_witness_unknown_zero : (asked [.host [0x00#8]] bare).requests = .host (0x00#8 :: []) :: [] ∧
    (0x00#8 = 0#8 ∨ 8 < (0x00#8).toNat) := by decide
theorem test_witness_unknown_nine : (asked [.host [0x09#8]] bare).requests = .host (0x09#8 :: []) :: [] ∧
    (0x09#8 = 0#8 ∨ 8 < (0x09#8).toNat) := by decide
-- StepRunsTheDecodedInstruction.
theorem test_witness_step : (asked [.host [0x06#8]] ready).requests = .host [0x06#8] :: [] ∧
    decode small (.host [0x06#8]) = .ok .pwroff := ⟨rfl, rfl⟩
-- IdleStepOnlyLetsTimePass.
theorem test_witness_idle : ready.requests = [] := rfl
-- DecodeReadsBackWhatEncodeWrote.
theorem test_witness_encode : Config.default.codesDistinct = true ∧ wellFormed Config.default (.cmd 0xB1#8) = true := by decide
-- ReceiverReadsBackTheCommandFrames: distinct levels; a wire command, a DCS and a SETWIN with all writes granted.
theorem test_witness_receiver : small.dcCmd ≠ small.dcData := by decide
theorem test_witness_receiver_wire : ready.ctx = true ∧ wireFrameOf small (.caset 0#8 1#8) = some (small.opcCaset, [0#8, 1#8]) ∧
    (answers [true, true, true] ready).env.oks = List.replicate ([0#8, 1#8].length + 1) true ++ [] := by decide
theorem test_receiver_symbols : wireSymbols (fun _ => 0) (after (exec (.caset 0#8 1#8) (answers [true, true, true] ready))).trace =
    [0b000101010#9, 0b100000000#9, 0b100000001#9] := by decide

/-- The frame of `loaded` is whole. -/
theorem loaded_frame (s : State) (hb : s.bpp = 8#5) (hl : s.len = 4#32) (hc : s.cfg = small) (hf : s.fb = loaded.fb) :
    FrameValid s := by
  refine ⟨by rw [hb, hc]; decide, by rw [hb, hl, hc]; decide, ?_⟩
  intro a
  rw [hl, hf]
  simp only [Memory.read?, loaded, cellAt, BitVec.toNat_ofNat]
  split_ifs <;> simp <;> omega

-- StepKeepsTheStateInvariant: a Ready panel with a valid frame, asked to send it.
theorem test_witness_invariant : Inv (asked [.host [0x05#8]] (answers [true, true, true] ready)) ∧
    ∃ t, step (asked [.host [0x05#8]] (answers [true, true, true] ready)) = .next t := by
  refine ⟨⟨rfl, by decide, fun _ => loaded_frame _ rfl rfl rfl rfl, by decide, ?_, by simp [asked, answers, ready, opened,
    loaded, bare], by decide, .inl rfl⟩, _, rfl⟩
  intro a h
  have := (loaded_frame (asked [.host [0x05#8]] (answers [true, true, true] ready)) rfl rfl rfl rfl).filled a
  exact lt_of_lt_of_le (this.1 h) (by decide)

/-- A panel powered off at 100 and on again at 1600, exactly `T_SETTLE` later. -/
def cycled : State :=
  { opened with toff := some 100, now := 2000, trace := [.pinSet .pwr false 100, .pinSet .pwr true 1600],
                requests := [.host [0x06#8]] }

-- HostStepKeepsPowerSettled.
theorem test_witness_settled : PowerInv cycled ∧ ∃ t, step cycled = .next t := by
  refine ⟨⟨?_, by decide, ?_, ?_, ?_⟩, _, rfl⟩
  · intro r h
    simp [cycled] at h
    subst h
    rfl
  · intro t h
    simp [cycled] at h
    subst h
    decide
  · intro t' h
    refine ⟨100, rfl, ?_⟩
    simp only [cycled, List.mem_cons, List.not_mem_nil, or_false] at h
    rcases h with h | h <;> cases h
    exact le_refl _
  · intro before after t t' h hm
    simp only [cycled, opened, loaded, bare] at h hm ⊢
    rcases before with _ | ⟨a, _ | ⟨b, _ | ⟨c, bs⟩⟩⟩
    · simp at hm
    · simp only [List.cons_append, List.nil_append, List.cons.injEq, List.mem_cons, List.not_mem_nil, or_false] at h hm
      obtain ⟨rfl, h2, -⟩ := h
      cases hm
      cases h2
      decide
    · simp at h
    · simp at h

-- StepKeepsTheTraceClock, StepKeepsWritesWithinTheChunk, StepOnlyAppends.
theorem test_witness_clock : clockOk 0 cycled.now cycled.trace = true ∧ ∃ t, step cycled = .next t := ⟨by decide, _, rfl⟩
theorem test_witness_writes : (∀ e ∈ ({ ready with trace := [Event.spiWrite true [1#8, 2#8, 3#8] true 5] }).trace,
    writeSized ready.cfg e = true) ∧ ∃ t, step { ready with trace := [Event.spiWrite true [1#8, 2#8, 3#8] true 5] } = .next t :=
  ⟨by decide, _, rfl⟩
-- RegistersHaveOnlyTheirWriters, PanelStateMovesOnlyAlongItsTransitions: an INIT that ends Ready.
theorem test_witness_writers : ∃ t, exec .init (answers (List.replicate 7 true) opened) = .next t ∧
    t.pstate ≠ (answers (List.replicate 7 true) opened).pstate := ⟨_, rfl, by decide⟩

/-- The requests of a host that loads a wrong image and then opens. -/
def wrongImage : State :=
  asked [.host [0x01#8, 3#8, 0#8, 0#8, 0#8, 2#8, 0#8, 0#8, 0#8, 8#8, 0#8, 0#8, 0#8, 0#8, 0#8], .host [0x02#8]] bare

-- NoPlatformCallBeforeAValidImage.
theorem test_witness_no_image : wrongImage.ctx = false ∧ wrongImage.fbv = false ∧ HostOnly wrongImage ∧
    (∀ r ∈ wrongImage.requests, ∀ i, decode wrongImage.cfg r = .ok i → loadSucceeds wrongImage.cfg i = false) ∧
    ∃ t, core.run 2 wrongImage = .next t := by
  refine ⟨rfl, rfl, ?_, ?_, _, rfl⟩
  · intro r h
    simp [wrongImage, asked] at h
    rcases h with rfl | rfl <;> rfl
  · intro r h i hi
    simp only [wrongImage, asked, List.mem_cons, List.not_mem_nil, or_false] at h
    rcases h with rfl | rfl
    · have : i = .load 3#32 2#32 8#16 [] := by cases hi; rfl
      subst this
      decide
    · have : i = .openBus := by cases hi; rfl
      subst this
      rfl

end Sys2Proof.Tests
end

section
/-! PROOFS. What a step does with a waiting request (spec/00_scope.md R9, spec/70_reset_and_hazards.md R134). -/

namespace Sys2Proof.Machine

/-- Taking a request removes it from the list and lets time pass; the drawn time is that of the state before. -/
theorem taken_eq (rest : List Request) (s : State) :
    taken rest s = { s with requests := rest, now := s.now + s.env.lag, env := s.env.afterLag } := rfl

/-- A waiting request that decodes is taken and its instruction run: the branch of `step` that runs `exec`. -/
theorem step_of_decode_ok {s : State} {r : Request} {rest : List Request} {i : Instr}
    (hreq : s.requests = r :: rest) (hdec : decode s.cfg r = .ok i) : step s = exec i (taken rest s) := by
  simp only [step, hreq, hdec]

/-- Settles O46: the branch of `step` for a request that decodes, with the taken state written out. -/
theorem stepRunsTheDecodedInstruction : Obligations.StepRunsTheDecodedInstruction := by
  intro s r rest i hreq hdec
  rw [step_of_decode_ok hreq hdec, taken_eq]

end Sys2Proof.Machine
end

section
/-! PROOFS. What each instruction may write (spec/10_state.md R12). A footprint names the parts of the state that a kind of
run writes; `Effect` is the column "written by" of R12, with the values written where an invariant needs them. -/

namespace Sys2Proof.Machine

open Sys2Proof.Safety

/-! ## The footprint of sends -/

/-- `u` is `s` after sends: the select line, the trace, the time and `SEQ` are all that may have changed (R71, R72). -/
def SendsOnly (s u : State) : Prop :=
  ∃ d tr n e q, u = { s with lines := { s.lines with dc := d }, trace := tr, now := n, env := e, seq := q }

theorem SendsOnly.refl (s : State) : SendsOnly s s := ⟨_, _, _, _, _, rfl⟩

theorem SendsOnly.seq {s u : State} (h : SendsOnly s u) (q : BitVec 5) : SendsOnly s { u with seq := q } := by
  obtain ⟨d, tr, n, e, q', rfl⟩ := h
  exact ⟨_, _, _, _, _, rfl⟩

theorem SendsOnly.pinset {s u : State} (h : SendsOnly s u) (v : Level) : SendsOnly s (pinset .dc v u) := by
  obtain ⟨d, tr, n, e, q, rfl⟩ := h
  exact ⟨_, _, _, _, _, rfl⟩

theorem SendsOnly.spiwr {s u : State} (h : SendsOnly s u) (bytes : List Byte) : SendsOnly s (spiwr bytes u).2 := by
  obtain ⟨d, tr, n, e, q, rfl⟩ := h
  exact ⟨_, _, _, _, _, rfl⟩

theorem SendsOnly.send {s u : State} (h : SendsOnly s u) (x : Send) : (sendStep x u).Holds (SendsOnly s) :=
  sendStep_holds (fun v _ h => h.pinset v) (fun b _ h => h.spiwr [b]) x u h

theorem SendsOnly.frame {s u : State} (h : SendsOnly s u) (opcode : Byte) (ps : List Byte) :
    (sendFrame opcode ps u).Holds (SendsOnly s) :=
  sendFrame_holds (fun v _ h => h.pinset v) (fun b _ h => h.spiwr [b]) opcode ps u h

/-- A send of its own keeps `SEQ` as well: only a host operation numbers its steps (R19). -/
theorem sendStep_sendsOnly (x : Send) (s : State) : (sendStep x s).Holds fun u => SendsOnly s u ∧ u.seq = s.seq :=
  sendStep_holds (fun v _ ⟨h, hq⟩ => ⟨h.pinset v, hq⟩) (fun b _ ⟨h, hq⟩ => ⟨h.spiwr [b], hq⟩) x s ⟨.refl s, rfl⟩

theorem sendFrame_sendsOnly (opcode : Byte) (ps : List Byte) (s : State) :
    (sendFrame opcode ps s).Holds fun u => SendsOnly s u ∧ u.seq = s.seq :=
  sendFrame_holds (fun v _ ⟨h, hq⟩ => ⟨h.pinset v, hq⟩) (fun b _ ⟨h, hq⟩ => ⟨h.spiwr [b], hq⟩) opcode ps s ⟨.refl s, rfl⟩

/-! ## The footprint of FRAMEWR -/

/-- `u` is `s` after steps of FRAMEWR: besides what sends write, `OFF` and `COUNT`, which then agree and stay within the
array `FB` (R18, R20, R101). -/
def StreamsOnly (s u : State) : Prop :=
  ∃ d tr n e q o c,
    u = { s with lines := { s.lines with dc := d }, trace := tr, now := n, env := e, seq := q, off := o, count := c } ∧
    ((o = s.off ∧ c = s.count) ∨ (o = c ∧ c.toNat ≤ fbSize s.cfg))

theorem StreamsOnly.refl (s : State) : StreamsOnly s s := ⟨_, _, _, _, _, _, _, rfl, .inl ⟨rfl, rfl⟩⟩

theorem StreamsOnly.seq {s u : State} (h : StreamsOnly s u) (q : BitVec 5) : StreamsOnly s { u with seq := q } := by
  obtain ⟨d, tr, n, e, q', o, c, rfl, hoc⟩ := h
  exact ⟨_, _, _, _, _, _, _, rfl, hoc⟩

theorem StreamsOnly.pinset {s u : State} (h : StreamsOnly s u) (v : Level) : StreamsOnly s (pinset .dc v u) := by
  obtain ⟨d, tr, n, e, q, o, c, rfl, hoc⟩ := h
  exact ⟨_, _, _, _, _, _, _, rfl, hoc⟩

theorem StreamsOnly.spiwr {s u : State} (h : StreamsOnly s u) (bytes : List Byte) : StreamsOnly s (spiwr bytes u).2 := by
  obtain ⟨d, tr, n, e, q, o, c, rfl, hoc⟩ := h
  exact ⟨_, _, _, _, _, _, _, rfl, hoc⟩

theorem StreamsOnly.cfg {s u : State} (h : StreamsOnly s u) : u.cfg = s.cfg := by
  obtain ⟨d, tr, n, e, q, o, c, rfl, -⟩ := h
  rfl

theorem StreamsOnly.resetTransfer {s u : State} (h : StreamsOnly s u) : StreamsOnly s (resetTransfer u) := by
  obtain ⟨d, tr, n, e, q, o, c, rfl, -⟩ := h
  exact ⟨_, _, _, _, _, _, _, rfl, .inr ⟨rfl, Nat.zero_le _⟩⟩

/-- `OFF` and `COUNT` advance together, and no further than the access check of the chunk allows. -/
theorem StreamsOnly.advance {s u : State} (h : StreamsOnly s u) {n : Nat} (hn : u.off.toNat + n ≤ fbSize u.cfg) :
    StreamsOnly s (advance n u) := by
  rw [h.cfg] at hn
  obtain ⟨d, tr, t, e, q, o, c, rfl, -⟩ := h
  refine ⟨_, _, _, _, _, _, _, rfl, .inr ⟨rfl, ?_⟩⟩
  exact (BitVec.toNat_ofNat _ _).trans_le ((Nat.mod_le _ _).trans hn)

theorem StreamsOnly.chunkLoop {s u : State} (h : StreamsOnly s u) (k : Nat) : (chunkLoop k u).Holds (StreamsOnly s) :=
  chunkLoop_holds (fun _ h _ _ => h.spiwr _) (fun v h _ hn => (h.spiwr (nextChunk v)).advance hn) k u h

theorem frameSteps_streamsOnly (s : State) : (runFrom 1 (frameSteps s.cfg) s).Holds (StreamsOnly s) := by
  refine runFrom_holds (fun _ q h => h.seq q) _ ?_ 1 s (.refl s)
  intro f hf u hu
  simp only [frameSteps, List.mem_cons, List.not_mem_nil, or_false] at hf
  rcases hf with rfl | rfl | rfl | rfl
  · exact hu.resetTransfer
  · exact sendStep_holds (fun v _ h => h.pinset v) (fun b _ h => h.spiwr [b]) (.cmd _) u hu
  · exact hu.pinset _
  · exact hu.chunkLoop _

/-! ## The footprint of INIT and PWROFF -/

/-- `u` is `s` after steps of INIT or PWROFF: the lines, the trace, the time, `SEQ`, `PSTATE` and `TOFF`, which takes a value
that `NOW` has had (R23, R91, R96). -/
def SequencesOnly (s u : State) : Prop :=
  ∃ ls tr n e q p o,
    u = { s with lines := ls, trace := tr, now := n, env := e, seq := q, pstate := p, toff := o } ∧
    (o = s.toff ∨ ∃ x, o = some x ∧ x ≤ n)

theorem SequencesOnly.refl (s : State) : SequencesOnly s s := ⟨_, _, _, _, _, _, _, rfl, .inl rfl⟩

/-- Steps that let time pass and write nothing but lines, the trace, `SEQ` and `PSTATE` stay inside the footprint. -/
theorem SequencesOnly.later {s u : State} (h : SequencesOnly s u) (ls : Lines) (tr : List Event) {n : Nat} (hn : u.now ≤ n)
    (e : Env) (q : BitVec 5) (p : PanelState) :
    SequencesOnly s { u with lines := ls, trace := tr, now := n, env := e, seq := q, pstate := p } := by
  obtain ⟨_, _, _, _, _, _, o, rfl, ho⟩ := h
  exact ⟨_, _, _, _, _, _, _, rfl, ho.imp_right fun ⟨x, hx, hle⟩ => ⟨x, hx, hle.trans hn⟩⟩

theorem SequencesOnly.seq {s u : State} (h : SequencesOnly s u) (q : BitVec 5) : SequencesOnly s { u with seq := q } :=
  h.later _ _ le_rfl _ _ _

theorem SequencesOnly.pinset {s u : State} (h : SequencesOnly s u) (l : Line) (v : Level) :
    SequencesOnly s (pinset l v u) :=
  h.later _ _ (Nat.le_add_right _ _) _ _ _

theorem SequencesOnly.pinget {s u : State} (h : SequencesOnly s u) (l : Line) : SequencesOnly s (pinget l u).2 :=
  h.later _ _ (Nat.le_add_right _ _) _ _ _

theorem SequencesOnly.delay {s u : State} (h : SequencesOnly s u) (d : Nat) : SequencesOnly s (delay d u) :=
  h.later _ _ ((Nat.le_add_right _ _).trans (Nat.le_add_right _ _)) _ _ _

theorem SequencesOnly.spiwr {s u : State} (h : SequencesOnly s u) (bytes : List Byte) :
    SequencesOnly s (spiwr bytes u).2 :=
  h.later _ _ (Nat.le_add_right _ _) _ _ _

theorem SequencesOnly.setPstate {s u : State} (h : SequencesOnly s u) (p : PanelState) :
    SequencesOnly s (setPstate p u) :=
  h.later _ _ (Nat.le_add_right _ _) _ _ _

theorem SequencesOnly.send {s u : State} (h : SequencesOnly s u) (x : Send) : (sendStep x u).Holds (SequencesOnly s) :=
  sendStep_holds (fun v _ h => h.pinset .dc v) (fun b _ h => h.spiwr [b]) x u h

/-- `TOFF <- NOW` (R97). -/
theorem SequencesOnly.stampOff {s u : State} (h : SequencesOnly s u) : SequencesOnly s { u with toff := some u.now } := by
  obtain ⟨_, _, _, _, _, _, _, rfl, -⟩ := h
  exact ⟨_, _, _, _, _, _, _, rfl, .inr ⟨_, rfl, le_rfl⟩⟩

theorem SequencesOnly.settle {s u : State} (h : SequencesOnly s u) (c : Cfg) : (settleStep c u).Holds (SequencesOnly s) := by
  unfold settleStep
  split
  · exact h
  · split
    · split
      · exact h.delay _
      · exact h
    · exact h

theorem poweroffPins_sequencesOnly (c : Cfg) {s : State} :
    ∀ f ∈ poweroffPins c, ∀ u, SequencesOnly s u → (f u).Holds (SequencesOnly s) := by
  intro f hf u hu
  simp only [poweroffPins, List.mem_cons, List.not_mem_nil, or_false] at hf
  rcases hf with rfl | rfl | rfl
  · exact hu.stampOff.pinset _ _
  · exact hu.pinset _ _
  · exact hu.pinset _ _

theorem bringUpSteps_sequencesOnly (c : Cfg) {s : State} :
    ∀ f ∈ bringUpSteps c, ∀ u, SequencesOnly s u → (f u).Holds (SequencesOnly s) := by
  simp only [bringUpSteps, List.forall_mem_cons]
  exact ⟨fun _ h => h.setPstate _, fun _ h => h.pinset _ _, fun _ h => h.pinset _ _, fun _ h => h.delay _,
    fun _ h => h.pinset _ _, fun _ h => h.send (.cmd _), fun _ h => h.setPstate _, fun _ h => h.delay _,
    fun _ h => h.send (.cmd _), fun _ h => h.send (.dat _), fun _ h => h.send (.cmd _), fun _ h => h.send (.cmd _),
    fun _ h => h.send (.dat _), fun _ h => h.send (.cmd _), fun _ h => h.delay _, fun _ h => h.setPstate _, nofun⟩

theorem SequencesOnly.run {s u : State} (h : SequencesOnly s u) {fs : List Step}
    (hf : ∀ f ∈ fs, ∀ v, SequencesOnly s v → (f v).Holds (SequencesOnly s)) (k : Nat) :
    (runFrom k fs u).Holds (SequencesOnly s) :=
  runFrom_holds (fun _ q h => h.seq q) fs hf k u h

theorem initRun_sequencesOnly (s : State) : (initRun s).Holds (SequencesOnly s) := by
  have hread : SequencesOnly s (pinget .pwr { s with seq := 1#5 }).2 := ((SequencesOnly.refl s).seq _).pinget _
  unfold initRun afterPowerRead
  refine Res.holds_andThen (P := SequencesOnly s) ?_ (fun _ h => h) fun u hu => hu.run (bringUpSteps_sequencesOnly _) 7
  split
  · refine hread.run ?_ 2
    intro f hf u hu
    rcases List.mem_append.1 hf with hf | hf
    · exact poweroffPins_sequencesOnly _ f hf u hu
    · obtain rfl := List.mem_singleton.1 hf
      exact hu.delay _
  · refine hread.run ?_ 6
    intro f hf u hu
    obtain rfl := List.mem_singleton.1 hf
    exact hu.settle _

/-! ## The footprint of OPEN and CLOSE -/

/-- `u` is `s` after platform calls that drive no line: the trace, the time and `SEQ` (R90, R98). -/
def CallsOnly (s u : State) : Prop :=
  ∃ tr n e q, u = { s with trace := tr, now := n, env := e, seq := q }

theorem CallsOnly.refl (s : State) : CallsOnly s s := ⟨_, _, _, _, rfl⟩

theorem CallsOnly.seq {s u : State} (h : CallsOnly s u) (q : BitVec 5) : CallsOnly s { u with seq := q } := by
  obtain ⟨tr, n, e, q', rfl⟩ := h
  exact ⟨_, _, _, _, rfl⟩

theorem CallsOnly.call {s u : State} (h : CallsOnly s u) (ev : Event) : CallsOnly s (platformCall ev u) := by
  obtain ⟨tr, n, e, q, rfl⟩ := h
  exact ⟨_, _, _, _, rfl⟩

theorem CallsOnly.calls {s u : State} (h : CallsOnly s u) (es : List Event) : CallsOnly s (platformCalls es u) :=
  platformCalls_holds es (fun ev _ _ h => h.call ev) u h

theorem CallsOnly.acquire {s u : State} (h : CallsOnly s u) (c : Cfg) (got : List Resource) (r : Resource) :
    (acquireStep c got r u).Holds (CallsOnly s) := by
  have ha : CallsOnly s (Machine.acquire r u).2 := by
    obtain ⟨tr, n, e, q, rfl⟩ := h
    exact ⟨_, _, _, _, rfl⟩
  rw [acquireStep_eq]
  split
  · exact ha.calls _
  · exact ha.calls _

theorem openSteps_callsOnly (c : Cfg) (s : State) : (runFrom 1 (openSteps c) s).Holds (CallsOnly s) := by
  refine runFrom_holds (fun _ q h => h.seq q) _ ?_ 1 s (.refl s)
  simp only [openSteps, List.forall_mem_cons]
  exact ⟨fun _ h => h.acquire _ _ _, fun _ h => h.acquire _ _ _, fun _ h => h.acquire _ _ _, fun _ h => h.acquire _ _ _, nofun⟩

theorem closeSteps_callsOnly (s : State) : (runFrom 1 closeSteps s).Holds (CallsOnly s) := by
  refine runFrom_holds (fun _ q h => h.seq q) _ ?_ 1 s (.refl s)
  simp only [closeSteps, List.forall_mem_cons]
  exact ⟨fun _ h => h.call _, fun _ h => h.call _, fun _ h => h.call _, fun _ h => h.call _, nofun⟩

end Sys2Proof.Machine
end

section
/-! PROOFS. The frame LOAD leaves (spec/44_image_source_adapter.md R107 to R109) is whole: the register part of R15 to R17 and
R35. -/

namespace Sys2Proof.Machine

open Sys2Proof.Safety

/-- What the state invariant asks of `FBV`, `BPP`, `LEN` and `FB` together (R15 to R17, R35). -/
structure FrameSound (s : State) : Prop where
  valid : s.fbv = true → FrameValid s
  canonical : s.fb.wf = true
  inArray : ∀ a, (s.fb.read? a).isSome = true → a < fbSize s.cfg

theorem length_swap16 (bytes : List Byte) : (swap16 bytes).length = bytes.length := by
  induction bytes using swap16.induct with
  | case1 b0 b1 rest ih => simp [swap16, ih]
  | case2 rest h => rw [swap16.eq_2 rest h]

/-- A source that is long enough gives a frame of the length of its depth (R108, R109). -/
theorem length_frameOf {c : Cfg} {bpp : Word16} {src : List Byte} (h : frameLen c bpp.toNat ≤ src.length) :
    (frameOf c bpp src).length = frameLen c bpp.toNat := by
  unfold frameOf
  split
  · rw [length_swap16, List.length_take, min_eq_left h]
  · rw [List.length_take, min_eq_left h]

/-- After a LOAD that passed its checks exactly the addresses below the frame length hold a value. -/
theorem loadFrame_filled {bpp : Word16} {src : List Byte} {s : State} (hn : frameLen s.cfg bpp.toNat ≤ src.length) (a : Nat) :
    ((loadFrame bpp src s).fb.read? a).isSome = true ↔ a < frameLen s.cfg bpp.toNat := by
  have hlen := length_frameOf hn
  simp only [loadFrame, Memory.read?_fillFrom _ _ _ _ (Memory.wf_unspecified _), Memory.read?_unspecified, hlen,
    Nat.zero_le, true_and, Nat.zero_add, Nat.sub_zero]
  split
  · simp [hlen]
  · next hge => simpa using hge

/-- The register `LEN` holds the frame length without loss. -/
theorem toNat_frameLen (c : Cfg) (bpp : Nat) : (BitVec.ofNat 32 (frameLen c bpp)).toNat = frameLen c bpp := by
  have := frameLen_le_fbSize c bpp
  have := fbSize_le c
  simp only [BitVec.toNat_ofNat]
  omega

/-- A LOAD that passed its checks leaves a valid frame: a legal depth fits the register `BPP`. -/
theorem loadFrame_frameSound {w h : Word32} {bpp : Word16} {src : List Byte} {s : State}
    (hv : imageValid s.cfg w h bpp = true) (hn : frameLen s.cfg bpp.toNat ≤ src.length) :
    FrameSound (loadFrame bpp src s) := by
  obtain ⟨-, -, d, hd, rfl⟩ := (imageValid_iff _ _ _ _).1 hv
  have hdepth : (d.setWidth 16).setWidth 5 = d := by simp
  refine ⟨fun _ => ⟨?_, ?_, fun a => ?_⟩, Memory.wf_fillFrom _ _ _ (Memory.wf_unspecified _), fun a ha => ?_⟩
  · simp only [loadFrame, hdepth]
    exact hd
  · have hnat : (d.setWidth 16).toNat = d.toNat := by simp; omega
    simp only [loadFrame, toNat_frameLen, hdepth, hnat]
  · rw [loadFrame_filled hn]
    simp only [loadFrame, toNat_frameLen]
  · exact ((loadFrame_filled hn a).1 ha).trans_le (frameLen_le_fbSize _ _)

theorem FrameSound.complete {s : State} (h : FrameSound s) : FrameSound (complete s) :=
  ⟨fun hv => ⟨(h.valid hv).depth, (h.valid hv).length, (h.valid hv).filled⟩, h.canonical, h.inArray⟩

end Sys2Proof.Machine
end

section
/-! PROOFS. The effect of each instruction on the registers: the column "written by" of the table of R12, with the values
that the state invariant needs. -/

namespace Sys2Proof.Machine

open Sys2Proof.Safety

/-- What the step from `s` to `t` by instruction `i` may have written. Each field says that a part of the state is kept or
who wrote it; where a proof leaves a field out, the part is kept. -/
structure Effect (i : Instr) (s t : State) : Prop where
  cfg : t.cfg = s.cfg := by rfl
  requests : t.requests = s.requests := by rfl
  pstate : t.pstate = s.pstate ∨ (i = .init ∧ t.ctx = true) ∨ ((i = .pwroff ∨ i = .close) ∧ t.pstate = .poweredOff) := by
    exact .inl rfl
  ctx : t.ctx = s.ctx ∨ (i = .openBus ∧ t.ctx = true) ∨ (i = .close ∧ t.pstate = .poweredOff) := by exact .inl rfl
  frame : (t.bpp = s.bpp ∧ t.len = s.len ∧ t.fb = s.fb ∧ (t.fbv = s.fbv ∨ (i = .close ∧ t.fbv = false))) ∨
    ((∃ w h b src, i = .load w h b src) ∧ FrameSound t) := by exact .inl ⟨rfl, rfl, rfl, .inl rfl⟩
  transfer : (t.off = s.off ∧ t.count = s.count) ∨ (i = .framewr ∧ t.off = t.count ∧ t.count.toNat ≤ fbSize s.cfg) ∨
    (i = .close ∧ t.off = 0#32 ∧ t.count = s.count) := by exact .inl ⟨rfl, rfl⟩
  toff : t.toff = s.toff ∨ ((i = .pwroff ∨ i = .init) ∧ ∃ x, t.toff = some x ∧ x ≤ t.now) := by exact .inl rfl
  log : t.log = s.log ∨ (i = .pwroff ∧ s.log <+: t.log) := by exact .inl rfl
  status : (t.status = s.status ∧ t.seq = s.seq) ∨ (i.format = .host ∧ (t.seq = s.seq ∨ t.seq = 0#5)) := by
    exact .inl ⟨rfl, rfl⟩
  lines : ∀ l, t.lines.get l = s.lines.get l ∨ mayDrive s.cfg l i = true := by exact fun _ => .inl rfl
  trace : t.trace = s.trace ∨ ∀ w h b src, i ≠ .load w h b src := by exact .inl rfl
  reply : t.reply = s.reply ∨ i.format ≠ .host := by exact .inl rfl

/-! ## The ways an instruction ends -/

/-- Where a host operation ends, its run's footprint holds of the state before `STATUS` and `SEQ` are written (R124). -/
theorem Res.Holds.outcome {P : State → Prop} {r : Res} {t : State} (hr : r.Holds P) (ht : r.toOutcome = .next t) :
    ∃ u e, P u ∧ t = { u with status := e, seq := 0#5 } := by
  obtain ⟨u, rfl, rfl⟩ | ⟨e, u, rfl, rfl⟩ := toOutcome_next ht
  · exact ⟨u, _, hr, rfl⟩
  · exact ⟨u, _, hr, rfl⟩

/-- Where a primitive ends, its footprint holds of the state before the reply is written (R71). -/
theorem Res.Holds.reply {P : State → Prop} {r : Res} {t : State} (hr : r.Holds P) (ht : r.toReply = .next t) :
    ∃ u e, P u ∧ t = { u with reply := e } := by
  obtain ⟨u, rfl, rfl⟩ | ⟨e, u, rfl, rfl⟩ := toReply_next ht
  · exact ⟨u, _, hr, rfl⟩
  · exact ⟨u, _, hr, rfl⟩

/-- A primitive or wire command either ran with the handle or only replied. -/
theorem withHandle_next {s t : State} {run : State → Host.Outcome State Fault Refusal}
    (ht : withHandle s run = .next t) : run s = .next t ∨ t = { s with reply := .raised .stateError } := by
  unfold withHandle at ht
  split at ht
  · exact .inl ht
  · cases ht
    exact .inr rfl

variable {i : Instr} {s t u : State}

/-- A refused host operation writes `STATUS` only (R99). -/
theorem Effect.of_refuse (hi : i.format = .host) (e : Status) : Effect i s (refuse e s) where
  status := .inr ⟨hi, .inl rfl⟩

/-- An instruction that is no host operation may reply. -/
theorem Effect.of_reply (hi : i.format ≠ .host) (e : Reply) : Effect i s { s with reply := e } where
  reply := .inr hi

theorem ne_load_of_format (hi : i.format ≠ .host) (w h : Word32) (b : Word16) (src : List Byte) :
    i ≠ .load w h b src := by
  rintro rfl
  exact hi rfl

/-- A new level of the select line is a change of that line alone. -/
theorem Lines.get_dc_update (ls : Lines) (d : Level) (l : Line) : ({ ls with dc := d } : Lines).get l = ls.get l ∨ l = .dc := by
  cases l with
  | pwr => exact .inl rfl
  | rst => exact .inl rfl
  | dc => exact .inr rfl

/-- Where the select line is one the instruction drives, sends change no other. -/
theorem mayDrive_of_dc (hd : mayDrive s.cfg .dc i = true) (d : Level) (l : Line) :
    ({ s.lines with dc := d } : Lines).get l = s.lines.get l ∨ mayDrive s.cfg l i = true :=
  (Lines.get_dc_update s.lines d l).imp_right (by rintro rfl; exact hd)

/-- A wire command, CMD or DAT: the footprint of sends, and the reply. -/
theorem Effect.of_sends_reply {f : Step} (hi : i.format ≠ .host) (hd : mayDrive s.cfg .dc i = true)
    (hf : (f s).Holds fun u => SendsOnly s u ∧ u.seq = s.seq)
    (ht : withHandle s (fun s => (f s).toReply) = .next t) : Effect i s t := by
  rcases withHandle_next ht with ht | rfl
  · obtain ⟨u, e, ⟨⟨d, tr, n, env, q, rfl⟩, hq⟩, rfl⟩ := hf.reply ht
    exact {
      status := .inl ⟨rfl, hq⟩
      lines := mayDrive_of_dc hd d
      trace := .inr (ne_load_of_format hi)
      reply := .inr hi }
  · exact .of_reply hi _

/-- SETWIN and DCS: the footprint of sends, and the end of a host operation. -/
theorem Effect.of_sends {r : Res} (hi : i.format = .host) (hl : ∀ w h b src, i ≠ .load w h b src)
    (hd : mayDrive s.cfg .dc i = true) (hr : r.Holds (SendsOnly s)) (ht : r.toOutcome = .next t) : Effect i s t := by
  obtain ⟨u, e, ⟨d, tr, n, env, q, rfl⟩, rfl⟩ := hr.outcome ht
  exact {
    status := .inr ⟨hi, .inr rfl⟩
    lines := mayDrive_of_dc hd d
    trace := .inr hl }

/-! ## The host operations -/

/-- A failed LOAD leaves no frame and an empty buffer (R107). -/
theorem loadFailed_effect (w h : Word32) (b : Word16) (src : List Byte) (e : Status) (s : State) :
    Effect (.load w h b src) s (raiseStatus e (loadFailed s)) where
  frame := .inr ⟨⟨w, h, b, src, rfl⟩, nofun, Memory.wf_unspecified _, nofun⟩
  status := .inr ⟨rfl, .inr rfl⟩

theorem execLoad_effect {w h : Word32} {b : Word16} {src : List Byte} (ht : execLoad w h b src s = .next t) :
    Effect (.load w h b src) s t := by
  unfold execLoad at ht
  split at ht
  · next hv =>
    split at ht
    · cases ht
      exact loadFailed_effect w h b src _ s
    · next hn =>
      cases ht
      exact {
        frame := .inr ⟨⟨w, h, b, src, rfl⟩, (loadFrame_frameSound hv (not_lt.1 hn)).complete⟩
        status := .inr ⟨rfl, .inr rfl⟩ }
  · cases ht
    exact loadFailed_effect w h b src _ s

theorem execOpen_effect (ht : execOpen s = .next t) : Effect .openBus s t := by
  unfold execOpen at ht
  split at ht
  · have hrun : ((runFrom 1 (openSteps s.cfg) s).andThen fun s => .ok { s with ctx := true }).Holds
        fun u => ∃ v c, CallsOnly s v ∧ (c = s.ctx ∨ c = true) ∧ u = { v with ctx := c } := by
      refine Res.holds_andThen (openSteps_callsOnly s.cfg s) (fun v hv => ⟨v, _, hv, .inl ?_, rfl⟩)
        fun v hv => ⟨v, true, hv, .inr rfl, rfl⟩
      obtain ⟨tr, n, e, q, rfl⟩ := hv
      rfl
    obtain ⟨u, e, ⟨v, c, ⟨tr, n, env, q, rfl⟩, hc, rfl⟩, rfl⟩ := hrun.outcome ht
    exact {
      ctx := hc.imp_right fun h => .inl ⟨rfl, h⟩
      status := .inr ⟨rfl, .inr rfl⟩
      trace := .inr nofun }
  · cases ht
    exact .of_refuse rfl _

theorem execInit_effect (ht : execInit s = .next t) : Effect .init s t := by
  unfold execInit at ht
  split at ht
  · next hadm =>
    have hctx : s.ctx = true := by
      simp only [initAdmitted, Bool.and_eq_true] at hadm
      exact hadm.1
    obtain ⟨u, e, ⟨ls, tr, n, env, q, p, o, rfl, ho⟩, rfl⟩ := (initRun_sequencesOnly s).outcome ht
    exact {
      pstate := .inr (.inl ⟨rfl, hctx⟩)
      toff := ho.imp_right fun h => ⟨.inr rfl, h⟩
      status := .inr ⟨rfl, .inr rfl⟩
      lines := fun _ => .inr rfl
      trace := .inr nofun }
  · cases ht
    exact .of_refuse rfl _

theorem execSetwin_effect {x1 y1 x2 y2 : Byte} (ht : execSetwin x1 y1 x2 y2 s = .next t) :
    Effect (.setwin x1 y1 x2 y2) s t := by
  unfold execSetwin at ht
  split at ht
  · split at ht
    · refine .of_sends rfl nofun rfl (runFrom_holds (fun _ q h => h.seq q) _ ?_ 1 s (.refl s)) ht
      simp only [windowSteps, List.forall_mem_cons]
      exact ⟨fun _ h => h.send (.cmd _), fun _ h => h.send (.dat _), fun _ h => h.send (.dat _),
        fun _ h => h.send (.cmd _), fun _ h => h.send (.dat _), fun _ h => h.send (.dat _), nofun⟩
    · cases ht
      exact .of_refuse rfl _
  · cases ht
    exact .of_refuse rfl _

theorem execFramewr_effect (ht : execFramewr s = .next t) : Effect .framewr s t := by
  unfold execFramewr at ht
  split at ht
  · obtain ⟨u, e, ⟨d, tr, n, env, q, o, c, rfl, hoc⟩, rfl⟩ := (frameSteps_streamsOnly s).outcome ht
    exact {
      transfer := hoc.imp_right fun ⟨heq, hle⟩ => .inl ⟨rfl, heq, hle⟩
      status := .inr ⟨rfl, .inr rfl⟩
      lines := mayDrive_of_dc rfl d
      trace := .inr nofun }
  · cases ht
    exact .of_refuse rfl _

/-- The three pin writes cannot fail (R97): PWROFF always comes to its last step. -/
theorem execPwroff_effect (ht : execPwroff s = .next t) : Effect .pwroff s t := by
  unfold execPwroff at ht
  split at ht
  · obtain ⟨v, hv⟩ : ∃ v, runFrom 1 (poweroffPins s.cfg) s = .ok v := ⟨_, rfl⟩
    have hrun := (SequencesOnly.refl s).run (poweroffPins_sequencesOnly s.cfg) 1
    rw [hv] at ht hrun
    cases ht
    obtain ⟨ls, tr, n, env, q, p, o, rfl, ho⟩ := hrun
    exact {
      pstate := .inr (.inr ⟨.inl rfl, rfl⟩)
      toff := ho.imp_right fun h => ⟨.inl rfl, h⟩
      status := .inr ⟨rfl, .inr rfl⟩
      lines := fun _ => .inr rfl
      trace := .inr nofun }
  · cases ht
    exact { log := .inr ⟨rfl, List.prefix_append _ _⟩, status := .inr ⟨rfl, .inr rfl⟩ }

/-- CLOSE leaves the lines as they are or, without `PERSIST`, at drawn levels (R98). -/
theorem freeLines_eq (s : State) :
    ∃ ls e, freeLines s = { s with lines := ls, env := e } ∧ (s.cfg.persist = false ∨ ls = s.lines) := by
  unfold freeLines
  split
  · exact ⟨_, _, rfl, .inr rfl⟩
  · next hp => exact ⟨_, _, rfl, .inl (Bool.not_eq_true _ ▸ hp)⟩

/-- The four releases cannot fail (R98): CLOSE always ends the session. -/
theorem execClose_effect (ht : execClose s = .next t) : Effect .close s t := by
  unfold execClose at ht
  split at ht
  · obtain ⟨v, hv⟩ : ∃ v, runFrom 1 closeSteps s = .ok v := ⟨_, rfl⟩
    have hrun := closeSteps_callsOnly s
    rw [hv] at ht hrun
    obtain ⟨tr, n, env, q, rfl⟩ := hrun
    cases ht
    obtain ⟨ls, env', hfree, hkept⟩ := freeLines_eq { s with trace := tr, now := n, env := env, seq := q }
    rw [hfree]
    exact {
      pstate := .inr (.inr ⟨.inr rfl, rfl⟩)
      ctx := .inr (.inr ⟨rfl, rfl⟩)
      frame := .inl ⟨rfl, rfl, rfl, .inr ⟨rfl, rfl⟩⟩
      transfer := .inr (.inr ⟨rfl, rfl, rfl⟩)
      status := .inr ⟨rfl, .inr rfl⟩
      lines := fun l => hkept.symm.imp (fun h => congrArg (Lines.get · l) h) fun h => by simpa [mayDrive] using h
      trace := .inr nofun }
  · cases ht
    exact { status := .inr ⟨rfl, .inr rfl⟩ }

theorem execDcs_effect {opcode : Byte} {payload : List Byte} (ht : execDcs opcode payload s = .next t) :
    Effect (.dcs opcode payload) s t := by
  unfold execDcs at ht
  split at ht
  · refine .of_sends rfl nofun rfl (runFrom_holds (fun _ q h => h.seq q) _ ?_ 1 s (.refl s)) ht
    intro f hf u hu
    obtain rfl := List.mem_singleton.1 hf
    exact hu.frame _ _
  · cases ht
    exact .of_refuse rfl _

/-! ## Wire commands and primitives -/

theorem wireCommand_effect {opcode : Byte} {ps : List Byte} (hi : i.format ≠ .host) (hd : mayDrive s.cfg .dc i = true)
    (ht : wireCommand opcode ps s = .next t) : Effect i s t :=
  .of_sends_reply hi hd (sendFrame_sendsOnly opcode ps s) ht

theorem execPinset_effect {l : Line} {v : Level} (ht : execPinset l v s = .next t) : Effect (.pinset l v) s t := by
  rcases withHandle_next ht with ht | rfl
  · cases ht
    refine { lines := fun m => ?_, trace := .inr nofun, reply := .inr nofun }
    by_cases hm : m = l
    · exact .inr (by simp [mayDrive, hm])
    · exact .inl (Lines.get_set_other _ _ _ _ hm)
  · exact .of_reply (i := .pinset l v) nofun _

theorem execPinget_effect {l : Line} (ht : execPinget l s = .next t) : Effect (.pinget l) s t := by
  rcases withHandle_next ht with ht | rfl
  · cases ht
    exact { trace := .inr nofun, reply := .inr nofun }
  · exact .of_reply (i := .pinget l) nofun _

theorem execDelay_effect {d : Nat} (ht : execDelay d s = .next t) : Effect (.delay d) s t := by
  cases ht
  exact { trace := .inr nofun, reply := .inr nofun }

/-- An SPI write of its own, by SPIWR or WRC (R70, R73). -/
theorem Effect.of_write {bytes : List Byte} (hi : i.format ≠ .host)
    (ht : withHandle s (fun s => if transferLength s.cfg bytes then replyAnswer (spiwr bytes s) else .refused .transferLength) =
      .next t) : Effect i s t := by
  rcases withHandle_next ht with ht | rfl
  · split at ht
    · cases ht
      exact { trace := .inr (ne_load_of_format hi), reply := .inr hi }
    · cases ht
  · exact .of_reply hi _

/-- Every instruction writes only what R12 lets it write. -/
theorem exec_effect (ht : exec i s = .next t) : Effect i s t := by
  cases i with
  | load w h b src => exact execLoad_effect ht
  | openBus => exact execOpen_effect ht
  | init => exact execInit_effect ht
  | setwin x1 y1 x2 y2 => exact execSetwin_effect ht
  | framewr => exact execFramewr_effect ht
  | pwroff => exact execPwroff_effect ht
  | close => exact execClose_effect ht
  | dcs opcode payload => exact execDcs_effect ht
  | swreset => exact wireCommand_effect nofun rfl ht
  | slpout => exact wireCommand_effect nofun rfl ht
  | dispon => exact wireCommand_effect nofun rfl ht
  | caset a b => exact wireCommand_effect nofun rfl ht
  | paset a b => exact wireCommand_effect nofun rfl ht
  | ramwr => exact wireCommand_effect nofun rfl ht
  | madctl m => exact wireCommand_effect nofun rfl ht
  | colmod m => exact wireCommand_effect nofun rfl ht
  | cmd b => exact .of_sends_reply nofun rfl (sendStep_sendsOnly (.cmd b) s) ht
  | dat b => exact .of_sends_reply nofun rfl (sendStep_sendsOnly (.dat b) s) ht
  | pinset l v => exact execPinset_effect ht
  | pinget l => exact execPinget_effect ht
  | delay d => exact execDelay_effect ht
  | spiwr bytes => exact .of_write nofun ht
  | wrc bytes => exact .of_write nofun ht

end Sys2Proof.Machine
end

section
/-! PROOFS. The reset values, the invariants at reset, and what every step keeps of the state (spec/10_state.md R12, R15 to
R20, R23 to R27, R29, R35; spec/42_power_reset_sequencer.md R100 (a)). -/

namespace Sys2Proof.Machine

open Sys2Proof.Safety

/-- Settles O51: the entries of R29's table, read off the reset state. -/
theorem resetHasTheValuesOfTheTable : Obligations.ResetHasTheValuesOfTheTable :=
  ⟨rfl, rfl, rfl, rfl, rfl, rfl, rfl, rfl, rfl, rfl⟩

/-- After reset there is no frame, no handle and no `TOFF`. -/
theorem reset_inv : Inv State.reset where
  seqIdle := rfl
  closedIsOff _ := rfl
  frame := nofun
  canonical := reset_fb_wf
  inArray := nofun
  offPast := nofun
  countBound := Nat.zero_le _
  offCount := .inl rfl

/-- After reset no request waits and no pin has been written. -/
theorem reset_powerInv : PowerInv State.reset where
  hostOnly := nofun
  levelsDiffer := nofun
  offPast := nofun
  remembered := nofun
  settled before after t t' h := by
    have htrace : State.reset.trace = [] := rfl
    rw [htrace] at h
    simp at h

/-- Settles O52: the reset state meets both invariants, and its empty trace any clock. -/
theorem resetMeetsTheInvariants : Obligations.ResetMeetsTheInvariants :=
  ⟨reset_inv, reset_powerInv, decide_eq_true (Nat.zero_le _)⟩

/-! ## What one step is -/

/-- One step idles, runs the decoded instruction, or turns away an unknown operation with UsageError; any other request the
decoder rejects stops the machine. -/
theorem step_cases {s t : State} (ht : step s = .next t) :
    t = idle s ∨ (∃ i rest, exec i (taken rest s) = .next t) ∨ ∃ rest, t = refuse .usageError (taken rest s) := by
  unfold step at ht
  split at ht
  · cases ht
    exact .inl rfl
  · next r rest hr =>
    split at ht
    · exact .inr (.inl ⟨_, rest, ht⟩)
    · next e he =>
      cases e with
      | unknownOp op =>
        cases ht
        exact .inr (.inr ⟨rest, rfl⟩)
      | empty => cases ht
      | truncated => cases ht
      | trailing => cases ht

/-! ## The registers and their writers -/

/-- Settles O58: the table is `Effect`, without the values written. -/
theorem registersHaveOnlyTheirWriters : Obligations.RegistersHaveOnlyTheirWriters := by
  intro i s t ht
  have he := exec_effect ht
  refine ⟨?_, ?_, ?_, ?_, ?_, ?_, ?_, ?_, ?_, he.lines, he.trace, he.reply, he.cfg, he.requests⟩
  · exact he.pstate.imp_right fun h => h.imp (·.1) (·.1)
  · exact he.ctx.imp_right fun h => h.imp (·.1) (·.1)
  · rcases he.frame with ⟨-, -, -, hfbv⟩ | ⟨hload, -⟩
    · exact hfbv.imp_right fun h => .inl h.1
    · exact .inr (.inr hload)
  · rcases he.frame with ⟨hbpp, hlen, hfb, -⟩ | ⟨hload, -⟩
    · exact .inl ⟨hbpp, hlen, fun a => by simp [hfb]⟩
    · exact .inr hload
  · rcases he.transfer with ⟨hoff, -⟩ | ⟨hi, -⟩ | ⟨hi, -⟩
    · exact .inl hoff
    · exact .inr (.inl hi)
    · exact .inr (.inr hi)
  · rcases he.transfer with ⟨-, hcount⟩ | ⟨hi, -⟩ | ⟨-, -, hcount⟩
    · exact .inl hcount
    · exact .inr hi
    · exact .inl hcount
  · exact he.toff.imp_right (·.1)
  · exact he.log.imp_right (·.1)
  · exact he.status.imp_right (·.1)

/-! ## The trace, the time and the configuration -/

/-- `u` is no earlier than `s`: its trace goes on from that of `s`, `NOW` has not gone back, `CFG` is the same (R24, R26, R27). -/
structure Later (s u : State) : Prop where
  trace : s.trace <+: u.trace
  now : s.now ≤ u.now
  cfg : u.cfg = s.cfg

theorem Later.refl (s : State) : Later s s := ⟨List.prefix_rfl, le_rfl, rfl⟩

theorem Later.trans {s u v : State} (h : Later s u) (h' : Later u v) : Later s v :=
  ⟨h.trace.trans h'.trace, h.now.trans h'.now, h'.cfg.trans h.cfg⟩

/-- Each platform call appends its entry and takes its time. -/
theorem later_keptByCalls (s : State) : KeptByCalls (Later s) where
  depends _ _ htrace hnow hcfg h := ⟨htrace ▸ h.trace, hnow ▸ h.now, hcfg ▸ h.cfg⟩
  tick _ h := h.trans ⟨List.prefix_rfl, Nat.le_add_right _ _, rfl⟩
  pinset _ _ _ h := h.trans ⟨List.prefix_append _ _, Nat.le_add_right _ _, rfl⟩
  pinget _ _ h := h.trans ⟨List.prefix_append _ _, Nat.le_add_right _ _, rfl⟩
  delay _ _ h := h.trans ⟨List.prefix_append _ _, (Nat.le_add_right _ _).trans (Nat.le_add_right _ _), rfl⟩
  spiwr _ _ _ h := h.trans ⟨List.prefix_append _ _, Nat.le_add_right _ _, rfl⟩
  call _ _ _ h := h.trans ⟨List.prefix_append _ _, Nat.le_add_right _ _, rfl⟩

/-- `LOG` grows only by the warning of a PWROFF without handle (R25, R96). -/
theorem step_log {s t : State} (ht : step s = .next t) : s.log <+: t.log := by
  rcases step_cases ht with rfl | ⟨i, rest, hexec⟩ | ⟨rest, rfl⟩
  · exact List.prefix_rfl
  · rcases (exec_effect hexec).log with hlog | ⟨-, hlog⟩
    · exact hlog ▸ List.prefix_rfl
    · exact hlog
  · exact List.prefix_rfl

/-- Settles O57: `Later` is kept by every platform call, hence by every step, and `LOG` only grows. -/
theorem stepOnlyAppends : Obligations.StepOnlyAppends := by
  intro s t ht
  have hlater := (later_keptByCalls s).step s t (.refl s) ht
  exact ⟨hlater.trace, step_log ht, hlater.now, hlater.cfg⟩

/-! ## The clock of the trace -/

/-- A trace may begin earlier than its bound asks. -/
theorem clockOk_of_le {lo lo' hi : Nat} {es : List Event} (hlo : lo' ≤ lo) (h : clockOk lo hi es = true) :
    clockOk lo' hi es = true := by
  induction es with
  | nil => simp only [clockOk, decide_eq_true_eq] at h ⊢; omega
  | cons e es ih =>
    cases e with
    | acquire r ok => exact ih h
    | configure w => exact ih h
    | free r => exact ih h
    | _ =>
      simp only [clockOk, Bool.and_eq_true, decide_eq_true_eq] at h ⊢
      exact ⟨by omega, h.2⟩

/-- A clock that runs to `mid` goes on from there. -/
theorem clockOk_append {lo mid hi : Nat} {es fs : List Event} (h : clockOk lo mid es = true)
    (h' : clockOk mid hi fs = true) : clockOk lo hi (es ++ fs) = true := by
  induction es generalizing lo with
  | nil => exact clockOk_of_le (of_decide_eq_true h) h'
  | cons e es ih =>
    cases e with
    | acquire r ok => exact ih h
    | configure w => exact ih h
    | free r => exact ih h
    | _ =>
      simp only [List.cons_append, clockOk, Bool.and_eq_true] at h ⊢
      exact ⟨h.1, ih h.2⟩

/-- Time may pass after the last entry. -/
theorem clockOk_later {now lag : Nat} {es : List Event} (h : clockOk 0 now es = true) :
    clockOk 0 (now + lag) es = true := by
  have := clockOk_append (fs := []) h (decide_eq_true (Nat.le_add_right now lag))
  rwa [List.append_nil] at this

/-- An entry without a time leaves the clock where it is (R26). -/
theorem clockOk_untimed {e : Event} (he : untimed e = true) (now : Nat) : clockOk now now [e] = true := by
  cases e with
  | acquire r ok => exact decide_eq_true le_rfl
  | configure w => exact decide_eq_true le_rfl
  | free r => exact decide_eq_true le_rfl
  | _ => exact nomatch he

/-- Each platform call records its own time, and a wait its begin and an end at least its bound later. -/
theorem clock_keptByCalls : KeptByCalls fun s => clockOk 0 s.now s.trace = true where
  depends _ _ htrace hnow _ h := htrace ▸ hnow ▸ h
  tick _ h := clockOk_later h
  pinset _ _ _ h := clockOk_append h (by simp [clockOk])
  pinget _ _ h := clockOk_append h (by simp [clockOk])
  delay _ _ h := clockOk_append h (by simp [clockOk])
  spiwr _ _ _ h := clockOk_append h (by simp [clockOk])
  call _ s he h := clockOk_append (clockOk_later h) (clockOk_untimed he _)

/-- Settles O55: every platform call keeps the clock, hence every step does. -/
theorem stepKeepsTheTraceClock : Obligations.StepKeepsTheTraceClock :=
  fun s t h ht => clock_keptByCalls.step s t h ht

/-! ## The state invariant -/

variable {i : Instr} {s t : State}

/-- What the invariant says of the frame, as one fact. -/
theorem frameSound_of_inv (h : Inv s) : FrameSound s := ⟨h.frame, h.canonical, h.inArray⟩

/-- The invariant looks neither at the requests, the environment and `STATUS` nor, but for `TOFF`, at the time. -/
theorem inv_of_now_le (h : Inv s) {n : Nat} (hn : s.now ≤ n) (rs : List Request) (e : Env) (st : Status) :
    Inv { s with requests := rs, now := n, env := e, status := st } where
  seqIdle := h.seqIdle
  closedIsOff := h.closedIsOff
  frame hv := ⟨(h.frame hv).depth, (h.frame hv).length, (h.frame hv).filled⟩
  canonical := h.canonical
  inArray := h.inArray
  offPast x hx := (h.offPast x hx).trans hn
  countBound := h.countBound
  offCount := h.offCount

theorem inv_taken (h : Inv s) (rest : List Request) : Inv (taken rest s) :=
  inv_of_now_le h (Nat.le_add_right _ _) rest _ _

/-- `SEQ` is idle after an instruction (R19). -/
theorem Effect.seqIdle (he : Effect i s t) (h : s.seq = 0#5) : t.seq = 0#5 := by
  rcases he.status with ⟨-, hseq⟩ | ⟨-, hseq | hseq⟩
  · exact hseq.trans h
  · exact hseq.trans h
  · exact hseq

/-- Without a handle the panel stays off (R100 (a)): INIT runs with one only, and CLOSE turns `PSTATE` off. -/
theorem Effect.closedIsOff (he : Effect i s t) (h : s.ctx = false → s.pstate = .poweredOff) (ht : t.ctx = false) :
    t.pstate = .poweredOff := by
  rcases he.ctx with hctx | ⟨-, hctx⟩ | ⟨-, hoff⟩
  · rcases he.pstate with hp | ⟨-, hopen⟩ | ⟨-, hoff⟩
    · exact hp.trans (h (hctx ▸ ht))
    · exact nomatch hopen.symm.trans ht
    · exact hoff
  · exact nomatch hctx.symm.trans ht
  · exact hoff

/-- The frame stays whole: only LOAD writes it, and leaves a whole one (R15 to R17, R35). -/
theorem Effect.frameSound (he : Effect i s t) (h : FrameSound s) : FrameSound t := by
  rcases he.frame with ⟨hbpp, hlen, hfb, hfbv⟩ | ⟨-, hload⟩
  · refine ⟨fun hv => ?_, hfb ▸ h.canonical, ?_⟩
    · rcases hfbv with hfbv | ⟨-, hfbv⟩
      · obtain ⟨hdepth, hlength, hfilled⟩ := h.valid (hfbv ▸ hv)
        exact ⟨by rwa [hbpp, he.cfg], by rwa [hbpp, hlen, he.cfg], by rwa [hfb, hlen]⟩
      · exact nomatch hfbv.symm.trans hv
    · rw [hfb, he.cfg]
      exact h.inArray
  · exact hload

/-- `TOFF` stays in the past (R23). -/
theorem Effect.offPast (he : Effect i s t) (hnow : s.now ≤ t.now) (h : ∀ x, s.toff = some x → x ≤ s.now) (x : Nat)
    (hx : t.toff = some x) : x ≤ t.now := by
  rcases he.toff with hoff | ⟨-, y, hy, hle⟩
  · exact (h x (hoff ▸ hx)).trans hnow
  · obtain rfl : y = x := Option.some.inj (hy.symm.trans hx)
    exact hle

/-- `COUNT` stays within the array `FB` (R18, R20). -/
theorem Effect.countBound (he : Effect i s t) (h : s.count.toNat ≤ fbSize s.cfg) : t.count.toNat ≤ fbSize t.cfg := by
  rw [he.cfg]
  rcases he.transfer with ⟨-, hcount⟩ | ⟨-, -, hle⟩ | ⟨-, -, hcount⟩
  · exact hcount ▸ h
  · exact hle
  · exact hcount ▸ h

/-- `OFF` stays cleared or in step with `COUNT` (R18, R20, R98). -/
theorem Effect.offCount (he : Effect i s t) (h : s.off = 0#32 ∨ s.off = s.count) : t.off = 0#32 ∨ t.off = t.count := by
  rcases he.transfer with ⟨hoff, hcount⟩ | ⟨-, heq, -⟩ | ⟨-, hzero, -⟩
  · rwa [hoff, hcount]
  · exact .inr heq
  · exact .inl hzero

/-- Every instruction keeps the state invariant. -/
theorem exec_keeps_inv (h : Inv s) (ht : exec i s = .next t) : Inv t := by
  have he := exec_effect ht
  have hlater := (later_keptByCalls s).exec i s t (.refl s) ht
  have hframe := he.frameSound (frameSound_of_inv h)
  exact {
    seqIdle := he.seqIdle h.seqIdle
    closedIsOff := he.closedIsOff h.closedIsOff
    frame := hframe.valid
    canonical := hframe.canonical
    inArray := hframe.inArray
    offPast := he.offPast hlater.now h.offPast
    countBound := he.countBound h.countBound
    offCount := he.offCount h.offCount }

/-- Settles O53: taking a request lets time pass only, and every instruction keeps the invariant by its effect. -/
theorem stepKeepsTheStateInvariant : Obligations.StepKeepsTheStateInvariant := by
  intro s t h ht
  rcases step_cases ht with rfl | ⟨i, rest, hexec⟩ | ⟨rest, rfl⟩
  · exact inv_of_now_le h (Nat.le_add_right _ _) s.requests _ _
  · exact exec_keeps_inv (inv_taken h rest) hexec
  · exact inv_of_now_le (inv_taken h rest) le_rfl rest _ .usageError

end Sys2Proof.Machine
end

section
/-! PROOFS. The granted writes of FRAMEWR (spec/43_frame_transfer.md R101, R102): the chunk schedule, what comes before the
chunk loop, one turn of the loop, and any number of turns. -/

namespace Sys2Proof.Machine

open Sys2Proof.Safety

/-! ## The chunk schedule -/

/-- `NCH` counts the chunks that begin before the end of the frame (R102). -/
theorem lt_chunkCount_iff (c : Cfg) (len j : Nat) : j < chunkCount c len ↔ j * c.chunk.val < len := by
  have hc := c.chunk.2
  rw [chunkCount, Nat.lt_iff_add_one_le, Nat.le_div_iff_mul_le hc, Nat.succ_mul]
  omega

theorem le_chunkCount_mul (c : Cfg) (len : Nat) : len ≤ chunkCount c len * c.chunk.val :=
  Nat.le_of_not_lt fun h => lt_irrefl _ ((lt_chunkCount_iff c len _).2 h)

/-- As every chunk has a byte, there are no more chunks than bytes. -/
theorem chunkCount_le (c : Cfg) (len : Nat) : chunkCount c len ≤ len :=
  Nat.le_of_not_lt fun h => absurd ((lt_chunkCount_iff c len len).1 h) (Nat.not_lt.2 (Nat.le_mul_of_pos_right len c.chunk.2))

theorem Memory.readRange_add (m : Memory) (a n k : Nat) :
    m.readRange a (n + k) = m.readRange a n ++ m.readRange (a + n) k := by
  simp only [Memory.readRange, ← List.map_append, List.range'_append_1]

/-- Where chunk `j` ends, chunk `j + 1` begins, up to the end of the frame. -/
theorem chunk_end (c : Cfg) (len j : Nat) :
    min (j * c.chunk.val) len + min c.chunk.val (len - j * c.chunk.val) = min ((j + 1) * c.chunk.val) len := by
  rw [Nat.succ_mul]
  omega

/-- The first `n` chunks in order are the bytes from 0 up to the end of the last of them (R102). -/
theorem flatMap_chunkAt (c : Cfg) (m : Memory) (len n : Nat) :
    (List.range n).flatMap (chunkAt c m len) = m.readRange 0 (min (n * c.chunk.val) len) := by
  induction n with
  | zero => simp [Memory.readRange]
  | succ n ih =>
    rw [List.range_succ, List.flatMap_append, ih, ← chunk_end, Memory.readRange_add, List.flatMap_singleton, chunkAt,
      Nat.zero_add]
    rcases Nat.le_total (n * c.chunk.val) len with h | h
    · rw [min_eq_left h]
    · simp [Nat.sub_eq_zero_of_le h, Memory.readRange]

theorem chunkMarks_succ (c : Cfg) (m : Memory) (len j : Nat) :
    chunkMarks c m len (j + 1) = chunkMarks c m len j ++ [.spiWrite c.dcData (chunkAt c m len j) true] := by
  simp [chunkMarks, List.range_succ]

/-! ## The turns of the chunk loop -/

/-- The loop is over when `OFF` has come to `LEN`, whatever the bound on its turns. -/
theorem chunkLoop_done (k : Nat) {s : State} (h : s.len.toNat ≤ s.off.toNat) : chunkLoop k s = .ok s := by
  cases k with
  | zero => rfl
  | succ k => rw [chunkLoop_succ, if_neg (Nat.not_lt.2 h)]

/-- A turn whose chunk lies in the array and whose write is granted. -/
theorem chunkLoop_granted (k : Nat) {s : State} (hoff : s.off.toNat < s.len.toNat)
    (hin : s.off.toNat + chunkLen s.cfg s.len.toNat s.off.toNat ≤ fbSize s.cfg) (hok : s.env.ok = true) :
    chunkLoop (k + 1) s = chunkLoop k (advance (chunkLen s.cfg s.len.toNat s.off.toNat) (wrc (nextChunk s) s).2) := by
  rw [chunkLoop_succ, if_pos hoff, if_pos hin, if_pos hok]

/-- A turn whose chunk would pass the array (R42). -/
theorem chunkLoop_past_array (k : Nat) {s : State} (hoff : s.off.toNat < s.len.toNat)
    (hout : fbSize s.cfg < s.off.toNat + chunkLen s.cfg s.len.toNat s.off.toNat) :
    chunkLoop (k + 1) s = .fault .frameBufferRange := by
  rw [chunkLoop_succ, if_pos hoff, if_neg (Nat.not_le.2 hout)]

/-! ## The state between two turns -/

/-- `t` is `s` after the granted command of a FRAMEWR and `j` granted chunk writes, numbered steps apart: `OFF` and `COUNT` at
the end of the last of the chunks, the select line at the data level, the answers used up to `rest`. -/
structure Streamed (s t : State) (j : Nat) (rest : List Bool) : Prop where
  frame : t = { s with
    off := t.off
    count := t.off
    lines := { s.lines with dc := s.cfg.dcData }
    trace := t.trace
    now := t.now
    env := t.env
    seq := t.seq }
  off : t.off.toNat = min (j * s.cfg.chunk.val) s.len.toNat
  marks : t.marks = s.marks ++ frameStartMarks s.cfg ++ chunkMarks s.cfg s.fb s.len.toNat j
  time : s.now ≤ t.now
  oks : t.env.oks = rest

section
variable {s t : State} {j : Nat} {rest : List Bool}

theorem Streamed.cfg (h : Streamed s t j rest) : t.cfg = s.cfg := by rw [h.frame]
theorem Streamed.len (h : Streamed s t j rest) : t.len = s.len := by rw [h.frame]
theorem Streamed.fb (h : Streamed s t j rest) : t.fb = s.fb := by rw [h.frame]
theorem Streamed.dc (h : Streamed s t j rest) : t.lines.dc = s.cfg.dcData := by rw [h.frame]
theorem Streamed.count (h : Streamed s t j rest) : t.count = t.off := by rw [h.frame]

/-- Before the end of the frame `OFF` is a whole number of chunks. -/
theorem Streamed.off_eq (h : Streamed s t j rest) (hj : j * s.cfg.chunk.val < s.len.toNat) :
    t.off.toNat = j * s.cfg.chunk.val := by
  rw [h.off, min_eq_left hj.le]

theorem Streamed.off_lt (h : Streamed s t j rest) (hj : j * s.cfg.chunk.val < s.len.toNat) :
    t.off.toNat < t.len.toNat := by
  rwa [h.off_eq hj, h.len]

/-- Where the next chunk ends. -/
theorem Streamed.next_end (h : Streamed s t j rest) (hj : j * s.cfg.chunk.val < s.len.toNat) :
    t.off.toNat + chunkLen t.cfg t.len.toNat t.off.toNat = min ((j + 1) * s.cfg.chunk.val) s.len.toNat := by
  rw [h.off_eq hj, h.cfg, h.len, chunkLen, ← chunk_end, min_eq_left hj.le]

/-- The bytes of the next chunk are those of chunk `j` of the schedule. -/
theorem Streamed.nextChunk (h : Streamed s t j rest) (hj : j * s.cfg.chunk.val < s.len.toNat) :
    nextChunk t = chunkAt s.cfg s.fb s.len.toNat j := by
  rw [Machine.nextChunk, h.off_eq hj, h.cfg, h.len, h.fb]
  rfl

/-- The state after the granted write of the next chunk, which lies in the array. -/
theorem Streamed.advance (h : Streamed s t j (true :: rest)) (hj : j * s.cfg.chunk.val < s.len.toNat)
    (hin : min ((j + 1) * s.cfg.chunk.val) s.len.toNat ≤ fbSize s.cfg) :
    Streamed s (advance (chunkLen t.cfg t.len.toNat t.off.toNat) (wrc (Machine.nextChunk t) t).2) (j + 1) rest where
  frame := by
    have e := h.frame
    rw [e]
    rfl
  off := by
    have hfb := fbSize_le s.cfg
    simp only [Machine.advance, wrc, spiwr_off, h.next_end hj, BitVec.toNat_ofNat]
    exact Nat.mod_eq_of_lt (by omega)
  marks := by
    have hwrite := marks_append t (wrc (Machine.nextChunk t) t).2 _ (spiwr_trace _ _)
    rw [h.marks, Env.ok_of_oks _ _ _ h.oks, h.dc, List.append_assoc] at hwrite
    rwa [chunkMarks_succ, ← h.nextChunk hj]
  time := h.time.trans (Nat.le_add_right _ _)
  oks := congrArg List.tail h.oks

/-- One more turn of the loop, its chunk in the array and its write granted. -/
theorem Streamed.turn (h : Streamed s t j (true :: rest)) (hj : j * s.cfg.chunk.val < s.len.toNat)
    (hin : min ((j + 1) * s.cfg.chunk.val) s.len.toNat ≤ fbSize s.cfg) (k : Nat) :
    ∃ u, chunkLoop (k + 1) t = chunkLoop k u ∧ Streamed s u (j + 1) rest :=
  ⟨_, chunkLoop_granted k (h.off_lt hj) (by rwa [h.next_end hj, h.cfg]) (Env.ok_of_oks _ _ _ h.oks), h.advance hj hin⟩

/-! ## Before the chunk loop, and its first turns -/

/-- A PINSET of the select line is no write: it uses up no answer. -/
theorem pinset_sent (v : Level) (s : State) (rest : List Bool) (h : s.env.oks = rest) :
    Sent s (pinset .dc v s) [.pinSet .dc v] v rest where
  frame := rfl
  marks := marks_append s _ [.pinSet .dc v s.now] rfl
  time := Nat.le_add_right _ _
  oks := h

theorem Streamed.of_sent (h : Sent (resetTransfer s) t (frameStartMarks s.cfg) s.cfg.dcData rest) :
    Streamed s t 0 rest where
  frame := by
    have e := h.frame
    rw [e]
    rfl
  off := by rw [h.frame]; simp [resetTransfer]
  marks := by rw [h.marks]; exact (List.append_nil _).symm
  time := h.time
  oks := h.oks

/-- An admitted FRAMEWR whose command is granted comes to its chunk loop with `OFF` and `COUNT` at 0 and the select line at
the data level (R101 steps 1 to 3); how the loop ends decides the rest. -/
theorem exec_framewr_started (hctx : s.ctx = true) (hready : s.pstate = .ready) (hfbv : s.fbv = true)
    (hoks : s.env.oks = true :: rest) :
    ∃ t, Streamed s t 0 rest ∧ exec .framewr s = ((chunkLoop s.len.toNat t).andThen (runFrom 5 [])).toOutcome := by
  obtain ⟨u, hu, hsent⟩ := sendStep_spec (.cmd s.cfg.opcRamwr) { resetTransfer s with seq := 2#5 } true rest hoks
  have hpin := pinset_sent s.cfg.dcData { u with seq := 3#5 } rest hsent.oks
  refine ⟨{ pinset .dc s.cfg.dcData { u with seq := 3#5 } with seq := 4#5 }, .of_sent ?_, ?_⟩
  · exact hsent.of_seq.trans (hpin.of_seq.seq 4#5)
  · have hlen : u.len = s.len := by rw [hsent.frame]; rfl
    have hcmd : cmd s.cfg.opcRamwr { resetTransfer { s with seq := 1#5 } with seq := 2#5 } = .ok u := hu
    have hadm : frameAdmitted s = true := by simp [frameAdmitted, readyAdmitted, hctx, hready, hfbv]
    simp only [exec, execFramewr, hadm, if_true, frameSteps, runFrom, plain, Res.andThen, hcmd, pinset_len, hlen]

/-- The first `j` turns of the loop, their chunks in the array and their writes granted (R101, R102). -/
theorem chunkLoop_streamed {u : State} (j k : Nat) (hu : Streamed s u 0 (List.replicate j true ++ rest))
    (hj : j ≤ chunkCount s.cfg s.len.toNat) (hin : min (j * s.cfg.chunk.val) s.len.toNat ≤ fbSize s.cfg) :
    ∃ t, chunkLoop (j + k) u = chunkLoop k t ∧ Streamed s t j rest := by
  induction j generalizing k rest with
  | zero => exact ⟨u, by rw [Nat.zero_add], by simpa using hu⟩
  | succ j ih =>
    have hlt : j * s.cfg.chunk.val < s.len.toNat := (lt_chunkCount_iff _ _ _).1 hj
    have hmono : j * s.cfg.chunk.val ≤ (j + 1) * s.cfg.chunk.val := Nat.mul_le_mul_right _ (Nat.le_succ j)
    obtain ⟨t, ht, hstreamed⟩ := ih (k + 1) (by simpa [List.replicate_succ'] using hu) (Nat.le_of_succ_le hj) (by omega)
    obtain ⟨v, hv, hstreamed'⟩ := hstreamed.turn hlt hin k
    exact ⟨v, by rw [Nat.add_right_comm, Nat.add_assoc, ht, hv], hstreamed'⟩

/-- An admitted FRAMEWR whose command and first `j` chunks are granted comes to the turn after them, with `j` of the
loop's `LEN` turns used up. -/
theorem exec_framewr_streamed (j : Nat) (hctx : s.ctx = true) (hready : s.pstate = .ready) (hfbv : s.fbv = true)
    (hj : j ≤ chunkCount s.cfg s.len.toNat) (hin : min (j * s.cfg.chunk.val) s.len.toNat ≤ fbSize s.cfg)
    (hoks : s.env.oks = List.replicate (j + 1) true ++ rest) :
    ∃ t, Streamed s t j rest ∧ exec .framewr s = ((chunkLoop (s.len.toNat - j) t).andThen (runFrom 5 [])).toOutcome := by
  obtain ⟨u, hu, hexec⟩ := exec_framewr_started hctx hready hfbv hoks
  obtain ⟨t, hloop, ht⟩ := chunkLoop_streamed j (s.len.toNat - j) hu hj hin
  rw [Nat.add_sub_cancel' (hj.trans (chunkCount_le _ _))] at hloop
  exact ⟨t, ht, by rw [hexec, hloop]⟩

/-- A FRAMEWR of a frame in the array, all writes granted, completes after its last chunk with `OFF` at `LEN` (R101). -/
theorem exec_framewr_granted (hctx : s.ctx = true) (hready : s.pstate = .ready) (hfbv : s.fbv = true)
    (hlen : s.len.toNat ≤ fbSize s.cfg)
    (hoks : s.env.oks = List.replicate (chunkCount s.cfg s.len.toNat + 1) true ++ rest) :
    ∃ t, Streamed s t (chunkCount s.cfg s.len.toNat) rest ∧ t.off = s.len ∧ exec .framewr s = .next (complete t) := by
  obtain ⟨t, ht, hexec⟩ := exec_framewr_streamed _ hctx hready hfbv le_rfl ((min_le_right _ _).trans hlen) hoks
  have hoff : t.off = s.len := BitVec.eq_of_toNat_eq (by rw [ht.off, min_eq_right (le_chunkCount_mul _ _)])
  refine ⟨t, ht, hoff, ?_⟩
  rw [hexec, chunkLoop_done _ (by rw [hoff, ht.len])]
  rfl

end

end Sys2Proof.Machine
end

section
/-! PROOFS. The frame on its way from LOAD to the wire, and the end of the array (spec/20_memory.md R35, R37, R42). -/

namespace Sys2Proof.Machine

open Sys2Proof.Safety

/-! ## The end of the array -/

/-- The chunks that lie in the array: the last of them ends at its end at the latest, and one more passes it. -/
theorem exists_last_chunk_in_array (c : Cfg) :
    ∃ j, j * c.chunk.val ≤ fbSize c ∧ fbSize c < (j + 1) * c.chunk.val :=
  ⟨fbSize c / c.chunk.val, Nat.div_mul_le_self _ _, (Nat.div_lt_iff_lt_mul c.chunk.2).1 (Nat.lt_succ_self _)⟩

/-- Settles O40: the chunks that lie in the array are sent, and the next one, which begins before `LEN`, passes it. -/
theorem framewrStopsAtTheEndOfTheArray : Obligations.FramewrStopsAtTheEndOfTheArray := by
  intro s rest hctx hready hfbv hlen hoks
  obtain ⟨j, hfit, hpast⟩ := exists_last_chunk_in_array s.cfg
  have hbefore : j * s.cfg.chunk.val < s.len.toNat := hfit.trans_lt hlen
  have hcount : j < chunkCount s.cfg s.len.toNat := (lt_chunkCount_iff _ _ _).2 hbefore
  have hsplit : chunkCount s.cfg s.len.toNat + 1 = j + 1 + (chunkCount s.cfg s.len.toNat - j) := by omega
  rw [hsplit, List.replicate_add, List.append_assoc] at hoks
  obtain ⟨t, ht, hexec⟩ := exec_framewr_streamed j hctx hready hfbv hcount.le ((min_le_left _ _).trans hfit) hoks
  have hturns : s.len.toNat - j = s.len.toNat - j - 1 + 1 := by
    have := chunkCount_le s.cfg s.len.toNat
    omega
  have hout : fbSize t.cfg < t.off.toNat + chunkLen t.cfg t.len.toNat t.off.toNat := by
    rw [ht.next_end hbefore, ht.cfg]
    exact lt_min hpast hlen
  rw [hexec, hturns, chunkLoop_past_array _ (ht.off_lt hbefore) hout]
  rfl

/-! ## What LOAD leaves -/

/-- A LOAD that passes its checks completes with its frame in place (R107). -/
theorem exec_load_valid {w h : Word32} {bpp : Word16} {src : List Byte} {s : State}
    (hvalid : imageValid s.cfg w h bpp = true) (hsrc : frameLen s.cfg bpp.toNat ≤ src.length) :
    exec (.load w h bpp src) s = .next (complete (loadFrame bpp src s)) := by
  simp only [exec, execLoad, hvalid, if_true, Nat.not_lt.2 hsrc, if_false]

/-- Reading back the range that was filled. -/
theorem Memory.readRange_fillFrom (m : Memory) (bytes : List Byte) (h : m.wf = true) :
    (m.fillFrom 0 bytes).readRange 0 bytes.length = bytes := by
  refine List.ext_getElem (Memory.length_readRange _ _ _) fun a _ ha => ?_
  have hcell : (m.fillFrom 0 bytes).read? a = some bytes[a] := by
    rw [Memory.read?_fillFrom _ _ _ _ h, if_pos ⟨Nat.zero_le a, by omega⟩, Nat.sub_zero, List.getElem?_eq_getElem ha]
  simp [Memory.readRange, Memory.read, hcell]

/-- The frame reads back from the array as LOAD made it (R37, R109). -/
theorem loadFrame_readRange {bpp : Word16} {src : List Byte} {s : State} (hsrc : frameLen s.cfg bpp.toNat ≤ src.length) :
    (loadFrame bpp src s).fb.readRange 0 (frameLen s.cfg bpp.toNat) = frameOf s.cfg bpp src := by
  rw [← length_frameOf hsrc]
  exact Memory.readRange_fillFrom _ _ (Memory.wf_unspecified _)

/-! ## The frame on the wire -/

/-- The symbols of a FRAMEWR whose writes are granted: the command, then every byte of the frame at the data level. -/
theorem framewr_symbols (c : Cfg) (m : Memory) (len : Nat) :
    (frameStartMarks c ++ chunkMarks c m len (chunkCount c len)).flatMap markSymbols =
      symbolOf c.dcCmd c.opcRamwr :: (m.readRange 0 len).map (symbolOf c.dcData) := by
  have hbytes := flatMap_chunkAt c m len (chunkCount c len)
  rw [min_eq_right (le_chunkCount_mul c len)] at hbytes
  simp [frameStartMarks, cmdMarks, chunkMarks, markSymbols, transactionSymbols, ← hbytes, List.map_flatMap,
    List.flatMap_map]

/-- No write of a FRAMEWR whose writes are granted failed. -/
theorem framewr_marks_granted (c : Cfg) (m : Memory) (len n : Nat) (dc : Level) (bytes : List Byte) :
    Mark.spiWrite dc bytes false ∉ frameStartMarks c ++ chunkMarks c m len n := by
  simp [frameStartMarks, cmdMarks, chunkMarks]

/-- A FRAMEWR of a frame in the array, all writes granted, puts the command and then `FB[0 .. LEN)` on the wire (R37, R101),
and counts every byte. -/
theorem exec_framewr_wire {s : State} {rest : List Bool} (hctx : s.ctx = true) (hready : s.pstate = .ready)
    (hfbv : s.fbv = true) (hlen : s.len.toNat ≤ fbSize s.cfg)
    (hoks : s.env.oks = List.replicate (chunkCount s.cfg s.len.toNat + 1) true ++ rest) :
    ∃ u new, exec .framewr s = .next u ∧ u.trace = s.trace ++ new ∧ u.count = s.len ∧
      ∀ sent, wireSymbols sent new =
        symbolOf s.cfg.dcCmd s.cfg.opcRamwr :: (s.fb.readRange 0 s.len.toNat).map (symbolOf s.cfg.dcData) := by
  obtain ⟨t, ht, hoff, hexec⟩ := exec_framewr_granted hctx hready hfbv hlen hoks
  obtain ⟨new, hnew⟩ := ((later_keptByCalls s).exec .framewr s _ (.refl s) hexec).trace
  have hmarks : new.map markOf = frameStartMarks s.cfg ++ chunkMarks s.cfg s.fb s.len.toNat (chunkCount s.cfg s.len.toNat) := by
    have hall := marks_append s (complete t) new hnew.symm
    exact List.append_cancel_left (hall.symm.trans (ht.marks.trans (List.append_assoc _ _ _)))
  refine ⟨complete t, new, hexec, hnew.symm, ht.count.trans hoff, fun sent => ?_⟩
  rw [wireSymbols_granted sent new (by rw [hmarks]; exact framewr_marks_granted _ _ _ _), hmarks, framewr_symbols]

/-- Settles O41: FRAMEWR sends the range `0 .. LEN` of the array, and LOAD left the frame in that range. -/
theorem loadedImageReachesTheWire : Obligations.LoadedImageReachesTheWire := by
  intro w h bpp src s rest hctx hready hvalid hsrc hoks
  have hlen : (complete (loadFrame bpp src s)).len.toNat = frameLen s.cfg bpp.toNat := toNat_frameLen s.cfg bpp.toNat
  obtain ⟨u, new, hexec, htrace, hcount, hwire⟩ :=
    exec_framewr_wire (s := complete (loadFrame bpp src s)) (rest := rest) hctx hready rfl
      (hlen.trans_le (frameLen_le_fbSize _ _)) (by rw [hlen]; exact hoks)
  refine ⟨_, u, new, exec_load_valid hvalid hsrc, hexec, htrace, by rw [hcount, hlen], fun sent => ?_⟩
  rw [hwire, hlen, complete_fb, loadFrame_readRange hsrc]
  rfl

end Sys2Proof.Machine
end

section
/-! PROOFS. The encoder and the decoder (spec/30_encoding.md R49, R53 to R55, R66): what the decoder makes of each part the
encoder writes, and the words of the tables. -/

namespace Sys2Proof

/-! ## Host records -/

/-- Counted bytes read back where the count is their number. -/
theorem counted_length {n : Nat} {bytes : List Byte} (i : Instr) (h : bytes.length = n) : counted n bytes i = .ok i := by
  rw [counted, if_pos h]

/-- A number of bytes within the operand `n` is what the operand holds (R53). -/
theorem toNat_ofNat_of_fitsBits {width : Nat} {bytes : List Byte} (h : fitsBits width bytes = true) :
    bytes.length = (BitVec.ofNat width bytes.length).toNat := by
  rw [BitVec.toNat_ofNat, Nat.mod_eq_of_lt (of_decide_eq_true h)]

/-- LOAD's operands read back from their bytes (R53). -/
theorem decodeLoad_bytes (width height : Word32) (bpp : Word16) {src : List Byte} (h : fitsBits 32 src = true) :
    decodeLoad (bytes32 width ++ bytes32 height ++ bytes16 bpp ++ bytes32 (BitVec.ofNat 32 src.length) ++ src) =
      .ok (.load width height bpp src) := by
  simp only [bytes32, bytes16, List.cons_append, List.nil_append, decodeLoad, le32_bytes, le16_bytes]
  exact counted_length _ (toNat_ofNat_of_fitsBits h)

/-- DCS's operands read back from their bytes (R53). -/
theorem decodeDcs_bytes (opcode : Byte) {payload : List Byte} (h : fitsBits 16 payload = true) :
    decodeDcs (opcode :: (bytes16 (BitVec.ofNat 16 payload.length) ++ payload)) = .ok (.dcs opcode payload) := by
  simp only [bytes16, List.cons_append, List.nil_append, decodeDcs, le16_bytes]
  exact counted_length _ (toNat_ofNat_of_fitsBits h)

/-- An `op` byte outside 0x01 .. 0x08 selects no operation (R61). -/
theorem decodeHost_unknown {op : Byte} (h : op = 0#8 ∨ 8 < op.toNat) (operands : List Byte) :
    decodeHost (op :: operands) = .error (.unknownOp op) := by
  have hne (k : Byte) (hk : 1 ≤ k.toNat ∧ k.toNat ≤ 8) : op ≠ k := by
    rintro rfl
    rcases h with rfl | h
    · exact absurd hk.1 (by decide)
    · omega
  simp only [decodeHost, hne 0x01#8 (by decide), hne 0x02#8 (by decide), hne 0x03#8 (by decide), hne 0x04#8 (by decide),
    hne 0x05#8 (by decide), hne 0x06#8 (by decide), hne 0x07#8 (by decide), hne 0x08#8 (by decide), if_false]

/-! ## Wire symbols -/

/-- Configurations whose symbols can be told apart (R49, R55). -/
theorem codesDistinct_iff (c : Cfg) : c.codesDistinct = true ↔ c.dcCmd ≠ c.dcData ∧ c.opcodes.Nodup := by
  simp [Cfg.codesDistinct]

/-- A symbol at the data level is DAT, whatever its byte (R66). -/
theorem decodeWire_data {c : Cfg} (h : c.dcCmd ≠ c.dcData) (b : Byte) :
    decodeWire c (symbolOf c.dcData b) [] = .ok (.dat b) := by
  simp [decodeWire, noOperands, h.symm]

/-- A symbol at the command level whose byte no specific row takes is CMD (R66). -/
theorem decodeWire_generic {c : Cfg} {b : Byte} (h : b ∉ c.opcodes) :
    decodeWire c (symbolOf c.dcCmd b) [] = .ok (.cmd b) := by
  simp only [Cfg.opcodes, List.mem_cons, List.not_mem_nil, or_false, not_or] at h
  simp [decodeWire, noOperands, h]

/-- A wire command is read back from its own command byte: the rows tried before it have other bytes (R55, R66). -/
theorem decodeWire_wireFrame {c : Cfg} (h : c.opcodes.Nodup) {i : Instr} {opcode : Byte} {params : List Byte}
    (hi : Safety.wireFrameOf c i = some (opcode, params)) : decodeWire c (symbolOf c.dcCmd opcode) params = .ok i := by
  have hrows := List.nodup_reverse.2 h
  simp only [Cfg.opcodes, List.reverse_cons, List.reverse_nil, List.nil_append, List.cons_append, List.nodup_cons,
    List.mem_cons, List.not_mem_nil, or_false, not_or] at hrows
  obtain ⟨hcolmod, hmadctl, hramwr, hpaset, hcaset, hdispon, hslpout, -⟩ := hrows
  cases i with
  | swreset => cases hi; simp [decodeWire, noOperands]
  | slpout => cases hi; simp [decodeWire, noOperands, hslpout]
  | dispon => cases hi; simp [decodeWire, noOperands, hdispon]
  | caset first last => cases hi; simp [decodeWire, twoParams, hcaset]
  | paset first last => cases hi; simp [decodeWire, twoParams, hpaset]
  | ramwr => cases hi; simp [decodeWire, noOperands, hramwr]
  | madctl m => cases hi; simp [decodeWire, oneParam, hmadctl]
  | colmod m => cases hi; simp [decodeWire, oneParam, hcolmod]
  | _ => exact nomatch hi

/-! ## Decoding what was encoded -/

/-- Settles O48: a host record is read back from its operand bytes, a wire command by its symbol, a call as it is. -/
theorem decodeReadsBackWhatEncodeWrote : Obligations.DecodeReadsBackWhatEncodeWrote := by
  intro c i hc hi
  obtain ⟨hlevels, hcodes⟩ := (codesDistinct_iff c).1 hc
  cases i with
  | load width height bpp src => exact decodeLoad_bytes width height bpp hi
  | openBus => rfl
  | init => rfl
  | setwin x1 y1 x2 y2 => rfl
  | framewr => rfl
  | pwroff => rfl
  | close => rfl
  | dcs opcode payload => exact decodeDcs_bytes opcode hi
  | swreset => exact decodeWire_wireFrame hcodes rfl
  | slpout => exact decodeWire_wireFrame hcodes rfl
  | dispon => exact decodeWire_wireFrame hcodes rfl
  | caset first last => exact decodeWire_wireFrame hcodes rfl
  | paset first last => exact decodeWire_wireFrame hcodes rfl
  | ramwr => exact decodeWire_wireFrame hcodes rfl
  | madctl m => exact decodeWire_wireFrame hcodes rfl
  | colmod m => exact decodeWire_wireFrame hcodes rfl
  | cmd b => exact decodeWire_generic (by simpa [wellFormed] using hi)
  | dat b => exact decodeWire_data hlevels b
  | pinset l v => rfl
  | pinget l => rfl
  | delay d => rfl
  | spiwr bytes => rfl
  | wrc bytes => rfl

/-- Settles O50: each word is decoded under the default configuration, whose bytes are the table's. -/
theorem tableWordsDecode : Obligations.TableWordsDecode :=
  ⟨rfl, rfl, rfl, rfl, rfl, rfl, rfl, rfl⟩

end Sys2Proof

namespace Sys2Proof.Machine

/-- A waiting request that the decoder rejects is taken and turned away: the other branch of `step`. -/
theorem step_of_decode_error {s : State} {r : Request} {rest : List Request} {e : DecodeError}
    (hreq : s.requests = r :: rest) (hdec : decode s.cfg r = .error e) : step s = decodeRejected e (taken rest s) := by
  simp only [step, hreq, hdec]

/-- Settles O45: the record selects no operation, and such a request is taken and refused. -/
theorem unknownOperationIsAUsageError : Obligations.UnknownOperationIsAUsageError := by
  intro s op bytes rest hreq hop
  have hdec : decode s.cfg (.host (op :: bytes)) = .error (.unknownOp op) := decodeHost_unknown hop bytes
  rw [step_of_decode_error hreq hdec]
  rfl

end Sys2Proof.Machine
end

section
/-! PROOFS. The frames on the wire (spec/30_encoding.md R49 to R51, R63): a receiver's reading, the frames of granted writes,
and the size of every write. -/

namespace Sys2Proof.Machine

open Sys2Proof.Safety

section
variable {c : Cfg} {s t : State} {i : Instr} {rest : List Bool}

/-! ## A receiver's reading -/

/-- Parameters are data of the command before them, up to what follows (R63). -/
theorem leadingData_data (h : c.dcCmd ≠ c.dcData) (ps : List Byte) (ws : List Symbol) :
    leadingData c (ps.map (symbolOf c.dcData) ++ ws) = ps ++ leadingData c ws := by
  induction ps with
  | nil => rfl
  | cons p ps ih => simp [leadingData, h.symm, ih]

/-- Parameters begin no frame (R63). -/
theorem readFrames_data (h : c.dcCmd ≠ c.dcData) (ps : List Byte) (ws : List Symbol) :
    readFrames c (ps.map (symbolOf c.dcData) ++ ws) = readFrames c ws := by
  induction ps with
  | nil => rfl
  | cons p ps ih => simp [readFrames, h.symm, ih]

/-- What a receiver reads of a frame and of what follows it: the data end where the next command begins (R51, R63). -/
theorem readFrames_frameSymbols (h : c.dcCmd ≠ c.dcData) (opcode : Byte) (ps : List Byte) (ws : List Symbol) :
    readFrames c (frameSymbols c opcode ps ++ ws) = ⟨opcode, ps ++ leadingData c ws⟩ :: readFrames c ws := by
  simp [frameSymbols, readFrames, leadingData_data h, readFrames_data h]

/-- Before the command of a first frame there are no data. -/
theorem leadingData_frames (c : Cfg) (frames : List WireFrame) :
    leadingData c (frames.flatMap fun f => frameSymbols c f.opcode f.data) = [] := by
  cases frames with
  | nil => rfl
  | cons f frames => simp [leadingData, frameSymbols]

/-- A receiver reads back every sequence of command frames by the `d` bit alone (R51, R63). -/
theorem readFrames_frames (h : c.dcCmd ≠ c.dcData) (frames : List WireFrame) :
    readFrames c (frames.flatMap fun f => frameSymbols c f.opcode f.data) = frames := by
  induction frames with
  | nil => rfl
  | cons f frames ih => rw [List.flatMap_cons, readFrames_frameSymbols h, leadingData_frames, List.append_nil, ih]

/-! ## The symbols of granted frames -/

/-- An instruction that appends marks of granted writes puts the symbols of those marks on the wire. -/
theorem exec_granted_wire {marks : List Mark} (hexec : exec i s = .next t) (hmarks : t.marks = s.marks ++ marks)
    (hgranted : ∀ dc bytes, Mark.spiWrite dc bytes false ∉ marks) :
    ∃ t new, exec i s = .next t ∧ t.trace = s.trace ++ new ∧ ∀ sent, wireSymbols sent new = marks.flatMap markSymbols := by
  obtain ⟨new, hnew⟩ := ((later_keptByCalls s).exec i s t (.refl s) hexec).trace
  have hnew_marks : new.map markOf = marks :=
    List.append_cancel_left ((marks_append s t new hnew.symm).symm.trans hmarks)
  refine ⟨t, new, hexec, hnew.symm, fun sent => ?_⟩
  rw [wireSymbols_granted sent new (by rwa [hnew_marks]), hnew_marks]

/-- A wire command used as an operation sends its frame (R51, R65). -/
theorem exec_wireFrame {opcode : Byte} {params : List Byte} (hi : wireFrameOf s.cfg i = some (opcode, params)) :
    exec i s = wireCommand opcode params s := by
  cases i with
  | swreset => cases hi; rfl
  | slpout => cases hi; rfl
  | dispon => cases hi; rfl
  | caset first last => cases hi; rfl
  | paset first last => cases hi; rfl
  | ramwr => cases hi; rfl
  | madctl m => cases hi; rfl
  | colmod m => cases hi; rfl
  | _ => exact nomatch hi

/-- A granted wire command puts its frame on the wire. -/
theorem wireCommand_wire {opcode : Byte} {params : List Byte} (hctx : s.ctx = true)
    (hi : wireFrameOf s.cfg i = some (opcode, params)) (hoks : s.env.oks = List.replicate (params.length + 1) true ++ rest) :
    ∃ t new, exec i s = .next t ∧ t.trace = s.trace ++ new ∧
      ∀ sent, wireSymbols sent new = frameSymbols s.cfg opcode params := by
  obtain ⟨u, hu, hsent⟩ := sendFrame_ok opcode params s rest hoks
  have hexec : exec i s = .next { u with reply := .done } := by
    rw [exec_wireFrame hi, wireCommand, withHandle, if_pos hctx, hu]
    rfl
  rw [← frameMarks_symbols]
  exact exec_granted_wire hexec hsent.marks (frameMarks_granted _ _ _)

/-- A granted DCS puts the frame of its filtered payload on the wire (R85). -/
theorem execDcs_wire {opcode : Byte} {payload : List Byte} (hctx : s.ctx = true) (hready : s.pstate = .ready)
    (hoks : s.env.oks = List.replicate ((coordFilter s.cfg opcode payload).length + 1) true ++ rest) :
    ∃ t new, exec (.dcs opcode payload) s = .next t ∧ t.trace = s.trace ++ new ∧
      ∀ sent, wireSymbols sent new = frameSymbols s.cfg opcode (coordFilter s.cfg opcode payload) := by
  obtain ⟨u, hu, hsent⟩ := sendFrame_ok opcode (coordFilter s.cfg opcode payload) { s with seq := 1#5 } rest hoks
  have hadm : readyAdmitted s = true := by simp [readyAdmitted, hctx, hready]
  have hdcs : sendDcs opcode payload { s with seq := 1#5 } = .ok u := hu
  have hexec : exec (.dcs opcode payload) s = .next (complete { u with seq := 2#5 }) := by
    simp only [exec, execDcs, hadm, if_true, runFrom, hdcs, Res.andThen]
    rfl
  rw [← frameMarks_symbols]
  exact exec_granted_wire hexec hsent.marks (frameMarks_granted _ _ _)

/-- The marks of SETWIN's six sends are those of its two frames (R87). -/
theorem sentMarks_windowSends (c : Cfg) (x1 y1 x2 y2 : Byte) :
    sentMarks c 6 (windowSends c x1 y1 x2 y2) =
      frameMarks c c.opcCaset [x1, x2] ++ frameMarks c c.opcPaset [y1, y2] := rfl

/-- A granted SETWIN puts the frames of CASET and PASET on the wire (R87). -/
theorem execSetwin_wire {x1 y1 x2 y2 : Byte} (hctx : s.ctx = true) (hready : s.pstate = .ready)
    (hrange : windowInRange s.cfg x1 y1 x2 y2 = true) (hoks : s.env.oks = List.replicate 6 true ++ rest) :
    ∃ t new, exec (.setwin x1 y1 x2 y2) s = .next t ∧ t.trace = s.trace ++ new ∧
      ∀ sent, wireSymbols sent new =
        frameSymbols s.cfg s.cfg.opcCaset [x1, x2] ++ frameSymbols s.cfg s.cfg.opcPaset [y1, y2] := by
  obtain ⟨u, hu, hsent⟩ := runFrom_sends_ok (.cmd s.cfg.opcCaset) (windowSends s.cfg x1 y1 x2 y2).tail 1 s rest hoks
  have hadm : readyAdmitted s = true := by simp [readyAdmitted, hctx, hready]
  have hsteps : runFrom 1 (windowSteps s.cfg x1 y1 x2 y2) s = .ok u := hu
  have hexec : exec (.setwin x1 y1 x2 y2) s = .next (complete u) := by
    simp only [exec, execSetwin, hadm, hrange, if_true, hsteps]
    rfl
  have hmarks : u.marks = s.marks ++ (frameMarks s.cfg s.cfg.opcCaset [x1, x2] ++ frameMarks s.cfg s.cfg.opcPaset [y1, y2]) :=
    sentMarks_windowSends s.cfg x1 y1 x2 y2 ▸ hsent.marks
  rw [← frameMarks_symbols, ← frameMarks_symbols, ← List.flatMap_append]
  refine exec_granted_wire hexec hmarks fun dc bytes h => ?_
  rcases List.mem_append.1 h with h | h
  · exact frameMarks_granted _ _ _ _ _ h
  · exact frameMarks_granted _ _ _ _ _ h

end

/-- Settles O49: the receiver's reading, and the symbols of each of the three kinds of sender. -/
theorem receiverReadsBackTheCommandFrames : Obligations.ReceiverReadsBackTheCommandFrames := by
  refine ⟨fun c frames h => readFrames_frames h frames, ?_, ?_, ?_⟩
  · intro s i opcode params rest hctx hi hoks
    exact wireCommand_wire hctx hi hoks
  · intro s opcode payload rest hctx hready hoks
    exact execDcs_wire hctx hready hoks
  · intro s x1 y1 x2 y2 rest hctx hready hx1 hx2 hy1 hy2 hoks
    exact execSetwin_wire hctx hready (by simp [windowInRange, hx1, hx2, hy1, hy2]) hoks

/-! ## The size of every write -/

/-- An entry without a time is no write. -/
theorem writeSized_of_untimed (c : Cfg) {e : Event} (he : untimed e = true) : writeSized c e = true := by
  cases e with
  | acquire r ok => rfl
  | configure w => rfl
  | free r => rfl
  | _ => exact nomatch he

/-- Every entry of a trace is sized when the last and those before it are. -/
theorem writesSized_append {c : Cfg} {tr : List Event} {e : Event} (h : ∀ x ∈ tr, writeSized c x = true)
    (he : writeSized c e = true) : ∀ x ∈ tr ++ [e], writeSized c x = true :=
  List.forall_mem_append.2 ⟨h, List.forall_mem_singleton.2 he⟩

/-- A platform call appends one entry, and only a write has a size to keep, which is legal where it is made (R70). -/
theorem writesSized_keptByCalls : KeptByCalls fun s => ∀ e ∈ s.trace, writeSized s.cfg e = true where
  depends _ _ htrace _ hcfg h := htrace ▸ hcfg ▸ h
  tick _ h := h
  pinset _ _ _ h := writesSized_append h rfl
  pinget _ _ h := writesSized_append h rfl
  delay _ _ h := writesSized_append h rfl
  spiwr _ _ hlen h := writesSized_append h hlen
  call _ _ he h := writesSized_append h (writeSized_of_untimed _ he)

/-- Settles O56: every platform call keeps the sizes, hence every step does. -/
theorem stepKeepsWritesWithinTheChunk : Obligations.StepKeepsWritesWithinTheChunk :=
  fun s t h ht => writesSized_keptByCalls.step s t h ht

end Sys2Proof.Machine
end

section
/-! PROOFS. Host operations come to their end (spec/60_exceptions.md R124, R125), and so does SHOW, without a handle
(spec/30_encoding.md R65). -/

namespace Sys2Proof.Machine

open Sys2Proof.Safety

/-! ## Sequences that stop at no fault -/

/-- A sequence that does not stop the machine: it completed or raised an error. -/
def Res.Returns (r : Res) : Prop := ∀ e, r ≠ .fault e

theorem Res.returns_ok (s : State) : (Res.ok s).Returns := nofun

theorem plain_returns (f : State → State) (s : State) : (plain f s).Returns := nofun

theorem Res.returns_err (e : Status) (s : State) : (Res.err e s).Returns := nofun

theorem Res.returns_andThen {r : Res} {f : State → Res} (hr : r.Returns) (hf : ∀ s, r = .ok s → (f s).Returns) :
    (r.andThen f).Returns := by
  cases r with
  | ok s => exact hf s rfl
  | err e s => exact nofun
  | fault e => exact absurd rfl (hr e)

/-- A list of steps none of which can stop the machine. -/
theorem runFrom_returns {fs : List Step} (hf : ∀ f ∈ fs, ∀ s, (f s).Returns) (k : Nat) (s : State) :
    (runFrom k fs s).Returns := by
  induction fs generalizing k s with
  | nil => exact Res.returns_ok _
  | cons f fs ih =>
    obtain ⟨hfirst, hrest⟩ := List.forall_mem_cons.1 hf
    exact Res.returns_andThen (hfirst _) fun t _ => ih hrest (k + 1) t

theorem Res.Holds.of_ok {P : State → Prop} {r : Res} {s : State} (h : r.Holds P) (hr : r = .ok s) : P s := by
  subst hr
  exact h

theorem Res.Returns.outcome {r : Res} (hr : r.Returns) : ∃ t, r.toOutcome = .next t := by
  cases r with
  | ok s => exact ⟨_, rfl⟩
  | err e s => exact ⟨_, rfl⟩
  | fault e => exact absurd rfl (hr e)

/-! ## The steps of the host operations -/

theorem sendStep_returns (x : Send) (s : State) : (sendStep x s).Returns := by
  obtain ⟨t, ht, -⟩ := sendStep_cases x s
  rw [ht]
  split
  · exact Res.returns_ok t
  · exact Res.returns_err _ t

theorem sendParams_returns (ps : List Byte) (s : State) : (sendParams ps s).Returns := by
  induction ps generalizing s with
  | nil => exact Res.returns_ok s
  | cons p ps ih => exact Res.returns_andThen (sendStep_returns (.dat p) s) fun t _ => ih t

theorem sendFrame_returns (opcode : Byte) (ps : List Byte) (s : State) : (sendFrame opcode ps s).Returns :=
  Res.returns_andThen (sendStep_returns (.cmd opcode) s) fun t _ => sendParams_returns ps t

theorem acquireStep_returns (c : Cfg) (got : List Resource) (r : Resource) (s : State) :
    (acquireStep c got r s).Returns := by
  rw [acquireStep_eq]
  split
  · exact Res.returns_ok _
  · exact Res.returns_err _ _

theorem settleStep_returns (c : Cfg) (s : State) : (settleStep c s).Returns := by
  unfold settleStep
  split
  · exact Res.returns_ok s
  · split
    · split
      · exact Res.returns_ok _
      · exact Res.returns_err _ s
    · exact Res.returns_ok s

theorem openSteps_return (c : Cfg) (s : State) : (runFrom 1 (openSteps c) s).Returns := by
  refine runFrom_returns ?_ 1 s
  simp only [openSteps, List.forall_mem_cons]
  exact ⟨acquireStep_returns _ _ _, acquireStep_returns _ _ _, acquireStep_returns _ _ _, acquireStep_returns _ _ _, nofun⟩

theorem bringUpSteps_return (c : Cfg) (s : State) : (runFrom 7 (bringUpSteps c) s).Returns := by
  refine runFrom_returns ?_ 7 s
  simp only [bringUpSteps, List.forall_mem_cons]
  exact ⟨plain_returns _, plain_returns _, plain_returns _, plain_returns _, plain_returns _, sendStep_returns (.cmd _),
    plain_returns _, plain_returns _, sendStep_returns (.cmd _), sendStep_returns (.dat _), sendStep_returns (.cmd _),
    sendStep_returns (.cmd _), sendStep_returns (.dat _), sendStep_returns (.cmd _), plain_returns _, plain_returns _, nofun⟩

theorem poweroffPins_return (c : Cfg) : ∀ f ∈ poweroffPins c, ∀ s, (f s).Returns := by
  simp only [poweroffPins, List.forall_mem_cons]
  exact ⟨plain_returns _, plain_returns _, plain_returns _, nofun⟩

theorem initRun_returns (s : State) : (initRun s).Returns := by
  unfold initRun afterPowerRead
  refine Res.returns_andThen ?_ fun t _ => bringUpSteps_return _ t
  split
  · exact runFrom_returns (List.forall_mem_append.2
      ⟨poweroffPins_return _, List.forall_mem_singleton.2 (plain_returns _)⟩) 2 _
  · exact runFrom_returns (List.forall_mem_singleton.2 (settleStep_returns _)) 6 _

theorem windowSteps_return (c : Cfg) (x1 y1 x2 y2 : Byte) (s : State) :
    (runFrom 1 (windowSteps c x1 y1 x2 y2) s).Returns := by
  refine runFrom_returns (fs := (windowSends c x1 y1 x2 y2).map sendStep) (fun f hf u => ?_) 1 s
  obtain ⟨x, -, rfl⟩ := List.mem_map.1 hf
  exact sendStep_returns x u

/-- The chunks of a frame that lies in the array never pass its end. -/
theorem chunkLoop_returns (k : Nat) {s : State} (h : s.len.toNat ≤ fbSize s.cfg) : (chunkLoop k s).Returns := by
  induction k generalizing s with
  | zero => exact Res.returns_ok s
  | succ k ih =>
    rw [chunkLoop_succ]
    split
    · next hoff =>
      have hin : s.off.toNat + chunkLen s.cfg s.len.toNat s.off.toNat ≤ fbSize s.cfg := by
        unfold chunkLen
        omega
      rw [if_pos hin]
      split
      · exact ih h
      · exact Res.returns_err _ _
    · exact Res.returns_ok s

/-- The steps before the chunks leave `LEN` as it is, so that the chunks stay in the array. -/
theorem frameSteps_return {s : State} (h : s.len.toNat ≤ fbSize s.cfg) : (runFrom 1 (frameSteps s.cfg) s).Returns := by
  refine Res.returns_andThen (plain_returns resetTransfer _) fun t ht => ?_
  cases ht
  refine Res.returns_andThen (sendStep_returns (.cmd _) _) fun u hu => ?_
  obtain ⟨d, tr, n, e, q, rfl⟩ := ((SendsOnly.refl _).send (.cmd s.cfg.opcRamwr)).of_ok hu
  refine Res.returns_andThen (plain_returns (pinset .dc s.cfg.dcData) _) fun v hv => ?_
  cases hv
  exact Res.returns_andThen (chunkLoop_returns _ h) fun _ _ => Res.returns_ok _

/-! ## The frame in the array -/

/-- A valid frame lies in the array `FB` (R17, R35). -/
def FrameFits (s : State) : Prop := s.fbv = true → s.len.toNat ≤ fbSize s.cfg

theorem FrameSound.fits {s : State} (h : FrameSound s) : FrameFits s :=
  fun hv => (h.valid hv).length.trans_le (frameLen_le_fbSize _ _)

theorem Effect.frameFits {i : Instr} {s t : State} (he : Effect i s t) (h : FrameFits s) : FrameFits t := by
  rcases he.frame with ⟨-, hlen, -, hfbv | ⟨-, hfbv⟩⟩ | ⟨-, hload⟩
  · rw [FrameFits, hfbv, hlen, he.cfg]
    exact h
  · intro hv
    exact nomatch hfbv.symm.trans hv
  · exact hload.fits

/-- A LOAD leaves a valid frame in the array or none. -/
theorem execLoad_frameFits {w h : Word32} {b : Word16} {src : List Byte} {s t : State}
    (ht : exec (.load w h b src) s = .next t) : FrameFits t := by
  simp only [exec, execLoad] at ht
  split at ht
  · next hvalid =>
    split at ht
    · cases ht
      exact nofun
    · next hlen =>
      cases ht
      exact (loadFrame_frameSound hvalid (not_lt.1 hlen)).complete.fits
  · cases ht
    exact nofun

/-! ## Host operations -/

/-- LOAD comes to its end from every state (R107, R110). -/
theorem exec_load_returns (w h : Word32) (b : Word16) (src : List Byte) (s : State) :
    ∃ t, exec (.load w h b src) s = .next t := by
  simp only [exec, execLoad]
  split
  · split
    · exact ⟨_, rfl⟩
    · exact ⟨_, rfl⟩
  · exact ⟨_, rfl⟩

/-- Every host operation comes to its end where a valid frame lies in the array (R124, R125). -/
theorem exec_host_returns {i : Instr} {s : State} (hi : i.format = .host) (h : FrameFits s) : ∃ t, exec i s = .next t := by
  cases i with
  | load width height bpp src => exact exec_load_returns width height bpp src s
  | openBus =>
    simp only [exec, execOpen]
    split
    · exact (Res.returns_andThen (openSteps_return _ s) fun _ _ => Res.returns_ok _).outcome
    · exact ⟨_, rfl⟩
  | init =>
    simp only [exec, execInit]
    split
    · exact (initRun_returns s).outcome
    · exact ⟨_, rfl⟩
  | setwin x1 y1 x2 y2 =>
    simp only [exec, execSetwin]
    split
    · split
      · exact (windowSteps_return _ _ _ _ _ s).outcome
      · exact ⟨_, rfl⟩
    · exact ⟨_, rfl⟩
  | framewr =>
    simp only [exec, execFramewr]
    split
    · next hadm =>
      exact (frameSteps_return (h (Bool.and_eq_true_iff.1 hadm).2)).outcome
    · exact ⟨_, rfl⟩
  | pwroff =>
    simp only [exec, execPwroff]
    split
    · exact (Res.returns_andThen (runFrom_returns (poweroffPins_return _) 1 s) fun _ _ => Res.returns_ok _).outcome
    · exact ⟨_, rfl⟩
  | close =>
    simp only [exec, execClose]
    split
    · exact ⟨_, rfl⟩
    · exact ⟨_, rfl⟩
  | dcs opcode payload =>
    simp only [exec, execDcs]
    split
    · exact (runFrom_returns (List.forall_mem_singleton.2 fun s => sendFrame_returns _ _ s) 1 s).outcome
    · exact ⟨_, rfl⟩
  | _ => exact nomatch hi

/-- CLOSE comes to its end without a handle, from every state (R98). -/
theorem execClose_closed (s : State) : ∃ t, exec .close s = .next t ∧ t.ctx = false := by
  simp only [exec, execClose]
  split
  · exact ⟨_, rfl, rfl⟩
  · next hctx => exact ⟨_, rfl, Bool.not_eq_true _ ▸ hctx⟩

/-- An OPEN that does not return OK has no handle to leave: it released what it had got (R90). -/
theorem execOpen_failed {s t : State} (hs : s.ctx = false) (ht : exec .openBus s = .next t) (hfail : t.status ≠ .ok) :
    t.ctx = false := by
  simp only [exec, execOpen] at ht
  split at ht
  · have hrun := openSteps_callsOnly s.cfg s
    cases hr : runFrom 1 (openSteps s.cfg) s with
    | ok u =>
      rw [hr] at ht
      cases ht
      exact absurd rfl hfail
    | err e u =>
      rw [hr] at ht hrun
      cases ht
      obtain ⟨tr, n, env, q, rfl⟩ := hrun
      exact hs
    | fault e => rw [hr] at ht; cases ht
  · cases ht
    exact hs

/-! ## SHOW -/

/-- What a SHOW must come to: an end without a handle. -/
def Closed (o : Host.Outcome State Fault Refusal) : Prop := ∃ t, o = .next t ∧ t.ctx = false

/-- Whatever an operation did, a CLOSE after it ends without a handle. -/
theorem closed_afterwards_close {o : Host.Outcome State Fault Refusal} (h : ∃ t, o = .next t) :
    Closed (afterwards o (exec .close)) := by
  obtain ⟨t, rfl⟩ := h
  exact execClose_closed (tick t)

/-- A DRAW comes to its end where a valid frame lies in the array (R65). -/
theorem runDraw_returns {s : State} (h : FrameFits s) : ∃ t, runDraw s = .next t := by
  obtain ⟨t, ht⟩ := exec_host_returns (i := .setwin 0#8 0#8 (BitVec.ofNat 8 (s.cfg.width.val - 1))
    (BitVec.ofNat 8 (s.cfg.height.val - 1))) rfl h
  have hfits : FrameFits (tick t) := (exec_effect ht).frameFits h
  rw [runDraw, ht, ifOk]
  split
  · exact exec_host_returns rfl hfits
  · exact ⟨t, rfl⟩

/-- INIT in SHOW leads to a CLOSE, whatever it returns (R65). -/
theorem initOrCleanUp_closed {s : State} (h : FrameFits s) : Closed (initOrCleanUp s) := by
  obtain ⟨t, ht⟩ := exec_host_returns (i := .init) rfl h
  have hfits : FrameFits (tick t) := (exec_effect ht).frameFits h
  rw [initOrCleanUp, ht]
  dsimp only
  split
  · exact closed_afterwards_close (runDraw_returns hfits)
  · exact closed_afterwards_close (exec_host_returns rfl hfits)

/-- What goes on only after an OK ends without a handle if what goes on does, and if there is none after an error. -/
theorem closed_ifOk {t : State} {f : State → Host.Outcome State Fault Refusal} (hok : Closed (f (tick t)))
    (hfail : t.status ≠ .ok → t.ctx = false) : Closed (ifOk (.next t) f) := by
  rw [ifOk]
  split
  · exact hok
  · next hs => exact ⟨t, rfl, hfail hs⟩

/-- From OPEN on, SHOW ends without a handle: OPEN leaves none when it fails, and when it returns OK a CLOSE follows. -/
theorem openAndShow_closed {s : State} (hctx : s.ctx = false) (h : FrameFits s) :
    Closed (ifOk (exec .openBus s) initOrCleanUp) := by
  obtain ⟨t, ht⟩ := exec_host_returns (i := .openBus) rfl h
  have hfits : FrameFits (tick t) := (exec_effect ht).frameFits h
  rw [ht]
  exact closed_ifOk (initOrCleanUp_closed hfits) (execOpen_failed hctx ht)

/-- A file that holds the header fields makes a LOAD (R111). -/
theorem imageRequest_load {file : List Byte} (h : 0x1E ≤ file.length) :
    ∃ width height bpp src, imageRequest file = some (.load width height bpp src) :=
  ⟨_, _, _, _, if_neg (Nat.not_lt.2 h)⟩

/-- LOAD has no part in the handle (R107, R110). -/
theorem execLoad_ctx {w h : Word32} {b : Word16} {src : List Byte} {s t : State}
    (ht : exec (.load w h b src) s = .next t) : t.ctx = s.ctx := by
  rcases (exec_effect ht).ctx with hctx | ⟨hi, -⟩ | ⟨hi, -⟩
  · exact hctx
  · exact nomatch hi
  · exact nomatch hi

/-- Settles O44: LOAD leaves a frame that FRAMEWR can send or none, and every path that opened the bus closes it. -/
theorem showEndsWithoutAHandle : Obligations.ShowEndsWithoutAHandle := by
  intro file s hctx hfile
  obtain ⟨width, height, bpp, src, hreq⟩ := imageRequest_load hfile
  obtain ⟨t, ht⟩ := exec_load_returns width height bpp src s
  have hclosed : t.ctx = false := (execLoad_ctx ht).trans hctx
  have hfits : FrameFits t := execLoad_frameFits ht
  rw [runShow, runLoadbmp, hreq, Option.map_some, ht, Option.map_some]
  simp only [Option.some.injEq]
  exact closed_ifOk (openAndShow_closed (s := tick t) hclosed hfits) fun _ => hclosed

end Sys2Proof.Machine
end

section
/-! PROOFS. The transport primitives and the generic symbols CMD and DAT, each run as an instruction of its own
(spec/40_bus_transport.md R67 to R73). -/

namespace Sys2Proof.Machine

open Sys2Proof.Safety

variable {s : State} {ok : Bool} {rest : List Bool}

/-! ## The handle -/

/-- With the handle a primitive runs (R67). -/
theorem withHandle_open (h : s.ctx = true) (run : State → Host.Outcome State Fault Refusal) :
    withHandle s run = run s :=
  if_pos h

/-- Without the handle a primitive only replies (R120). -/
theorem withHandle_closed (h : s.ctx = false) (run : State → Host.Outcome State Fault Refusal) :
    withHandle s run = .next { s with reply := .raised .stateError } :=
  if_neg (by simp [h])

theorem exec_cmd (b : Byte) (s : State) :
    exec (.cmd b) s = withHandle s fun s => (sendStep (.cmd b) s).toReply := rfl

theorem exec_dat (b : Byte) (s : State) :
    exec (.dat b) s = withHandle s fun s => (sendStep (.dat b) s).toReply := rfl

theorem exec_pinset (l : Line) (v : Level) (s : State) :
    exec (.pinset l v) s = withHandle s fun s => (Res.ok (pinset l v s)).toReply := rfl

theorem exec_pinget (l : Line) (s : State) :
    exec (.pinget l) s = withHandle s fun s => .next { (pinget l s).2 with reply := .level (pinget l s).1 } := rfl

theorem exec_spiwr (bytes : List Byte) (s : State) :
    exec (.spiwr bytes) s = withHandle s fun s =>
      if transferLength s.cfg bytes then replyAnswer (spiwr bytes s) else .refused .transferLength := rfl

/-- WRC is SPIWR with no PINSET (R73). -/
theorem exec_wrc (bytes : List Byte) (s : State) : exec (.wrc bytes) s = exec (.spiwr bytes) s := rfl

theorem wireCommand_closed (h : s.ctx = false) (opcode : Byte) (params : List Byte) :
    wireCommand opcode params s = .next { s with reply := .raised .stateError } :=
  withHandle_closed h _

/-- Settles O9: every wire command and every primitive but DELAY runs behind the check for the handle. -/
theorem primitiveWithoutHandleMakesNoCall : Obligations.PrimitiveWithoutHandleMakesNoCall := by
  intro i s hctx hi hd
  cases i with
  | swreset => exact wireCommand_closed hctx _ _
  | slpout => exact wireCommand_closed hctx _ _
  | dispon => exact wireCommand_closed hctx _ _
  | caset first last => exact wireCommand_closed hctx _ _
  | paset first last => exact wireCommand_closed hctx _ _
  | ramwr => exact wireCommand_closed hctx _ _
  | madctl m => exact wireCommand_closed hctx _ _
  | colmod m => exact wireCommand_closed hctx _ _
  | cmd b => rw [exec_cmd, withHandle_closed hctx]
  | dat b => rw [exec_dat, withHandle_closed hctx]
  | pinset l v => rw [exec_pinset, withHandle_closed hctx]
  | pinget l => rw [exec_pinget, withHandle_closed hctx]
  | delay d => exact absurd rfl (hd d)
  | spiwr bytes => rw [exec_spiwr, withHandle_closed hctx]
  | wrc bytes => rw [exec_wrc, exec_spiwr, withHandle_closed hctx]
  | _ => exact absurd rfl hi

/-! ## Lines and time -/

/-- Settles O1: PINSET behind the handle is the line update, its trace entry and one draw of time. -/
theorem pinsetSetsLineAndRecordsIt : Obligations.PinsetSetsLineAndRecordsIt := by
  intro l v s hctx
  simp only [exec_pinset, withHandle_open hctx, Res.toReply, pinset, emit, tick]

/-- Settles O2: PINGET behind the handle is its trace entry and one draw of time. -/
theorem pingetReturnsLineAndRecordsIt : Obligations.PingetReturnsLineAndRecordsIt := by
  intro l s hctx
  simp only [exec_pinget, withHandle_open hctx, pinget, emit, tick]

/-- Settles O3: the time that passes is the bound and one draw on top of it. -/
theorem delayWaitsAtLeastItsBound : Obligations.DelayWaitsAtLeastItsBound := by
  intro d s
  refine ⟨d + s.env.lag, Nat.le_add_right _ _, ?_⟩
  simp only [exec, execDelay, Res.toReply, delay, emit, Nat.add_assoc]

/-! ## SPI writes -/

/-- The sizes of a write that may be issued (R70). -/
theorem transferLength_iff (c : Cfg) (bytes : List Byte) :
    transferLength c bytes = true ↔ 1 ≤ bytes.length ∧ bytes.length ≤ c.chunk.val := by
  simp [transferLength]

/-- A write with a fixed answer: its entry, the time after the answer was drawn, and the answer to the caller (R70). -/
theorem replyAnswer_spiwr (h : s.env.oks = ok :: rest) (bytes : List Byte) :
    replyAnswer (spiwr bytes s) = .next { s with
      trace := s.trace ++ [.spiWrite s.lines.dc bytes ok s.now]
      now := s.now + s.env.afterOk.lag
      env := s.env.afterOk.afterLag
      reply := .answer ok } := by
  simp only [replyAnswer, spiwr, tick, emit, Env.ok_of_oks _ _ _ h]

/-- Settles O4: a legal size passes the check, and the write has the answer that is next. -/
theorem spiwrMakesOneTransaction : Obligations.SpiwrMakesOneTransaction := by
  intro bytes s ok rest hctx hpos hmax hoks
  have hlen : transferLength s.cfg bytes = true := (transferLength_iff _ _).2 ⟨hpos, hmax⟩
  have hused : s.env.afterOk.afterLag.oks = rest := congrArg List.tail hoks
  rw [exec_spiwr, withHandle_open hctx, if_pos hlen, replyAnswer_spiwr hoks]
  exact ⟨_, _, rfl, hused, rfl⟩

/-- Settles O5: WRC is SPIWR. -/
theorem wrcWritesWithoutPinset : Obligations.WrcWritesWithoutPinset := by
  intro bytes s ok rest hctx hpos hmax hoks
  rw [exec_wrc]
  exact spiwrMakesOneTransaction bytes s ok rest hctx hpos hmax hoks

/-- Settles O6: the check of the size fails before the write. -/
theorem oversizedWriteIsNeverIssued : Obligations.OversizedWriteIsNeverIssued := by
  intro bytes s hctx hsize
  have hlen : ¬ transferLength s.cfg bytes = true := by
    rw [transferLength_iff]
    omega
  have hspiwr : exec (.spiwr bytes) s = .refused .transferLength := by
    rw [exec_spiwr, withHandle_open hctx, if_neg hlen]
  exact ⟨hspiwr, (exec_wrc bytes s).trans hspiwr⟩

/-! ## CMD and DAT -/

/-- A send of its own does not number its steps (R19): it keeps `SEQ`. -/
theorem sendStep_seq {x : Send} {t : State} (h : sendStep x s = if ok then .ok t else .err .busError t) :
    t.seq = s.seq := by
  have hends := sendStep_sendsOnly x s
  rw [h] at hends
  cases ok with
  | true => exact hends.2
  | false => exact hends.2

/-- One send with a fixed answer, run on its own: the pin write, then the byte, and the answer or BusError to the caller;
the select line stays at the level of the send either way (R71, R72). -/
theorem sendStep_toReply (h : s.env.oks = ok :: rest) (x : Send) :
    ∃ t, (sendStep x s).toReply = .next t ∧ s.now ≤ t.now ∧ t.env.oks = rest ∧
      t.marks = s.marks ++ sendMarks s.cfg ok x ∧
      t = { s with
        lines := { s.lines with dc := sendLevel s.cfg x }
        trace := t.trace
        now := t.now
        env := t.env
        reply := if ok then .done else .raised .busError } := by
  obtain ⟨u, hu, hsent⟩ := sendStep_spec x s ok rest h
  have hframe := hsent.frame
  rw [sendStep_seq hu] at hframe
  refine ⟨{ u with reply := if ok then .done else .raised .busError }, ?_, hsent.time, hsent.oks, hsent.marks,
    congrArg (fun v : State => { v with reply := if ok then .done else .raised .busError }) hframe⟩
  rw [hu]
  cases ok with
  | true => rfl
  | false => rfl

/-- Settles O7: CMD is one send at the command level. -/
theorem cmdSetsCommandLevelThenWrites : Obligations.CmdSetsCommandLevelThenWrites := by
  intro b s ok rest hctx hoks
  rw [exec_cmd, withHandle_open hctx]
  exact sendStep_toReply hoks (.cmd b)

/-- Settles O8: DAT is one send at the data level. -/
theorem datSetsDataLevelThenWrites : Obligations.DatSetsDataLevelThenWrites := by
  intro b s ok rest hctx hoks
  rw [exec_dat, withHandle_open hctx]
  exact sendStep_toReply hoks (.dat b)

end Sys2Proof.Machine
end

section
/-! PROOFS. The wire commands, SETWIN, DCS and the coordinate filter (spec/41_panel_protocol.md R76 to R88). -/

namespace Sys2Proof.Machine

open Sys2Proof.Safety

section
variable {s u : State} {marks : List Mark} {d : Level} {rest : List Bool}

/-! ## The end of an operation that is made of sends -/

theorem Res.Holds.of_err {P : State → Prop} {r : Res} {e : Status} (h : r.Holds P) (hr : r = .err e s) : P s := by
  subst hr
  exact h

/-- `t` is where an operation made of sends ends: beside the sends only what `finish` writes has changed. -/
def Finished (finish : State → State) (s t : State) (marks : List Mark) (d : Level) (rest : List Bool) : Prop :=
  s.now ≤ t.now ∧ t.env.oks = rest ∧ t.marks = s.marks ++ marks ∧
    t = finish { s with lines := { s.lines with dc := d }, trace := t.trace, now := t.now, env := t.env }

/-- A host operation that completes writes `STATUS` and clears `SEQ` (R19, R21). -/
theorem Sent.completed (h : Sent s u marks d rest) : Finished complete s (complete u) marks d rest :=
  ⟨h.time, h.oks, h.marks, (congrArg complete h.frame :)⟩

/-- A host operation that raises an error writes `STATUS` and clears `SEQ` (R124). -/
theorem Sent.raised (h : Sent s u marks d rest) (e : Status) :
    Finished (raiseStatus e) s (raiseStatus e u) marks d rest :=
  ⟨h.time, h.oks, h.marks, (congrArg (raiseStatus e) h.frame :)⟩

/-- What hands back a reply; a wire command writes nothing else (R71, R72). -/
def replying (r : Reply) (s : State) : State := { s with reply := r }

/-- A wire command, which does not number its steps, only replies. -/
theorem Sent.replied (h : Sent s u marks d rest) (hseq : u.seq = s.seq) (r : Reply) :
    Finished (replying r) s (replying r u) marks d rest := by
  have hframe := h.frame
  rw [hseq] at hframe
  exact ⟨h.time, h.oks, h.marks, congrArg (replying r) hframe⟩

/-! ## Wire commands -/

/-- With the handle a wire command is its command frame (R51, R65). -/
theorem exec_wireFrame_open {i : Instr} {opcode : Byte} {params : List Byte} (hctx : s.ctx = true)
    (hi : wireFrameOf s.cfg i = some (opcode, params)) : exec i s = (sendFrame opcode params s).toReply := by
  rw [exec_wireFrame hi, wireCommand, withHandle_open hctx]

/-- A granted wire command sends its whole frame. -/
theorem exec_wireFrame_granted {i : Instr} {opcode : Byte} {params : List Byte} (hctx : s.ctx = true)
    (hi : wireFrameOf s.cfg i = some (opcode, params)) (hoks : s.env.oks = List.replicate (params.length + 1) true ++ rest) :
    ∃ t, exec i s = .next t ∧ Finished (replying .done) s t (frameMarks s.cfg opcode params)
      (if params = [] then s.cfg.dcCmd else s.cfg.dcData) rest := by
  obtain ⟨u, hu, hsent⟩ := sendFrame_ok opcode params s rest hoks
  have hseq : u.seq = s.seq := ((sendFrame_sendsOnly opcode params s).of_ok hu).2
  exact ⟨_, by rw [exec_wireFrame_open hctx hi, hu]; rfl, hsent.replied hseq .done⟩

/-- Settles O10: each is a frame without parameters. -/
theorem plainWireCommandsSendOneByte : Obligations.PlainWireCommandsSendOneByte := by
  intro s rest i opcode hctx hoks hmem
  have hframe : ∀ p ∈ [(Instr.swreset, s.cfg.opcSwreset), (.slpout, s.cfg.opcSlpout), (.dispon, s.cfg.opcDispon),
      (.ramwr, s.cfg.opcRamwr)], wireFrameOf s.cfg p.1 = some (p.2, []) := by
    simp [wireFrameOf]
  exact exec_wireFrame_granted hctx (hframe _ hmem) hoks

/-- Settles O11: each is a frame with one parameter. -/
theorem modeWireCommandsSendOneParameter : Obligations.ModeWireCommandsSendOneParameter := by
  intro s rest m i opcode hctx hoks hmem
  have hframe : ∀ p ∈ [(Instr.colmod m, s.cfg.opcColmod), (.madctl m, s.cfg.opcMadctl)],
      wireFrameOf s.cfg p.1 = some (p.2, [m]) := by
    simp [wireFrameOf]
  exact exec_wireFrame_granted hctx (hframe _ hmem) hoks

/-- Settles O12: each is a frame with two parameters. -/
theorem windowWireCommandsSendTwoParameters : Obligations.WindowWireCommandsSendTwoParameters := by
  intro s rest a b i opcode hctx hoks hmem
  have hframe : ∀ p ∈ [(Instr.caset a b, s.cfg.opcCaset), (.paset a b, s.cfg.opcPaset)],
      wireFrameOf s.cfg p.1 = some (p.2, [a, b]) := by
    simp [wireFrameOf]
  exact exec_wireFrame_granted hctx (hframe _ hmem) hoks

/-- Settles O13: the frame ends at the failed write, and the error is the reply. -/
theorem wireCommandStopsAtFailedWrite : Obligations.WireCommandStopsAtFailedWrite := by
  intro s i opcode params k rest hctx hi hk hoks
  obtain ⟨u, hu, hsent⟩ := sendFrame_err opcode params k s rest hk hoks
  have hseq : u.seq = s.seq := ((sendFrame_sendsOnly opcode params s).of_err hu).2
  exact ⟨_, by rw [exec_wireFrame_open hctx hi, hu]; rfl, hsent.replied hseq (.raised .busError)⟩

/-! ## The coordinate filter -/

/-- The payload of a window command in the 4-byte form is cut to its positions 1 and 3 (R84). -/
theorem coordFilter_window {c : Cfg} {opcode : Byte} (h : opcode = c.opcCaset ∨ opcode = c.opcPaset) (p0 p1 p2 p3 : Byte) :
    coordFilter c opcode [p0, p1, p2, p3] = [p1, p3] :=
  if_pos h

/-- A payload of another length is sent as it is (R84). -/
theorem coordFilter_of_length_ne (c : Cfg) (opcode : Byte) {payload : List Byte} (h : payload.length ≠ 4) :
    coordFilter c opcode payload = payload := by
  unfold coordFilter
  split
  · exact absurd rfl h
  · rfl

/-- The payload of another command is sent as it is (R84). -/
theorem coordFilter_of_not_window {c : Cfg} {opcode : Byte} (h : ¬(opcode = c.opcCaset ∨ opcode = c.opcPaset))
    (payload : List Byte) : coordFilter c opcode payload = payload := by
  unfold coordFilter
  split
  · exact if_neg h
  · rfl

/-- Settles O31: the three cases of the filter; the 4-byte form is the first of them. -/
theorem coordinateFilterKeepsTheLowBytes : Obligations.CoordinateFilterKeepsTheLowBytes := by
  intro c opcode payload
  refine ⟨?_, coordFilter_of_length_ne c opcode, ?_, fun _ _ h => coordFilter_window h _ _ _ _⟩
  · rintro h p0 p1 p2 p3 rfl
    exact coordFilter_window h p0 p1 p2 p3
  · intro hcaset hpaset
    exact coordFilter_of_not_window (not_or.2 ⟨hcaset, hpaset⟩) payload

/-- A window of byte coordinates in the 4-byte form is filtered to the coordinates (R57, R84). -/
theorem coordFilter_payloadP4 {c : Cfg} {opcode : Byte} (h : opcode = c.opcCaset ∨ opcode = c.opcPaset) (a b : Byte) :
    coordFilter c opcode (payloadP4 (a.setWidth 16) (b.setWidth 16)) = [a, b] := by
  have hlow (x : Byte) : (x.setWidth 16).extractLsb' 0 8 = x := by
    rw [BitVec.extractLsb'_setWidth_of_le (by decide), BitVec.extractLsb'_eq_self]
  rw [payloadP4, coordFilter_window h, hlow, hlow]

/-! ## DCS -/

theorem readyAdmitted_of_ready (hctx : s.ctx = true) (hready : s.pstate = .ready) : readyAdmitted s = true := by
  simp [readyAdmitted, hctx, hready]

/-- The number that follows the one step of an operation is cleared at its end (R19). -/
theorem runFrom_singleton_toOutcome (f : Step) (k : Nat) (s : State) :
    (runFrom k [f] s).toOutcome = (f { s with seq := BitVec.ofNat 5 k }).toOutcome := by
  rw [runFrom]
  cases f { s with seq := BitVec.ofNat 5 k } with
  | ok t => rfl
  | err e t => rfl
  | fault e => rfl

/-- An admitted DCS is the frame of its filtered payload (R85, R86). -/
theorem exec_dcs_ready (hctx : s.ctx = true) (hready : s.pstate = .ready) (opcode : Byte) (payload : List Byte) :
    exec (.dcs opcode payload) s =
      (sendFrame opcode (coordFilter s.cfg opcode payload) { s with seq := 1#5 }).toOutcome := by
  rw [exec, execDcs, if_pos (readyAdmitted_of_ready hctx hready), runFrom_singleton_toOutcome]
  rfl

/-- Settles O32: the whole frame is sent. -/
theorem dcsSendsTheFilteredFrame : Obligations.DcsSendsTheFilteredFrame := by
  intro s opcode payload rest hctx hready hoks
  obtain ⟨u, hu, hsent⟩ := sendFrame_ok opcode (coordFilter s.cfg opcode payload) { s with seq := 1#5 } rest hoks
  exact ⟨_, by rw [exec_dcs_ready hctx hready, hu]; rfl, hsent.of_seq.completed⟩

/-- Settles O33: the frame ends at the failed write. -/
theorem dcsStopsAtFailedWrite : Obligations.DcsStopsAtFailedWrite := by
  intro s opcode payload k rest hctx hready hk hoks
  obtain ⟨u, hu, hsent⟩ := sendFrame_err opcode (coordFilter s.cfg opcode payload) k { s with seq := 1#5 } rest hk hoks
  exact ⟨_, by rw [exec_dcs_ready hctx hready, hu]; rfl, hsent.of_seq.raised .busError⟩

/-! ## SETWIN -/

/-- The coordinates of a window lie on the panel (R87). -/
theorem windowInRange_iff (c : Cfg) (x1 y1 x2 y2 : Byte) :
    windowInRange c x1 y1 x2 y2 = true ↔
      x1.toNat < c.width.val ∧ x2.toNat < c.width.val ∧ y1.toNat < c.height.val ∧ y2.toNat < c.height.val := by
  simp [windowInRange, and_assoc]

/-- An admitted SETWIN with its coordinates on the panel is its six sends (R87). -/
theorem exec_setwin_ready (hctx : s.ctx = true) (hready : s.pstate = .ready) {x1 y1 x2 y2 : Byte}
    (hrange : windowInRange s.cfg x1 y1 x2 y2 = true) :
    exec (.setwin x1 y1 x2 y2) s = (runFrom 1 ((windowSends s.cfg x1 y1 x2 y2).map sendStep) s).toOutcome := by
  rw [exec, execSetwin, if_pos (readyAdmitted_of_ready hctx hready), if_pos hrange]
  rfl

/-- Settles O28: the six sends are made, and their marks are those of the two frames. -/
theorem setwinProgramsTheWindow : Obligations.SetwinProgramsTheWindow := by
  intro s x1 y1 x2 y2 rest hctx hready hx1 hx2 hy1 hy2 hoks
  have hrange := (windowInRange_iff s.cfg x1 y1 x2 y2).2 ⟨hx1, hx2, hy1, hy2⟩
  obtain ⟨u, hu, hsent⟩ := runFrom_sends_ok (.cmd s.cfg.opcCaset) (windowSends s.cfg x1 y1 x2 y2).tail 1 s rest hoks
  have hexec : exec (.setwin x1 y1 x2 y2) s = .next (complete u) :=
    (exec_setwin_ready hctx hready hrange).trans (congrArg Res.toOutcome hu)
  rw [List.append_assoc, ← sentMarks_windowSends]
  exact ⟨_, hexec, hsent.completed⟩

/-- Settles O29: the sends end at the failed one. -/
theorem setwinStopsAtFailedWrite : Obligations.SetwinStopsAtFailedWrite := by
  intro s x1 y1 x2 y2 k x rest hctx hready hx1 hx2 hy1 hy2 hx hoks
  have hrange := (windowInRange_iff s.cfg x1 y1 x2 y2).2 ⟨hx1, hx2, hy1, hy2⟩
  obtain ⟨u, hu, hsent⟩ := runFrom_sends_err _ k 1 x s rest [] hx hoks
  rw [List.append_nil] at hu
  exact ⟨_, by rw [exec_setwin_ready hctx hready hrange, hu]; rfl, hsent.raised .busError⟩

/-- Settles O30: an admitted SETWIN fails the check of its coordinates, before the first send. -/
theorem setwinRejectsCoordinatesOffThePanel : Obligations.SetwinRejectsCoordinatesOffThePanel := by
  intro s x1 y1 x2 y2 hctx hready hoff
  have hrange : ¬ windowInRange s.cfg x1 y1 x2 y2 = true := by
    rw [windowInRange_iff]
    omega
  rw [exec, execSetwin, if_pos (readyAdmitted_of_ready hctx hready), if_neg hrange]
  rfl

/-! ## SETWIN and DCS -/

/-- A granted DCS with a window of byte coordinates in the 4-byte form sends the frame of the window command with these
coordinates, and leaves a state in which the next DCS is admitted (R84, R85). -/
theorem exec_dcs_window {opcode : Byte} (hctx : s.ctx = true) (hready : s.pstate = .ready)
    (hop : opcode = s.cfg.opcCaset ∨ opcode = s.cfg.opcPaset) (a b : Byte)
    (hoks : s.env.oks = List.replicate 3 true ++ rest) :
    ∃ t, exec (.dcs opcode (payloadP4 (a.setWidth 16) (b.setWidth 16))) s = .next t ∧ t.env.oks = rest ∧
      t.marks = s.marks ++ frameMarks s.cfg opcode [a, b] ∧ t.cfg = s.cfg ∧ t.ctx = true ∧ t.pstate = .ready := by
  have hfilter := coordFilter_payloadP4 hop a b
  obtain ⟨t, hexec, -, hused, hmarks, hframe⟩ := dcsSendsTheFilteredFrame s opcode
    (payloadP4 (a.setWidth 16) (b.setWidth 16)) rest hctx hready (by rwa [hfilter])
  rw [hfilter] at hmarks
  exact ⟨t, hexec, hused, hmarks, (congrArg State.cfg hframe :), (congrArg State.ctx hframe).trans hctx,
    (congrArg State.pstate hframe).trans hready⟩

/-- Settles O34: both send the frame of CASET and then the frame of PASET. -/
theorem setwinAgreesWithDcsInFourByteForm : Obligations.SetwinAgreesWithDcsInFourByteForm := by
  intro s x1 y1 x2 y2 rest hctx hready hx1 hx2 hy1 hy2 hoks
  obtain ⟨t, ht, -, -, htmarks, -⟩ :=
    setwinProgramsTheWindow s x1 y1 x2 y2 rest hctx hready hx1 hx2 hy1 hy2 hoks
  obtain ⟨u, hu, huoks, humarks, hucfg, huctx, huready⟩ :=
    exec_dcs_window (rest := List.replicate 3 true ++ rest) hctx hready (.inl rfl) x1 x2 hoks
  obtain ⟨v, hv, -, hvmarks, -⟩ := exec_dcs_window huctx huready (.inr (congrArg Cfg.opcPaset hucfg.symm)) y1 y2 huoks
  exact ⟨t, u, v, ht, hu, hv, by rw [hvmarks, humarks, hucfg, htmarks]⟩

end

end Sys2Proof.Machine
end

section
/-! PROOFS. When the sequencer's operations are admitted, and what they do where they are not
(spec/42_power_reset_sequencer.md R96, R98, R99). -/

namespace Sys2Proof.Machine

/-! ## Admission -/

theorem openAdmitted_iff (s : State) : openAdmitted s = true ↔ s.ctx = false ∧ s.fbv = true := by
  simp [openAdmitted]

theorem initAdmitted_iff (s : State) : initAdmitted s = true ↔ s.ctx = true ∧ s.pstate = .poweredOff := by
  simp [initAdmitted]

theorem readyAdmitted_iff (s : State) : readyAdmitted s = true ↔ s.ctx = true ∧ s.pstate = .ready := by
  simp [readyAdmitted]

theorem frameAdmitted_iff (s : State) :
    frameAdmitted s = true ↔ s.ctx = true ∧ s.pstate = .ready ∧ s.fbv = true := by
  simp [frameAdmitted, readyAdmitted_iff, and_assoc]

/-- Settles O42: each of the five begins with its check of R99. -/
theorem refusedOperationsChangeOnlyTheStatus : Obligations.RefusedOperationsChangeOnlyTheStatus := by
  intro s
  refine ⟨fun h => ?_, fun h => ?_, fun h => ?_, fun h => ?_⟩
  · have hopen : ¬ openAdmitted s = true := by rw [openAdmitted_iff]; grind
    rw [exec, execOpen, if_neg hopen, refuse]
  · have hinit : ¬ initAdmitted s = true := by rw [initAdmitted_iff]; grind
    rw [exec, execInit, if_neg hinit, refuse]
  · have hready : ¬ readyAdmitted s = true := by rw [readyAdmitted_iff]; grind
    refine ⟨fun x1 y1 x2 y2 => ?_, fun opcode payload => ?_⟩
    · rw [exec, execSetwin, if_neg hready, refuse]
    · rw [exec, execDcs, if_neg hready, refuse]
  · have hframe : ¬ frameAdmitted s = true := by rw [frameAdmitted_iff]; grind
    rw [exec, execFramewr, if_neg hframe, refuse]

/-! ## Without a handle -/

/-- Settles O25: the branch of PWROFF without a handle. -/
theorem pwroffWithoutHandleOnlyWarns : Obligations.PwroffWithoutHandleOnlyWarns := by
  intro s hctx
  rw [exec, execPwroff, if_neg (by simp [hctx]), complete]

/-- Settles O27: the branch of CLOSE without a handle. -/
theorem closeWithoutHandleDoesNothing : Obligations.CloseWithoutHandleDoesNothing := by
  intro s hctx
  rw [exec, execClose, if_neg (by simp [hctx]), complete]

end Sys2Proof.Machine
end

section
/-! PROOFS. OPEN, PWROFF and CLOSE, each call by call (spec/42_power_reset_sequencer.md R90, R96 to R98). -/

namespace Sys2Proof.Machine

open Sys2Proof.Safety

section
variable {s t u : State} {marks marks' : List Mark} {rest rest' : List Bool}

/-! ## Platform calls -/

/-- `t` is `s` after platform calls that drive no line: marks appended, some time passed, the answers used up to `rest`. -/
structure Called (s t : State) (marks : List Mark) (rest : List Bool) : Prop where
  only : CallsOnly s t
  marks : t.marks = s.marks ++ marks
  time : s.now ≤ t.now
  oks : t.env.oks = rest

theorem CallsOnly.trans (h : CallsOnly s t) (h' : CallsOnly t u) : CallsOnly s u := by
  obtain ⟨_, _, _, _, rfl⟩ := h
  obtain ⟨_, _, _, _, rfl⟩ := h'
  exact ⟨_, _, _, _, rfl⟩

/-- The state itself, where only the trace, the time and `SEQ` may differ. -/
theorem CallsOnly.eq (h : CallsOnly s t) : t = { s with trace := t.trace, now := t.now, env := t.env, seq := t.seq } := by
  obtain ⟨_, _, _, _, rfl⟩ := h
  rfl

theorem Called.trans (h : Called s t marks rest) (h' : Called t u marks' rest') :
    Called s u (marks ++ marks') rest' where
  only := h.only.trans h'.only
  marks := by rw [h'.marks, h.marks, List.append_assoc]
  time := h.time.trans h'.time
  oks := h'.oks

/-- `SEQ` is no part of what the calls do. -/
theorem Called.of_seq {q : BitVec 5} (h : Called { s with seq := q } t marks rest) : Called s t marks rest :=
  ⟨((CallsOnly.refl s).seq q).trans h.only, h.marks, h.time, h.oks⟩

theorem Called.seq (h : Called s t marks rest) (q : BitVec 5) : Called s { t with seq := q } marks rest :=
  ⟨h.only.seq q, h.marks, h.time, h.oks⟩

/-- Calls without a result use up no answer. -/
theorem platformCalls_called (es : List Event) (s : State) :
    Called s (platformCalls es s) (es.map markOf) s.env.oks := by
  induction es generalizing s with
  | nil => exact ⟨.refl s, (List.append_nil _).symm, le_rfl, rfl⟩
  | cons e es ih =>
    have hcall : Called s (platformCall e s) [markOf e] s.env.oks :=
      ⟨(CallsOnly.refl s).call e, marks_append s _ [e] rfl, Nat.le_add_right _ _, rfl⟩
    exact hcall.trans (ih _)

/-- An acquisition uses up one answer and records it (R90). -/
theorem acquire_called {ok : Bool} (r : Resource) (h : s.env.oks = ok :: rest) :
    Called s (acquire r s).2 [.acquire r ok] rest where
  only := ⟨_, _, _, _, rfl⟩
  marks := Env.ok_of_oks _ _ _ h ▸ marks_append s _ [.acquire r s.env.ok] rfl
  time := Nat.le_add_right _ _
  oks := congrArg List.tail h

/-! ## OPEN -/

/-- The marks of one resource that is acquired and configured (R90). -/
def acquiredMarks (c : Cfg) (r : Resource) : List Mark := .acquire r true :: (settingsOf c r).map .configure

/-- The turns of OPEN's loop over `rs`, with the resources `got` before them. -/
def acquireSteps (c : Cfg) (got : List Resource) : List Resource → List Step
  | [] => []
  | r :: rs => acquireStep c got r :: acquireSteps c (got ++ [r]) rs

theorem openSteps_eq (c : Cfg) : openSteps c = acquireSteps c [] handleResources := rfl

/-- A granted turn acquires and configures (R90). -/
theorem acquireStep_granted (c : Cfg) (got : List Resource) (r : Resource) (h : s.env.oks = true :: rest) :
    ∃ t, acquireStep c got r s = .ok t ∧ Called s t (acquiredMarks c r) rest := by
  have hacq := acquire_called r h
  have hset := platformCalls_called ((settingsOf c r).map .configure) (acquire r s).2
  rw [List.map_map, hacq.oks] at hset
  exact ⟨_, by rw [acquireStep_eq, if_pos (Env.ok_of_oks _ _ _ h)], hacq.trans hset⟩

/-- A failed turn releases what was got, in reverse order (R90). -/
theorem acquireStep_failed (c : Cfg) (got : List Resource) (r : Resource) (h : s.env.oks = false :: rest) :
    ∃ t, acquireStep c got r s = .err .busError t ∧ Called s t ([.acquire r false] ++ got.reverse.map .free) rest := by
  have hacq := acquire_called r h
  have hfree := platformCalls_called (got.reverse.map .free) (acquire r s).2
  rw [List.map_map, hacq.oks] at hfree
  have hfail : ¬ s.env.ok = true := by simp [Env.ok_of_oks _ _ _ h]
  exact ⟨_, by rw [acquireStep_eq, if_neg hfail], hacq.trans hfree⟩

/-- Turns that are all granted. -/
theorem acquireSteps_granted (c : Cfg) (got rs : List Resource) (k : Nat)
    (h : s.env.oks = List.replicate rs.length true ++ rest) :
    ∃ t, runFrom k (acquireSteps c got rs) s = .ok t ∧ Called s t (rs.flatMap (acquiredMarks c)) rest := by
  induction rs generalizing got k s with
  | nil => exact ⟨_, rfl, (⟨.refl s, (List.append_nil _).symm, le_rfl, h⟩ : Called s s [] rest).seq _⟩
  | cons r rs ih =>
    obtain ⟨t, ht, hturn⟩ := acquireStep_granted (s := { s with seq := BitVec.ofNat 5 k }) c got r
      (rest := List.replicate rs.length true ++ rest) h
    obtain ⟨u, hu, hturns⟩ := ih (got ++ [r]) (k + 1) hturn.oks
    exact ⟨u, by rw [acquireSteps, runFrom, ht, Res.andThen, hu], hturn.of_seq.trans hturns⟩

/-- Turns of which number `k` fails: everything got before it is released in reverse order, and BusError is raised. -/
theorem acquireSteps_failed (c : Cfg) (got rs : List Resource) (k n : Nat) {r : Resource} (hr : rs[k]? = some r)
    (h : s.env.oks = List.replicate k true ++ false :: rest) :
    ∃ t, runFrom n (acquireSteps c got rs) s = .err .busError t ∧
      Called s t ((rs.take k).flatMap (acquiredMarks c) ++ ([.acquire r false] ++ (got ++ rs.take k).reverse.map .free))
        rest := by
  induction k generalizing got rs n s with
  | zero =>
    cases rs with
    | nil => simp at hr
    | cons q rs =>
      obtain rfl : q = r := by simpa using hr
      obtain ⟨t, ht, hturn⟩ := acquireStep_failed (s := { s with seq := BitVec.ofNat 5 n }) c got q h
      exact ⟨t, by rw [acquireSteps, runFrom, ht, Res.andThen], by simpa using hturn.of_seq⟩
  | succ k ih =>
    cases rs with
    | nil => simp at hr
    | cons q rs =>
      obtain ⟨t, ht, hturn⟩ := acquireStep_granted (s := { s with seq := BitVec.ofNat 5 n }) c got q
        (rest := List.replicate k true ++ false :: rest) h
      obtain ⟨u, hu, hturns⟩ := ih (got ++ [q]) rs (n + 1) (by simpa using hr) hturn.oks
      exact ⟨u, by rw [acquireSteps, runFrom, ht, Res.andThen, hu], by simpa using hturn.of_seq.trans hturns⟩

/-- An admitted OPEN is its four turns, and sets `CTX` if they complete (R90). -/
theorem exec_open_admitted (hctx : s.ctx = false) (hfbv : s.fbv = true) :
    exec .openBus s = ((runFrom 1 (acquireSteps s.cfg [] handleResources) s).andThen
      fun s => .ok { s with ctx := true }).toOutcome := by
  rw [exec, execOpen, if_pos ((openAdmitted_iff s).2 ⟨hctx, hfbv⟩), openSteps_eq]

/-- Settles O18: the four turns are granted. -/
theorem openAcquiresTheHandle : Obligations.OpenAcquiresTheHandle := by
  intro s rest hctx hfbv hoks
  obtain ⟨u, hu, hcalled⟩ := acquireSteps_granted (rest := rest) s.cfg [] handleResources 1 hoks
  exact ⟨complete { u with ctx := true }, by rw [exec_open_admitted hctx hfbv, hu]; rfl, hcalled.time, hcalled.oks,
    hcalled.marks, congrArg (fun u : State => complete { u with ctx := true }) hcalled.only.eq⟩

/-- Settles O19: the turns end at the failed one, which releases. -/
theorem openReleasesWhatItTookOnFailure : Obligations.OpenReleasesWhatItTookOnFailure := by
  intro s k r rest hctx hfbv hr hoks
  obtain ⟨u, hu, hcalled⟩ := acquireSteps_failed (rest := rest) s.cfg [] handleResources k 1 hr hoks
  refine ⟨raiseStatus .busError u, by rw [exec_open_admitted hctx hfbv, hu]; rfl, hcalled.time, hcalled.oks, ?_,
    congrArg (raiseStatus .busError) hcalled.only.eq⟩
  rw [List.append_assoc, List.append_assoc]
  exact hcalled.marks

/-! ## CLOSE -/

/-- The state after the four numbered releases (R98). -/
def released (s : State) : State :=
  { platformCalls [.free (.line .dc), .free (.line .rst), .free (.line .pwr), .free .spi] s with seq := 5#5 }

theorem released_called (s : State) : Called s (released s) closeMarks s.env.oks :=
  (platformCalls_called _ s).seq 5#5

/-- With a handle CLOSE always ends the session (R98). -/
theorem exec_close_open (hctx : s.ctx = true) :
    exec .close s = .next (complete (endSession (freeLines (released s)))) := by
  rw [exec, execClose, if_pos hctx]
  rfl

/-- With `PERSIST` the lines stay as they are (R98). -/
theorem freeLines_persist (h : s.cfg.persist = true) : freeLines s = s := if_pos h

/-- Without `PERSIST` the lines take the drawn levels, which are those already fixed (R30, R98). -/
theorem freeLines_drawn (h : s.cfg.persist = false) {a b c : Level} {more : List Level}
    (hlevels : s.env.levels = a :: b :: c :: more) : (freeLines s).lines = ⟨a, b, c⟩ := by
  rw [freeLines, if_neg (by simp [h])]
  simp [Env.level, Env.afterLevel, hlevels]

/-- Settles O26: the releases are made, then the lines freed, then the session ended. -/
theorem closeReleasesTheHandle : Obligations.CloseReleasesTheHandle := by
  intro s hctx
  have hcalled := released_called s
  obtain ⟨ls, e, hfree, -⟩ := freeLines_eq (released s)
  obtain ⟨tr, n, env, q, hreleased⟩ := hcalled.only
  refine ⟨_, exec_close_open hctx, ?_, ?_, fun hp => ?_, fun hp a b c more hlevels => ?_, ?_⟩
  · rw [hfree]
    exact hcalled.time
  · rw [hfree]
    exact hcalled.marks
  · rw [freeLines_persist (s := released s) hp, hreleased]
    rfl
  · exact freeLines_drawn (s := released s) hp hlevels
  · rw [hfree, hreleased]
    rfl

/-! ## PWROFF -/

/-- The three pin writes of POWEROFF_PINS one after another (R97). -/
def pinsOff (c : Cfg) (s : State) : State :=
  pinset .dc c.dcIdle (pinset .rst c.rstIdle (pinset .pwr c.pwrOff { s with toff := some s.now }))

/-- The second and the third write come when the time of the write before has passed. -/
theorem pinsOff_eq (c : Cfg) (s : State) : pinsOff c s = { s with
    lines := ⟨c.pwrOff, c.rstIdle, c.dcIdle⟩
    toff := some s.now
    trace := s.trace ++ [.pinSet .pwr c.pwrOff s.now, .pinSet .rst c.rstIdle (s.now + s.env.lag),
      .pinSet .dc c.dcIdle (s.now + s.env.lag + s.env.afterLag.lag)]
    now := s.now + s.env.lag + s.env.afterLag.lag + s.env.afterLag.afterLag.lag
    env := s.env.afterLag.afterLag.afterLag } := by
  simp [pinsOff, pinset, emit, tick]

/-- With a handle PWROFF always drives the lines (R96, R97). -/
theorem exec_pwroff_open (hctx : s.ctx = true) :
    exec .pwroff s = .next (complete { pinsOff s.cfg s with pstate := .poweredOff }) := by
  rw [exec, execPwroff, if_pos hctx]
  rfl

/-- Settles O24: the three pin writes, each with its time, and `PSTATE` after them. -/
theorem pwroffDrivesTheLinesInOrder : Obligations.PwroffDrivesTheLinesInOrder := by
  intro s hctx
  refine ⟨_, s.now + s.env.lag, s.now + s.env.lag + s.env.afterLag.lag, exec_pwroff_open hctx, Nat.le_add_right _ _,
    Nat.le_add_right _ _, Nat.le_add_right _ _, ?_⟩
  rw [pinsOff_eq]
  rfl

end

end Sys2Proof.Machine
end

section
/-! PROOFS. INIT in its three phases (spec/42_power_reset_sequencer.md R91 to R95): the read of the power line with what the
settle time asks for, the reset pulse, and the seven writes. -/

namespace Sys2Proof.Machine

open Sys2Proof.Safety

section
variable {s t u : State} {r : Res}

/-! ## The settle time -/

/-- `SEQ` at the number of the step that runs (R19). -/
def atStep (q : BitVec 5) (s : State) : State := { s with seq := q }

/-! Every step sets its own number, and the number is no part of what a step that cannot fail does. -/

theorem runFrom_atStep (k : Nat) (fs : List Step) (q : BitVec 5) (s : State) :
    runFrom k fs (atStep q s) = runFrom k fs s := by
  cases fs with
  | nil => rfl
  | cons f fs => rfl

theorem runFrom_pinset (k : Nat) (l : Line) (v : Level) (fs : List Step) (s : State) :
    runFrom k (plain (pinset l v) :: fs) s = runFrom (k + 1) fs (pinset l v s) :=
  runFrom_atStep (k + 1) fs (BitVec.ofNat 5 k) (pinset l v s)

theorem runFrom_delay (k d : Nat) (fs : List Step) (s : State) :
    runFrom k (plain (delay d) :: fs) s = runFrom (k + 1) fs (delay d s) :=
  runFrom_atStep (k + 1) fs (BitVec.ofNat 5 k) (delay d s)

theorem runFrom_setPstate (k : Nat) (p : PanelState) (fs : List Step) (s : State) :
    runFrom k (plain (setPstate p) :: fs) s = runFrom (k + 1) fs (setPstate p s) :=
  runFrom_atStep (k + 1) fs (BitVec.ofNat 5 k) (setPstate p s)

/-- The three pin writes cannot fail (R97). -/
theorem runFrom_poweroffPins (k : Nat) (c : Cfg) (s : State) :
    runFrom k (poweroffPins c) s = .ok (atStep (BitVec.ofNat 5 (k + 3)) (pinsOff c s)) := rfl

/-- The state after step 1, the read of the power line (R92). -/
def powerRead (s : State) : State := (pinget .pwr (atStep 1#5 s)).2

theorem powerRead_eq (s : State) : powerRead s = { s with
    trace := s.trace ++ [.pinGet .pwr s.lines.pwr s.now]
    now := s.now + s.env.lag
    env := s.env.afterLag
    seq := 1#5 } := rfl

/-- Steps 2 to 6 of INIT, after the read of the power line (R92). -/
def holdOff (s : State) : Res :=
  if s.lines.pwr = s.cfg.pwrOn then runFrom 2 (forceOffSteps s.cfg) (powerRead s)
  else runFrom 6 [settleStep s.cfg] (powerRead s)

theorem initRun_eq (s : State) : initRun s = (holdOff s).andThen (runFrom 7 (bringUpSteps s.cfg)) := rfl

/-- Where the panel was left on, power is forced off and held off for the settle time. -/
theorem holdOff_on (hon : s.lines.pwr = s.cfg.pwrOn) :
    holdOff s = .ok (atStep 6#5 (delay s.cfg.tSettle (pinsOff s.cfg (powerRead s)))) := by
  rw [holdOff, if_pos hon, forceOffSteps, runFrom_append, runFrom_poweroffPins, Res.andThen, runFrom_atStep, runFrom_delay]
  rfl

/-- Where it was off, step 6 decides. -/
theorem holdOff_off (hoff : s.lines.pwr ≠ s.cfg.pwrOn) :
    holdOff s = (settleStep s.cfg (atStep 6#5 (powerRead s))).andThen fun t => .ok (atStep 7#5 t) :=
  if_neg hoff

/-- How steps 1 to 6 of an INIT from `s` can end (R92). -/
inductive Hold (s : State) : Res → Prop
  /-- The panel was left on. -/
  | forced (hon : s.lines.pwr = s.cfg.pwrOn) :
    Hold s (.ok (atStep 6#5 (delay s.cfg.tSettle (pinsOff s.cfg (powerRead s)))))
  /-- Power was never turned off, or long enough ago. -/
  | settled (hoff : s.lines.pwr ≠ s.cfg.pwrOn) (hold : ∀ x, s.toff = some x → x + s.cfg.tSettle ≤ s.now + s.env.lag) :
    Hold s (.ok (atStep 7#5 (powerRead s)))
  /-- Power went off too recently, and the rest of the settle time is waited out. -/
  | waited (hoff : s.lines.pwr ≠ s.cfg.pwrOn) {x : Nat} (htoff : s.toff = some x)
      (hsoon : s.now + s.env.lag < x + s.cfg.tSettle) :
    Hold s (.ok (atStep 7#5 (delay (x + s.cfg.tSettle - (s.now + s.env.lag)) (powerRead s))))
  /-- Power went off too recently, and the policy is to refuse. -/
  | refused (h : SettleRefused s) : Hold s (.err .protocolTimingViolation (atStep 6#5 (powerRead s)))

theorem holdOff_hold (s : State) : Hold s (holdOff s) := by
  by_cases hon : s.lines.pwr = s.cfg.pwrOn
  · rw [holdOff_on hon]
    exact .forced hon
  · rw [holdOff_off hon]
    cases htoff : s.toff with
    | none =>
      rw [settleStep_none _ (atStep 6#5 (powerRead s)) htoff]
      exact .settled hon (by simp [htoff])
    | some x =>
      by_cases hsoon : s.now + s.env.lag < x + s.cfg.tSettle
      · cases hpolicy : s.cfg.settlePolicy with
        | wait =>
          rw [settleStep_wait _ (atStep 6#5 (powerRead s)) x htoff hsoon hpolicy]
          exact .waited hon htoff hsoon
        | refuse =>
          rw [settleStep_refuse _ (atStep 6#5 (powerRead s)) x htoff hsoon hpolicy]
          exact .refused ⟨hon, hpolicy, x, htoff, hsoon⟩
      · rw [settleStep_settled _ (atStep 6#5 (powerRead s)) x htoff (not_lt.1 hsoon)]
        exact .settled hon (by simpa [htoff] using hsoon)

/-- An INIT whose policy refuses it does not get past step 6 (R92). -/
theorem holdOff_refused (h : SettleRefused s) :
    holdOff s = .err .protocolTimingViolation (atStep 6#5 (powerRead s)) := by
  obtain ⟨hoff, hpolicy, x, htoff, hsoon⟩ := h
  rw [holdOff_off hoff, settleStep_refuse _ (atStep 6#5 (powerRead s)) x htoff hsoon hpolicy, Res.andThen]

/-- `u` is `s` after steps 1 to 6 of an INIT that goes on: the marks of the read and of the hold, `TOFF` new where the panel
was found on, some time passed, no answer used up. -/
structure Held (s u : State) : Prop where
  frame : u = { s with
    lines := u.lines
    toff := if s.lines.pwr = s.cfg.pwrOn then some (s.now + s.env.lag) else s.toff
    trace := u.trace
    now := u.now
    env := u.env
    seq := u.seq }
  marks : u.marks = s.marks ++ [.pinGet .pwr s.lines.pwr] ++ holdMarks s
  time : s.now ≤ u.now
  oks : u.env.oks = s.env.oks

theorem Hold.held (h : Hold s (.ok u)) : Held s u := by
  cases h with
  | forced hon =>
    refine ⟨?_, ?_, ?_, rfl⟩
    · rw [if_pos hon, pinsOff_eq, powerRead_eq]
      rfl
    · simp [holdMarks, hon, State.marks, atStep, pinsOff_eq, powerRead_eq, pinsOffMarks, markOf]
    · simp [atStep, pinsOff_eq, powerRead_eq]
      omega
  | settled hoff hold =>
    refine ⟨?_, ?_, Nat.le_add_right _ _, rfl⟩
    · rw [if_neg hoff]
      rfl
    · have hmarks : holdMarks s = [] := by
        rw [holdMarks, if_neg hoff]
        split
        · rfl
        · next x htoff => exact if_neg (Nat.not_lt.2 (hold x htoff))
      simp [hmarks, State.marks, atStep, powerRead, markOf]
  | waited hoff htoff hsoon =>
    refine ⟨?_, ?_, ?_, rfl⟩
    · rw [if_neg hoff]
      rfl
    · simp [holdMarks, hoff, htoff, hsoon, State.marks, atStep, powerRead, markOf]
    · simp [atStep, powerRead]
      omega

/-- An INIT that its policy does not refuse gets past step 6 (R92). -/
theorem holdOff_held (h : ¬ SettleRefused s) : ∃ u, holdOff s = .ok u ∧ Held s u := by
  obtain ⟨r, hr, hhold⟩ : ∃ r, holdOff s = r ∧ Hold s r := ⟨_, rfl, holdOff_hold s⟩
  cases r with
  | ok u => exact ⟨u, hr, hhold.held⟩
  | err e u => cases hhold with | refused hrefused => exact absurd hrefused h
  | fault f => exact nomatch hhold

theorem exec_init_admitted (hctx : s.ctx = true) (hoff : s.pstate = .poweredOff) :
    exec .init s = ((holdOff s).andThen (runFrom 7 (bringUpSteps s.cfg))).toOutcome := by
  rw [exec, execInit, if_pos ((initAdmitted_iff s).2 ⟨hctx, hoff⟩), initRun_eq]

/-- Settles O21: step 6 raises the error. -/
theorem initRefusedWithinTheSettleTime : Obligations.InitRefusedWithinTheSettleTime := by
  intro s hctx hoff hrefused
  rw [exec_init_admitted hctx hoff, holdOff_refused hrefused, powerRead_eq]
  rfl

/-! ## The reset pulse -/

/-- The state after steps 7 to 11, power on and the reset pulse (R93). -/
def pulsed (c : Cfg) (s : State) : State :=
  pinset .rst c.rstHigh (delay c.tRst (pinset .rst c.rstLow (pinset .pwr c.pwrOn (setPstate .resetting s))))

/-- Steps 15 to 22: the writes after the soft reset, the last wait, and Ready (R94). -/
def finishSteps (c : Cfg) : List Step :=
  (initSends c).map sendStep ++ [plain (delay c.tInit2), plain (setPstate .ready)]

/-- Steps 13 to 22: the wait after the soft reset, and what follows (R94). -/
def afterResetSteps (c : Cfg) : List Step :=
  plain (setPstate .initializing) :: plain (delay c.tInit1) :: finishSteps c

/-- Steps 7 to 22 are the pulse, the soft reset and what follows it. -/
theorem runFrom_bringUpSteps (c : Cfg) (s : State) :
    runFrom 7 (bringUpSteps c) s =
      (sendStep (.cmd c.opcSwreset) (atStep 12#5 (pulsed c s))).andThen (runFrom 13 (afterResetSteps c)) := by
  rw [bringUpSteps, runFrom_setPstate, runFrom_pinset, runFrom_pinset, runFrom_delay, runFrom_pinset]
  rfl

theorem runFrom_afterResetSteps (c : Cfg) (s : State) :
    runFrom 13 (afterResetSteps c) s = runFrom 15 (finishSteps c) (delay c.tInit1 (setPstate .initializing s)) := by
  rw [afterResetSteps, runFrom_setPstate, runFrom_delay]

/-- `t` is `s` after steps of INIT from step 7 on: panel state `p`, power on and reset high, the select line at `d`, marks
appended, at least `w` units passed, the answers used up to `rest`. -/
structure BroughtUp (s t : State) (p : PanelState) (d : Level) (w : Nat) (marks : List Mark) (rest : List Bool) : Prop where
  frame : t = { s with
    pstate := p
    lines := ⟨s.cfg.pwrOn, s.cfg.rstHigh, d⟩
    trace := t.trace
    now := t.now
    env := t.env
    seq := t.seq }
  marks : t.marks = s.marks ++ marks
  time : s.now + w ≤ t.now
  oks : t.env.oks = rest

section
variable {p : PanelState} {d d' : Level} {w : Nat} {marks marks' : List Mark} {rest rest' : List Bool}

theorem BroughtUp.cfg (h : BroughtUp s t p d w marks rest) : t.cfg = s.cfg := by rw [h.frame]

theorem BroughtUp.seq (h : BroughtUp s t p d w marks rest) (q : BitVec 5) :
    BroughtUp s (atStep q t) p d w marks rest :=
  ⟨congrArg (atStep q) h.frame, h.marks, h.time, h.oks⟩

theorem BroughtUp.setPstate (h : BroughtUp s t p d w marks rest) (q : PanelState) :
    BroughtUp s (setPstate q t) q d w marks rest where
  frame := by
    have e := h.frame
    rw [e]
    rfl
  marks := h.marks
  time := h.time.trans (Nat.le_add_right _ _)
  oks := h.oks

theorem BroughtUp.delay (h : BroughtUp s t p d w marks rest) (n : Nat) :
    BroughtUp s (delay n t) p d (w + n) (marks ++ [.wait n]) rest where
  frame := by
    have e := h.frame
    rw [e]
    rfl
  marks := by
    rw [← List.append_assoc, ← h.marks]
    exact marks_append t _ [.wait n t.now _] rfl
  time := by
    have := h.time
    simp only [delay_now]
    omega
  oks := h.oks

theorem BroughtUp.sent (h : BroughtUp s t p d w marks rest) (h' : Sent t u marks' d' rest') :
    BroughtUp s u p d' w (marks ++ marks') rest' where
  frame := by
    have e := h.frame
    have e' := h'.frame
    rw [e] at e'
    exact e'
  marks := by rw [h'.marks, h.marks, List.append_assoc]
  time := h.time.trans h'.time
  oks := h'.oks

end

/-- The pulse leaves the select line where it was. -/
theorem pulsed_broughtUp (s : State) :
    BroughtUp s (pulsed s.cfg s) .resetting s.lines.dc s.cfg.tRst (pulseMarks s.cfg) s.env.oks where
  frame := rfl
  marks := by simp [State.marks, pulsed, pulseMarks, markOf]
  time := by simp [pulsed]; omega
  oks := rfl

/-! ## The seven writes -/

variable {rest : List Bool}

/-- The soft reset of step 12, with its answer (R93). -/
theorem softReset_broughtUp {ok : Bool} (h : s.env.oks = ok :: rest) :
    ∃ t, sendStep (.cmd s.cfg.opcSwreset) (atStep 12#5 (pulsed s.cfg s)) =
        (if ok then .ok t else .err .busError t) ∧
      BroughtUp s t .resetting s.cfg.dcCmd s.cfg.tRst (pulseMarks s.cfg ++ cmdMarks s.cfg s.cfg.opcSwreset ok) rest := by
  obtain ⟨t, ht, hsent⟩ := sendStep_spec (.cmd s.cfg.opcSwreset) (atStep 12#5 (pulsed s.cfg s)) ok rest h
  exact ⟨t, ht, ((pulsed_broughtUp s).seq _).sent hsent⟩

/-- A granted soft reset brings INIT to the six writes after it, `T_INIT1` later (R93, R94). -/
theorem runFrom_bringUpSteps_granted (h : s.env.oks = true :: rest) :
    ∃ t, runFrom 7 (bringUpSteps s.cfg) s = runFrom 15 (finishSteps s.cfg) t ∧
      BroughtUp s t .initializing s.cfg.dcCmd (s.cfg.tRst + s.cfg.tInit1)
        (pulseMarks s.cfg ++ cmdMarks s.cfg s.cfg.opcSwreset true ++ [.wait s.cfg.tInit1]) rest := by
  obtain ⟨t, ht, hup⟩ := softReset_broughtUp h
  exact ⟨_, by rw [runFrom_bringUpSteps, ht, if_pos rfl, Res.andThen, runFrom_afterResetSteps],
    (hup.setPstate .initializing).delay _⟩

/-- Steps 7 to 22 where all seven writes are granted (R93, R94). -/
theorem bringUp_granted (h : s.env.oks = List.replicate 7 true ++ rest) :
    ∃ t, runFrom 7 (bringUpSteps s.cfg) s = .ok t ∧
      BroughtUp s t .ready s.cfg.dcCmd (s.cfg.tRst + s.cfg.tInit1 + s.cfg.tInit2) (bringUpMarks s.cfg) rest := by
  obtain ⟨t, ht, hup⟩ := runFrom_bringUpSteps_granted (rest := List.replicate 6 true ++ rest) h
  obtain ⟨v, hv, hsent⟩ := runFrom_sends_ok (.cmd s.cfg.opcMadctl) (initSends s.cfg).tail 15 t rest hup.oks
  rw [hup.cfg] at hsent
  refine ⟨_, ?_, (((hup.sent hsent).delay s.cfg.tInit2).setPstate .ready).seq 23#5⟩
  have hsends : runFrom 15 ((initSends s.cfg).map sendStep) t = .ok v := hv
  rw [ht, finishSteps, runFrom_append, hsends]
  rfl

/-- Steps 7 to 22 where write number `k` fails: it is the last step (R95). -/
theorem bringUp_failed {k : Nat} {x : Send} (hx : (Send.cmd s.cfg.opcSwreset :: initSends s.cfg)[k]? = some x)
    (h : s.env.oks = List.replicate k true ++ false :: rest) :
    ∃ t w, runFrom 7 (bringUpSteps s.cfg) s = .err .busError t ∧
      BroughtUp s t (if k = 0 then .resetting else .initializing) (sendLevel s.cfg x) w (bringUpFailedMarks s.cfg k) rest := by
  cases k with
  | zero =>
    obtain rfl : Send.cmd s.cfg.opcSwreset = x := by simpa using hx
    obtain ⟨t, ht, hup⟩ := softReset_broughtUp h
    exact ⟨t, _, by rw [runFrom_bringUpSteps, ht]; rfl, hup⟩
  | succ k =>
    obtain ⟨t, ht, hup⟩ := runFrom_bringUpSteps_granted (rest := List.replicate k true ++ false :: rest) h
    obtain ⟨v, hv, hsent⟩ := runFrom_sends_err (initSends s.cfg) k 15 x t rest
      [plain (delay s.cfg.tInit2), plain (setPstate .ready)] (by simpa using hx) hup.oks
    rw [hup.cfg] at hsent
    exact ⟨v, _, ht.trans hv, hup.sent hsent⟩

/-! ## The three phases together -/

/-- What steps 1 to 6 and then steps from step 7 on have written (R92 to R95). -/
theorem Held.broughtUp {p : PanelState} {d : Level} {w : Nat} {marks : List Mark} (h : Held s u)
    (h' : BroughtUp u t p d w marks rest) : t = { s with
      pstate := p
      lines := ⟨s.cfg.pwrOn, s.cfg.rstHigh, d⟩
      toff := if s.lines.pwr = s.cfg.pwrOn then some (s.now + s.env.lag) else s.toff
      trace := t.trace
      now := t.now
      env := t.env
      seq := t.seq } := by
  have e := h.frame
  have e' := h'.frame
  rw [e] at e'
  exact e'

theorem Held.cfg (h : Held s u) : u.cfg = s.cfg := by rw [h.frame]

/-- Settles O20: the hold, and then the seven granted writes. -/
theorem initBringsThePanelUp : Obligations.InitBringsThePanelUp := by
  intro s rest hctx hoff hgoes hoks
  obtain ⟨u, hu, hheld⟩ := holdOff_held hgoes
  obtain ⟨t, ht, hup⟩ := bringUp_granted (hheld.oks.trans hoks)
  have hmarks := hup.marks
  have htime := hup.time
  have hbefore := hheld.time
  rw [hheld.marks] at hmarks
  have hframe := hheld.broughtUp hup
  rw [hheld.cfg] at ht hmarks htime hframe
  refine ⟨complete t, ?_, ?_, hup.oks, hmarks, congrArg complete hframe⟩
  · rw [exec_init_admitted hctx hoff, hu, Res.andThen, ht, Res.toOutcome]
  · simp only [complete_now]
    omega

/-- Settles O22: the hold, and then the writes up to the failed one. -/
theorem initFailureLeavesItsPhase : Obligations.InitFailureLeavesItsPhase := by
  intro s k x rest hctx hoff hgoes hx hoks
  obtain ⟨u, hu, hheld⟩ := holdOff_held hgoes
  obtain ⟨t, w, ht, hup⟩ := bringUp_failed (s := u) (by rwa [hheld.cfg]) (hheld.oks.trans hoks)
  have hmarks := hup.marks
  rw [hheld.marks] at hmarks
  have hframe := hheld.broughtUp hup
  rw [hheld.cfg] at ht hmarks hframe
  refine ⟨raiseStatus .busError t, ?_, ?_, hup.oks, hmarks, congrArg (raiseStatus .busError) hframe⟩
  · rw [exec_init_admitted hctx hoff, hu, Res.andThen, ht, Res.toOutcome]
  · exact hheld.time.trans ((Nat.le_add_right _ _).trans hup.time)

end

end Sys2Proof.Machine
end

section
/-! PROOFS. Where INIT leaves `PSTATE` (spec/42_power_reset_sequencer.md R89, R95, R100 (b)). -/

namespace Sys2Proof.Machine

open Sys2Proof.Safety

section
variable {r : Res} {s : State} {P : PanelState → Prop}

/-- A run that ends in a panel state of `P` when it completes; when it raises an error, which is never OK, the panel is not
Ready. -/
def Res.Phase (P : PanelState → Prop) : Res → Prop
  | .ok s => P s.pstate
  | .err e s => e ≠ .ok ∧ s.pstate ≠ .ready
  | .fault _ => True

theorem Res.Phase.andThen {f : State → Res} (hr : r.Phase (· ≠ .ready)) (hf : ∀ t, t.pstate ≠ .ready → (f t).Phase P) :
    (r.andThen f).Phase P := by
  cases r with
  | ok t => exact hf t hr
  | err e t => exact hr
  | fault e => trivial

theorem sendStep_phase (x : Send) (h : s.pstate ≠ .ready) : (sendStep x s).Phase (· ≠ .ready) := by
  obtain ⟨t, ht, hsent⟩ := sendStep_cases x s
  have hp : t.pstate ≠ .ready := by
    rw [hsent.frame]
    exact h
  rw [ht]
  split
  · exact hp
  · exact ⟨nofun, hp⟩

theorem runFrom_sends_phase (xs : List Send) (k : Nat) (h : s.pstate ≠ .ready) :
    (runFrom k (xs.map sendStep) s).Phase (· ≠ .ready) := by
  induction xs generalizing k s with
  | nil => exact h
  | cons x xs ih => exact (sendStep_phase (s := atStep (BitVec.ofNat 5 k) s) x h).andThen fun t ht => ih (k + 1) ht

/-- Steps 1 to 6 leave the panel state as it is. -/
theorem Hold.phase (hold : Hold s r) (h : s.pstate ≠ .ready) : r.Phase (· ≠ .ready) := by
  cases r with
  | ok u =>
    rw [Res.Phase, hold.held.frame]
    exact h
  | err e u => cases hold with | refused => exact ⟨nofun, h⟩
  | fault f => trivial

/-- Only the last step makes the panel Ready (R94). -/
theorem bringUp_phase (c : Cfg) (s : State) : (runFrom 7 (bringUpSteps c) s).Phase (· = .ready) := by
  rw [runFrom_bringUpSteps]
  refine (sendStep_phase _ (s := atStep 12#5 (pulsed c s)) nofun).andThen fun t _ => ?_
  rw [runFrom_afterResetSteps, finishSteps, runFrom_append]
  refine (runFrom_sends_phase _ 15 (s := delay c.tInit1 (setPstate .initializing t)) nofun).andThen fun u _ => ?_
  rw [runFrom_delay, runFrom_setPstate]
  rfl

theorem initRun_phase (h : s.pstate ≠ .ready) : (initRun s).Phase (· = .ready) := by
  rw [initRun_eq]
  exact ((holdOff_hold s).phase h).andThen fun t _ => bringUp_phase s.cfg t

/-- INIT moves `PSTATE` from PoweredOff only, and makes the panel Ready exactly when it returns OK (R91, R95). -/
theorem execInit_pstate {t : State} (ht : exec .init s = .next t) (hmoved : t.pstate ≠ s.pstate) :
    s.pstate = .poweredOff ∧ (t.pstate = .ready ↔ t.status = .ok) := by
  rw [exec, execInit] at ht
  split at ht
  · next hadm =>
    obtain ⟨-, hoff⟩ := (initAdmitted_iff s).1 hadm
    have hphase := initRun_phase (s := s) (by simp [hoff])
    refine ⟨hoff, ?_⟩
    rcases toOutcome_next ht with ⟨u, hu, rfl⟩ | ⟨e, u, hu, rfl⟩
    · rw [hu] at hphase
      exact iff_of_true hphase rfl
    · rw [hu] at hphase
      exact iff_of_false hphase.2 hphase.1
  · cases ht
    exact absurd rfl hmoved

end

/-- Settles O59: the writers of `PSTATE`, and where INIT leaves it. -/
theorem panelStateMovesOnlyAlongItsTransitions : Obligations.PanelStateMovesOnlyAlongItsTransitions := by
  intro i s t ht hmoved
  rcases (exec_effect ht).pstate with hsame | ⟨rfl, -⟩ | hoff
  · exact absurd hsame hmoved
  · exact .inl ⟨rfl, execInit_pstate ht hmoved⟩
  · exact .inr hoff

end Sys2Proof.Machine
end

section
/-! PROOFS. The settle time of the power line (spec/42_power_reset_sequencer.md R92, R100 (c),
spec/70_reset_and_hazards.md R138). -/

namespace Sys2Proof.Safety

open Sys2Proof.Machine

section
variable {s t u : State} {e : Event}

/-! ## What one call does to the invariant -/

/-- The trace stays settled with one entry more, if that entry, where it asserts power, comes late enough. -/
theorem powerSettled_append (h : PowerSettled s) (hcfg : u.cfg = s.cfg) (htrace : u.trace = s.trace ++ [e])
    (hon : ∀ x x', e = .pinSet .pwr s.cfg.pwrOn x → .pinSet .pwr s.cfg.pwrOff x' ∈ s.trace → x' + s.cfg.tSettle ≤ x) :
    PowerSettled u := by
  intro before after x x' hsplit hmem
  rw [hcfg] at hsplit hmem ⊢
  rw [htrace] at hsplit
  rcases List.eq_nil_or_concat after with rfl | ⟨after, last, rfl⟩
  · obtain ⟨hbefore, hlast⟩ := List.append_inj' hsplit rfl
    exact hon x x' (List.singleton_inj.1 hlast) (hbefore ▸ hmem)
  · rw [List.concat_eq_append, ← List.cons_append, ← List.append_assoc] at hsplit
    exact h before after x x' (List.append_inj' hsplit rfl).1 hmem

/-- Time may pass, requests may be taken, and what is not named in the invariant may change. -/
theorem PowerInv.later (h : PowerInv s) (hnow : s.now ≤ u.now) (hreq : u.requests ⊆ s.requests := by exact List.Subset.refl _)
    (hcfg : u.cfg = s.cfg := by rfl) (htoff : u.toff = s.toff := by rfl) (htrace : u.trace = s.trace := by rfl) :
    PowerInv u where
  hostOnly r hr := h.hostOnly r (hreq hr)
  levelsDiffer := hcfg ▸ h.levelsDiffer
  offPast x hx := (h.offPast x (htoff ▸ hx)).trans hnow
  remembered := by
    rw [OffRemembered, hcfg, htoff, htrace]
    exact h.remembered
  settled := by
    rw [PowerSettled, hcfg, htrace]
    exact h.settled

/-- A call that does not set the power line may be recorded. -/
theorem PowerInv.record (h : PowerInv s) (he : ∀ v x, e ≠ .pinSet .pwr v x) : PowerInv (emit e s) where
  hostOnly := h.hostOnly
  levelsDiffer := h.levelsDiffer
  offPast := h.offPast
  remembered x hx := by
    rcases List.mem_append.1 hx with hx | hx
    · exact h.remembered x hx
    · exact absurd (List.mem_singleton.1 hx).symm (he _ _)
  settled := powerSettled_append h.settled rfl rfl fun x x' hon => absurd hon (he _ _)

/-- Power may be deasserted where its time is remembered (R97). -/
theorem PowerInv.powerOff (h : PowerInv s) : PowerInv (pinset .pwr s.cfg.pwrOff { s with toff := some s.now }) where
  hostOnly := h.hostOnly
  levelsDiffer := h.levelsDiffer
  offPast := by
    rintro x ⟨⟩
    exact Nat.le_add_right _ _
  remembered x hx := by
    refine ⟨s.now, rfl, ?_⟩
    rcases List.mem_append.1 hx with hx | hx
    · obtain ⟨y, hy, hle⟩ := h.remembered x hx
      exact hle.trans (h.offPast y hy)
    · obtain ⟨-, -, rfl⟩ := Event.pinSet.inj (List.mem_singleton.1 hx)
      exact le_rfl
  settled := powerSettled_append h.settled rfl rfl fun x x' hon _ => by
    obtain ⟨-, hlevel, -⟩ := Event.pinSet.inj hon
    exact absurd hlevel.symm h.levelsDiffer

/-- The settle time has passed since power was last deasserted. -/
def Settled (s : State) : Prop := ∀ x, s.toff = some x → x + s.cfg.tSettle ≤ s.now

/-- Power may be asserted where the settle time has passed: `TOFF` is the last deassertion. -/
theorem PowerInv.powerOn (h : PowerInv s) (hs : Settled s) : PowerInv (pinset .pwr s.cfg.pwrOn s) where
  hostOnly := h.hostOnly
  levelsDiffer := h.levelsDiffer
  offPast x hx := (h.offPast x hx).trans (Nat.le_add_right _ _)
  remembered x hx := by
    rcases List.mem_append.1 hx with hx | hx
    · exact h.remembered x hx
    · obtain ⟨-, hlevel, -⟩ := Event.pinSet.inj (List.mem_singleton.1 hx)
      exact absurd hlevel.symm h.levelsDiffer
  settled := powerSettled_append h.settled rfl rfl fun x x' hon hmem => by
    obtain ⟨-, -, rfl⟩ := Event.pinSet.inj hon
    obtain ⟨y, hy, hle⟩ := h.remembered x' hmem
    exact (Nat.add_le_add_right hle _).trans (hs y hy)

/-! ## What the other calls do to it -/

theorem PowerInv.pinset (h : PowerInv s) {l : Line} (v : Level) (hl : l ≠ .pwr := by decide) :
    PowerInv (pinset l v s) := by
  have hset : PowerInv { s with lines := s.lines.set l v } := h.later le_rfl
  have hmade := hset.record (e := .pinSet l v s.now) fun _ _ he => hl (Event.pinSet.inj he).1
  exact hmade.later (Nat.le_add_right _ _)

theorem PowerInv.pinget (h : PowerInv s) (l : Line) : PowerInv (pinget l s).2 := by
  have hmade := h.record (e := .pinGet l (s.lines.get l) s.now) nofun
  exact hmade.later (Nat.le_add_right _ _)

theorem PowerInv.delay (h : PowerInv s) (d : Nat) : PowerInv (delay d s) := by
  have hslept : PowerInv { s with now := s.now + d + s.env.lag, env := s.env.afterLag } :=
    h.later ((Nat.le_add_right _ _).trans (Nat.le_add_right _ _))
  exact hslept.record nofun

theorem PowerInv.spiwr (h : PowerInv s) (bytes : List Byte) : PowerInv (spiwr bytes s).2 := by
  have hasked : PowerInv { s with env := s.env.afterOk } := h.later le_rfl
  have hmade := hasked.record (e := .spiWrite s.lines.dc bytes s.env.ok s.now) nofun
  exact hmade.later (Nat.le_add_right _ _)

/-- The calls of OPEN and CLOSE. -/
theorem PowerInv.call (h : PowerInv s) (he : untimed e = true) : PowerInv (platformCall e s) := by
  have hmade := h.record (e := e) fun _ _ hpin => by subst hpin; cases he
  exact hmade.later (Nat.le_add_right _ _)

theorem PowerInv.calls (h : PowerInv s) {es : List Event} (hes : ∀ e ∈ es, untimed e = true) :
    PowerInv (platformCalls es s) :=
  platformCalls_holds es (fun e he _ h => h.call (hes e he)) s h

theorem PowerInv.seq (h : PowerInv s) (q : BitVec 5) : PowerInv { s with seq := q } := h.later le_rfl

theorem PowerInv.setPstate (h : PowerInv s) (p : PanelState) : PowerInv (setPstate p s) :=
  h.later (Nat.le_add_right _ _)

theorem PowerInv.send (h : PowerInv s) (x : Send) : (sendStep x s).Holds PowerInv :=
  sendStep_holds (fun v _ h => h.pinset v) (fun b _ h => h.spiwr [b]) x s h

theorem PowerInv.frame (h : PowerInv s) (opcode : Byte) (ps : List Byte) : (sendFrame opcode ps s).Holds PowerInv :=
  sendFrame_holds (fun v _ h => h.pinset v) (fun b _ h => h.spiwr [b]) opcode ps s h

theorem PowerInv.run (h : PowerInv s) {fs : List Step} (hf : ∀ f ∈ fs, ∀ u, PowerInv u → (f u).Holds PowerInv) (k : Nat) :
    (runFrom k fs s).Holds PowerInv :=
  runFrom_holds (fun _ q h => h.seq q) fs hf k s h

theorem PowerInv.outcome {r : Res} (hr : r.Holds PowerInv) (ht : r.toOutcome = .next t) : PowerInv t := by
  obtain ⟨u, e, hu, rfl⟩ := hr.outcome ht
  exact hu.later le_rfl

/-! ## INIT -/

/-- The power-off sequence (R97). -/
theorem PowerInv.pinsOff (h : PowerInv s) : PowerInv (pinsOff s.cfg s) :=
  (h.powerOff.pinset _).pinset _

theorem PowerInv.powerRead (h : PowerInv s) : PowerInv (powerRead s) := (h.seq _).pinget _

/-- Steps 1 to 6 deassert power at most, and remember when. -/
theorem PowerInv.hold {r : Res} (h : PowerInv s) (hold : Hold s r) : r.Holds PowerInv := by
  cases hold with
  | forced => exact (h.powerRead.pinsOff.delay _).seq _
  | settled => exact h.powerRead.seq _
  | waited => exact (h.powerRead.delay _).seq _
  | refused => exact h.powerRead.seq _

/-- An INIT that gets past step 6 has waited for the settle time (R92). -/
theorem settled_of_hold (hold : Hold s (.ok u)) : Settled u := by
  cases hold with
  | forced =>
    rintro x ⟨⟩
    simp only [atStep, delay_now, delay_cfg, pinsOff_eq, powerRead_eq]
    omega
  | settled _ hold => exact hold
  | waited _ htoff hsoon =>
    intro x hx
    simp only [atStep, delay_toff, delay_now, delay_cfg, powerRead_eq, htoff, Option.some.injEq] at hx ⊢
    subst hx
    omega

/-- Steps 7 to 22 assert power once, as their first call (R93). -/
theorem PowerInv.bringUp (h : PowerInv s) (hs : Settled s) : (runFrom 7 (bringUpSteps s.cfg) s).Holds PowerInv := by
  have hsettled : Settled (Machine.setPstate .resetting s) := fun x hx => (hs x hx).trans (Nat.le_add_right _ _)
  have hpulsed : PowerInv (pulsed s.cfg s) :=
    ((((h.setPstate .resetting).powerOn hsettled).pinset _).delay _).pinset _
  rw [runFrom_bringUpSteps]
  refine Res.holds_andThen (P := PowerInv) ((hpulsed.seq _).send _) (fun _ h => h) fun t ht => ?_
  rw [runFrom_afterResetSteps]
  refine ((ht.setPstate _).delay _).run (List.forall_mem_append.2 ⟨fun f hf v hv => ?_, ?_⟩) 15
  · obtain ⟨x, -, rfl⟩ := List.mem_map.1 hf
    exact hv.send x
  · simp only [List.forall_mem_cons]
    exact ⟨fun _ h => h.delay _, fun _ h => h.setPstate _, nofun⟩

theorem PowerInv.initRun (h : PowerInv s) : (initRun s).Holds PowerInv := by
  have hold := holdOff_hold s
  rw [initRun_eq]
  cases hr : holdOff s with
  | ok u =>
    rw [hr] at hold
    rw [Res.andThen, ← hold.held.cfg]
    exact PowerInv.bringUp (h.hold hold) (settled_of_hold hold)
  | err e u =>
    rw [hr] at hold
    exact h.hold hold
  | fault f => trivial

/-! ## The other host operations -/

theorem PowerInv.acquire (h : PowerInv s) (c : Cfg) (got : List Resource) (r : Resource) :
    (acquireStep c got r s).Holds PowerInv := by
  have hasked : PowerInv { s with env := s.env.afterOk } := h.later le_rfl
  have hacquired : PowerInv (Machine.acquire r s).2 := hasked.call rfl
  rw [acquireStep_eq]
  split
  · exact hacquired.calls (List.forall_mem_map.2 fun _ _ => rfl)
  · exact hacquired.calls (List.forall_mem_map.2 fun _ _ => rfl)

theorem PowerInv.openSteps (h : PowerInv s) : ((runFrom 1 (openSteps s.cfg) s).andThen
    fun s => .ok { s with ctx := true }).Holds PowerInv := by
  refine Res.holds_andThen (P := PowerInv) (h.run ?_ 1) (fun _ h => h) fun u hu => hu.later le_rfl
  simp only [Machine.openSteps, List.forall_mem_cons]
  exact ⟨fun _ h => h.acquire _ _ _, fun _ h => h.acquire _ _ _, fun _ h => h.acquire _ _ _,
    fun _ h => h.acquire _ _ _, nofun⟩

theorem PowerInv.chunks (h : PowerInv s) (k : Nat) : (chunkLoop k s).Holds PowerInv :=
  chunkLoop_holds (fun _ h _ _ => h.spiwr _) (fun u h _ _ => (h.spiwr (nextChunk u)).later le_rfl) k s h

theorem PowerInv.frameSteps (h : PowerInv s) : (runFrom 1 (frameSteps s.cfg) s).Holds PowerInv := by
  refine h.run ?_ 1
  simp only [Machine.frameSteps, List.forall_mem_cons]
  exact ⟨fun _ h => h.later le_rfl, fun _ h => h.send (.cmd _), fun _ h => h.pinset _, fun _ h => h.chunks _, nofun⟩

theorem PowerInv.windowSteps (h : PowerInv s) (c : Cfg) (x1 y1 x2 y2 : Byte) :
    (runFrom 1 (windowSteps c x1 y1 x2 y2) s).Holds PowerInv := by
  exact h.run (fs := (windowSends c x1 y1 x2 y2).map sendStep) (List.forall_mem_map.2 fun x _ u hu => hu.send x) 1

theorem PowerInv.close (h : PowerInv s) : PowerInv (complete (endSession (freeLines (released s)))) := by
  have hreleased : PowerInv (released s) := (h.calls (by simp [untimed])).seq _
  obtain ⟨ls, e, hfree, -⟩ := freeLines_eq (released s)
  rw [hfree]
  exact hreleased.later le_rfl

/-- Every host operation keeps the settle time (R100 (c)). -/
theorem PowerInv.exec {i : Instr} (h : PowerInv s) (hi : i.format = .host) (ht : exec i s = .next t) : PowerInv t := by
  cases i with
  | load width height bpp src =>
    simp only [Machine.exec, execLoad] at ht
    split at ht
    · split at ht
      · cases ht
        exact h.later le_rfl
      · cases ht
        exact h.later le_rfl
    · cases ht
      exact h.later le_rfl
  | openBus =>
    simp only [Machine.exec, execOpen] at ht
    split at ht
    · exact .outcome h.openSteps ht
    · cases ht
      exact h.later le_rfl
  | init =>
    simp only [Machine.exec, execInit] at ht
    split at ht
    · exact .outcome h.initRun ht
    · cases ht
      exact h.later le_rfl
  | setwin x1 y1 x2 y2 =>
    simp only [Machine.exec, execSetwin] at ht
    split at ht
    · split at ht
      · exact .outcome (h.windowSteps _ _ _ _ _) ht
      · cases ht
        exact h.later le_rfl
    · cases ht
      exact h.later le_rfl
  | framewr =>
    simp only [Machine.exec, execFramewr] at ht
    split at ht
    · exact .outcome h.frameSteps ht
    · cases ht
      exact h.later le_rfl
  | pwroff =>
    cases hctx : s.ctx with
    | true =>
      rw [exec_pwroff_open hctx] at ht
      cases ht
      exact h.pinsOff.later le_rfl
    | false =>
      rw [pwroffWithoutHandleOnlyWarns s hctx] at ht
      cases ht
      exact h.later le_rfl
  | close =>
    cases hctx : s.ctx with
    | true =>
      rw [exec_close_open hctx] at ht
      cases ht
      exact h.close
    | false =>
      rw [closeWithoutHandleDoesNothing s hctx] at ht
      cases ht
      exact h.later le_rfl
  | dcs opcode payload =>
    simp only [Machine.exec, execDcs] at ht
    split at ht
    · exact .outcome (h.run (List.forall_mem_singleton.2 fun _ h => h.frame _ _) 1) ht
    · cases ht
      exact h.later le_rfl
  | _ => exact nomatch hi

end

end Sys2Proof.Safety

namespace Sys2Proof

/-! ## Host requests -/

theorem noOperands_ok {i j : Instr} {operands : List Byte} (h : noOperands i operands = .ok j) : j = i := by
  cases operands with
  | nil => exact (Except.ok.inj h).symm
  | cons b bs => cases h

theorem counted_ok {n : Nat} {bytes : List Byte} {i j : Instr} (h : counted n bytes i = .ok j) : j = i := by
  unfold counted at h
  split at h
  · exact (Except.ok.inj h).symm
  · split at h
    · cases h
    · cases h

/-- A host record stands for a host operation (R54). -/
theorem decodeHost_format {bytes : List Byte} {i : Instr} (h : decodeHost bytes = .ok i) : i.format = .host := by
  cases bytes with
  | nil => cases h
  | cons op operands =>
    simp only [decodeHost] at h
    split at h
    · unfold decodeLoad at h
      split at h
      · rw [counted_ok h]
        rfl
      · cases h
    split at h
    · rw [noOperands_ok h]
      rfl
    split at h
    · rw [noOperands_ok h]
      rfl
    split at h
    · unfold decodeSetwin at h
      split at h
      · cases h
        rfl
      · cases h
      · cases h
    split at h
    · rw [noOperands_ok h]
      rfl
    split at h
    · rw [noOperands_ok h]
      rfl
    split at h
    · rw [noOperands_ok h]
      rfl
    split at h
    · unfold decodeDcs at h
      split at h
      · rw [counted_ok h]
        rfl
      · cases h
    · cases h

end Sys2Proof

namespace Sys2Proof.Machine

open Sys2Proof.Safety

theorem decode_format_of_hostForm {c : Cfg} {r : Request} {i : Instr} (hr : hostForm r = true) (h : decode c r = .ok i) :
    i.format = .host := by
  cases r with
  | host bytes => exact decodeHost_format h
  | wire w params => cases hr
  | call p => cases hr

/-- Settles O54: a step lets time pass, takes a host request, and runs a host operation or refuses the request. -/
theorem hostStepKeepsPowerSettled : Obligations.HostStepKeepsPowerSettled := by
  intro s t h ht
  cases hreq : s.requests with
  | nil =>
    simp only [step, hreq] at ht
    cases ht
    exact h.later (Nat.le_add_right _ _)
  | cons r rest =>
    have htaken : PowerInv (taken rest s) :=
      h.later (Nat.le_add_right _ _) (hreq ▸ List.subset_cons_self r rest)
    cases hdec : decode s.cfg r with
    | ok i =>
      rw [step_of_decode_ok hreq hdec] at ht
      exact htaken.exec (decode_format_of_hostForm (h.hostOnly r (by simp [hreq])) hdec) ht
    | error e =>
      rw [step_of_decode_error hreq hdec] at ht
      cases e with
      | unknownOp op =>
        cases ht
        exact htaken.later le_rfl
      | _ => cases ht

end Sys2Proof.Machine
end

section
/-! PROOFS. FRAMEWR (spec/43_frame_transfer.md R101 to R104): the sizes of the chunks, its start-memory-write command with
either answer, its end after the last chunk or at a failed one, and the marks that follow its line write. -/

namespace Sys2Proof.Machine

open Sys2Proof.Safety

/-! ## The sizes of the chunks -/

theorem length_chunkAt (c : Cfg) (m : Memory) (len j : Nat) :
    (chunkAt c m len j).length = min c.chunk.val (len - j * c.chunk.val) :=
  Memory.length_readRange _ _ _

/-- The chunks of the schedule reach past the frame by less than one chunk. -/
theorem chunkCount_mul_lt (c : Cfg) (len : Nat) : chunkCount c len * c.chunk.val < len + c.chunk.val := by
  have hdiv : chunkCount c len * c.chunk.val ≤ len + c.chunk.val - 1 := Nat.div_mul_le_self _ _
  have hc := c.chunk.2
  omega

/-- A chunk that another one follows is full. -/
theorem length_chunkAt_of_next {c : Cfg} {len j : Nat} (m : Memory) (h : j + 1 < chunkCount c len) :
    (chunkAt c m len j).length = c.chunk.val := by
  have hnext : (j + 1) * c.chunk.val < len := (lt_chunkCount_iff c len _).1 h
  rw [Nat.succ_mul] at hnext
  rw [length_chunkAt]
  omega

/-- The last chunk has what the full ones before it leave. -/
theorem length_chunkAt_last {c : Cfg} {len j : Nat} (m : Memory) (h : j + 1 = chunkCount c len) :
    (chunkAt c m len j).length = len - (chunkCount c len - 1) * c.chunk.val := by
  have hcover := le_chunkCount_mul c len
  rw [← h, Nat.succ_mul] at hcover
  rw [length_chunkAt, ← h, Nat.add_sub_cancel]
  omega

/-- Every chunk of the schedule has a size that may be written (R70). -/
theorem length_chunkAt_bounds {c : Cfg} {len j : Nat} (m : Memory) (h : j < chunkCount c len) :
    1 ≤ (chunkAt c m len j).length ∧ (chunkAt c m len j).length ≤ c.chunk.val := by
  have hbegin : j * c.chunk.val < len := (lt_chunkCount_iff c len j).1 h
  have hc := c.chunk.2
  rw [length_chunkAt]
  omega

/-- Settles O39: the count of the chunks bounds the frame from both sides, and a chunk is full or the last. -/
theorem chunksCoverTheFrameOnce : Obligations.ChunksCoverTheFrameOnce := by
  intro c m len
  refine ⟨le_chunkCount_mul c len, chunkCount_mul_lt c len, ?_, fun j hj => ⟨?_, length_chunkAt_bounds m hj⟩⟩
  · rw [flatMap_chunkAt, min_eq_right (le_chunkCount_mul c len)]
  · split
    · next hnext => exact length_chunkAt_of_next m hnext
    · next hlast => exact length_chunkAt_last m (by omega)

/-! ## The end of FRAMEWR -/

section
variable {s t : State} {j : Nat} {rest : List Bool}

theorem wrc_marks (bytes : List Byte) (s : State) :
    (wrc bytes s).2.marks = s.marks ++ [.spiWrite s.lines.dc bytes s.env.ok] :=
  marks_append s _ _ (spiwr_trace bytes s)

theorem Streamed.fbKept (h : Streamed s t j rest) : FbKept s t :=
  fun a => ⟨by rw [h.fb], by rw [h.fb]⟩

/-- Settles O35: the state after the last chunk, completed. -/
theorem framewrStreamsTheFrame : Obligations.FramewrStreamsTheFrame := by
  intro s rest hctx hready hfbv hlen hoks
  obtain ⟨t, ht, hoff, hexec⟩ := exec_framewr_granted hctx hready hfbv hlen hoks
  have hframe := congrArg complete ht.frame
  rw [hoff] at hframe
  exact ⟨complete t, hexec, ht.time, ht.oks, ht.marks, ht.fbKept, hframe⟩

/-- A turn whose chunk lies in the array and whose write fails ends the loop before `OFF` and `COUNT` advance (R103). -/
theorem chunkLoop_failed (k : Nat) (hoff : s.off.toNat < s.len.toNat)
    (hin : s.off.toNat + chunkLen s.cfg s.len.toNat s.off.toNat ≤ fbSize s.cfg) (hok : s.env.ok = false) :
    chunkLoop (k + 1) s = .err .busError (wrc (nextChunk s) s).2 := by
  rw [chunkLoop_succ, if_pos hoff, if_pos hin, if_neg (by simp [hok])]

/-- The marks after the failed write of the next chunk. -/
theorem Streamed.failed_marks (h : Streamed s t j (false :: rest)) (hj : j * s.cfg.chunk.val < s.len.toNat) :
    (wrc (Machine.nextChunk t) t).2.marks =
      s.marks ++ frameStartMarks s.cfg ++ chunkMarks s.cfg s.fb s.len.toNat j ++
        [.spiWrite s.cfg.dcData (chunkAt s.cfg s.fb s.len.toNat j) false] := by
  rw [wrc_marks, h.marks, h.dc, h.nextChunk hj, Env.ok_of_oks _ _ _ h.oks]

/-- A chunk write moves neither `OFF` nor `COUNT`, whatever the platform answers: only the advance after it does (R101). -/
theorem Streamed.wrc_frame (h : Streamed s t j rest) (bytes : List Byte) :
    (wrc bytes t).2 = { s with
      off := t.off
      count := t.off
      lines := { s.lines with dc := s.cfg.dcData }
      trace := (wrc bytes t).2.trace
      now := (wrc bytes t).2.now
      env := (wrc bytes t).2.env
      seq := t.seq } := by
  have hframe := h.frame
  rw [hframe]
  rfl

/-- An admitted FRAMEWR of a frame in the array, its command and `j` chunks granted and the next chunk not, raises BusError
at that chunk (R103). -/
theorem exec_framewr_chunk_failed (hctx : s.ctx = true) (hready : s.pstate = .ready) (hfbv : s.fbv = true)
    (hlen : s.len.toNat ≤ fbSize s.cfg) (hj : j < chunkCount s.cfg s.len.toNat)
    (hoks : s.env.oks = List.replicate (j + 1) true ++ false :: rest) :
    ∃ t, Streamed s t j (false :: rest) ∧
      exec .framewr s = .next (raiseStatus .busError (wrc (nextChunk t) t).2) := by
  obtain ⟨t, ht, hexec⟩ := exec_framewr_streamed j hctx hready hfbv hj.le ((min_le_right _ _).trans hlen) hoks
  have hbegin : j * s.cfg.chunk.val < s.len.toNat := (lt_chunkCount_iff _ _ _).1 hj
  have hin : t.off.toNat + chunkLen t.cfg t.len.toNat t.off.toNat ≤ fbSize t.cfg := by
    rw [ht.next_end hbegin, ht.cfg]
    exact (min_le_right _ _).trans hlen
  have hturns : s.len.toNat - j = s.len.toNat - j - 1 + 1 := by
    have := chunkCount_le s.cfg s.len.toNat
    omega
  refine ⟨t, ht, ?_⟩
  rw [hexec, hturns, chunkLoop_failed _ (ht.off_lt hbegin) hin (Env.ok_of_oks _ _ _ ht.oks)]
  rfl

/-- Settles O36: the state after the chunks before the failed one, and the one write that failed. -/
theorem framewrCountsTheChunksBeforeAFailure : Obligations.FramewrCountsTheChunksBeforeAFailure := by
  intro s j rest hctx hready hfbv hlen hj hoks
  obtain ⟨t, ht, hexec⟩ := exec_framewr_chunk_failed hctx hready hfbv hlen hj hoks
  have hbegin : j * s.cfg.chunk.val < s.len.toNat := (lt_chunkCount_iff _ _ _).1 hj
  have hframe := congrArg (raiseStatus .busError) (ht.wrc_frame (nextChunk t))
  have hcount : (wrc (nextChunk t) t).2.count = t.off := ht.count
  refine ⟨_, hexec, ht.time.trans (Nat.le_add_right _ _), congrArg List.tail ht.oks, ?_, ht.failed_marks hbegin,
    ht.fbKept, ?_⟩
  · rw [raiseStatus_count, hcount, ht.off_eq hbegin]
  · rw [raiseStatus_count, hcount]
    exact hframe

/-! ## The start-memory-write command, with either answer -/

/-- An admitted FRAMEWR is its command, then the line write and the chunk loop (R101). -/
theorem exec_framewr_admitted (hadm : frameAdmitted s = true) :
    exec .framewr s =
      ((sendStep (.cmd s.cfg.opcRamwr) { resetTransfer s with seq := 2#5 }).andThen
        (runFrom 3 [plain (pinset .dc s.cfg.dcData), fun u => chunkLoop u.len.toNat u])).toOutcome := by
  rw [exec, execFramewr, if_pos hadm]
  rfl

/-- The command of an admitted FRAMEWR, whatever the platform answers: it fails and nothing follows it (R103), or it is
granted and the chunk loop begins at the data level (R101). -/
theorem exec_framewr_cases (hctx : s.ctx = true) (hready : s.pstate = .ready) (hfbv : s.fbv = true) :
    (s.env.afterLag.ok = false ∧ ∃ u,
      Sent (resetTransfer s) u (cmdMarks s.cfg s.cfg.opcRamwr false) s.cfg.dcCmd s.env.oks.tail ∧
      exec .framewr s = .next (raiseStatus .busError u)) ∨
    (s.env.afterLag.ok = true ∧ ∃ u k, Streamed s u 0 s.env.oks.tail ∧
      exec .framewr s = ((chunkLoop k u).andThen (runFrom 5 [])).toOutcome) := by
  obtain ⟨u, hu, hsent⟩ := sendStep_cases (.cmd s.cfg.opcRamwr) { resetTransfer s with seq := 2#5 }
  have hexec := exec_framewr_admitted ((frameAdmitted_iff s).2 ⟨hctx, hready, hfbv⟩)
  rw [hu] at hexec
  cases hok : s.env.afterLag.ok with
  | false =>
    rw [show (resetTransfer s).env.afterLag.ok = false from hok] at hexec hsent
    exact .inl ⟨rfl, u, hsent.of_seq, hexec⟩
  | true =>
    rw [show (resetTransfer s).env.afterLag.ok = true from hok] at hexec hsent
    have hpin := pinset_sent s.cfg.dcData { u with seq := 3#5 } _ hsent.oks
    exact .inr ⟨rfl, _, _, .of_sent (hsent.of_seq.trans (hpin.of_seq.seq 4#5)), hexec⟩

/-- Settles O37: the failing case of the command. -/
theorem framewrWithoutItsCommandSendsNothing : Obligations.FramewrWithoutItsCommandSendsNothing := by
  intro s rest hctx hready hfbv hoks
  have hno : s.env.afterLag.ok = false := Env.ok_of_oks _ _ rest hoks
  have hrest : s.env.oks.tail = rest := congrArg List.tail hoks
  rcases exec_framewr_cases hctx hready hfbv with ⟨-, u, hsent, hexec⟩ | ⟨hyes, -⟩
  · exact ⟨_, hexec, (hrest ▸ hsent).raised .busError⟩
  · exact absurd (hno.symm.trans hyes) nofun

/-! ## The select line during the chunks -/

/-- `u` is a FRAMEWR from `s` after its line write: since then there were only writes at the data level (R104). -/
structure DataWritesOnly (s u : State) : Prop where
  cfg : u.cfg = s.cfg
  dc : u.lines.dc = s.cfg.dcData
  marks : ∃ writes, u.marks = s.marks ++ frameStartMarks s.cfg ++ writes ∧ ∀ m ∈ writes, isDataWrite s.cfg m = true

theorem Streamed.dataWritesOnly (h : Streamed s t 0 rest) : DataWritesOnly s t where
  cfg := h.cfg
  dc := h.dc
  marks := ⟨[], h.marks, nofun⟩

theorem DataWritesOnly.wrc {u : State} (h : DataWritesOnly s u) (bytes : List Byte) :
    DataWritesOnly s (wrc bytes u).2 where
  cfg := h.cfg
  dc := h.dc
  marks := by
    obtain ⟨writes, hmarks, hdata⟩ := h.marks
    have hwrite : isDataWrite s.cfg (.spiWrite s.cfg.dcData bytes u.env.ok) = true := beq_self_eq_true s.cfg.dcData
    exact ⟨writes ++ [.spiWrite s.cfg.dcData bytes u.env.ok], by rw [wrc_marks, hmarks, h.dc, List.append_assoc],
      List.forall_mem_append.2 ⟨hdata, List.forall_mem_singleton.2 hwrite⟩⟩

/-- The chunk loop makes chunk writes and drives no line, whatever the platform answers. -/
theorem DataWritesOnly.chunkLoop {u : State} (h : DataWritesOnly s u) (k : Nat) :
    (chunkLoop k u).Holds (DataWritesOnly s) :=
  chunkLoop_holds (fun v hv _ _ => hv.wrc (nextChunk v))
    (fun v hv _ _ => ⟨hv.cfg, hv.dc, (hv.wrc (nextChunk v)).marks⟩) k u h

/-- How the operation ends writes neither a line nor the trace. -/
theorem dataWritesOnly_of_toOutcome {r : Res} (hr : r.Holds (DataWritesOnly s)) (ht : r.toOutcome = .next t) :
    DataWritesOnly s t := by
  rcases toOutcome_next ht with ⟨u, rfl, rfl⟩ | ⟨e, u, rfl, rfl⟩
  · exact ⟨hr.cfg, hr.dc, hr.marks⟩
  · exact ⟨hr.cfg, hr.dc, hr.marks⟩

/-- Settles O38: the command fails and nothing follows, or the chunk loop makes only writes at the data level. -/
theorem framewrHoldsTheSelectLine : Obligations.FramewrHoldsTheSelectLine := by
  intro s t hctx hready hfbv ht
  rcases exec_framewr_cases hctx hready hfbv with ⟨-, u, hsent, hexec⟩ | ⟨-, u, k, hstreamed, hexec⟩
  · rw [hexec] at ht
    cases ht
    exact .inl hsent.marks
  · rw [hexec] at ht
    have hloop : ((chunkLoop k u).andThen (runFrom 5 [])).Holds (DataWritesOnly s) :=
      Res.holds_andThen (hstreamed.dataWritesOnly.chunkLoop k) (fun _ h => h) fun _ h => ⟨h.cfg, h.dc, h.marks⟩
    have hend := dataWritesOnly_of_toOutcome hloop ht
    obtain ⟨writes, hmarks, hdata⟩ := hend.marks
    exact .inr ⟨writes, hmarks, hend.dc, hdata⟩

end

end Sys2Proof.Machine
end

section
/-! PROOFS. LOAD (spec/44_image_source_adapter.md R107 to R110): the byte swap of R109 and R113, the frame it leaves in the
array, and its two checks. -/

namespace Sys2Proof.Machine

/-! ## The address a xor 1 -/

theorem add_two_xor_one (a : Nat) : (a + 2) ^^^ 1 = (a ^^^ 1) + 2 := by
  rcases Nat.even_or_odd a with heven | hodd
  · rw [Nat.xor_one_of_even heven, Nat.xor_one_of_even (heven.add even_two)]
  · have hpos := hodd.pos
    rw [Nat.xor_one_of_odd hodd, Nat.xor_one_of_odd (hodd.add_even even_two)]
    omega

/-- The addresses below an even bound are exchanged in pairs. -/
theorem xor_one_lt_of_even {a n : Nat} (hn : n % 2 = 0) (ha : a < n) : a ^^^ 1 < n := by
  rcases Nat.even_or_odd a with heven | hodd
  · have hrem := Nat.even_iff.1 heven
    rw [Nat.xor_one_of_even heven]
    omega
  · rw [Nat.xor_one_of_odd hodd]
    omega

/-! ## The byte swap -/

/-- The swap is its own inverse; a last byte without a partner stays where it is. -/
theorem swap16_swap16 (bytes : List Byte) : swap16 (swap16 bytes) = bytes := by
  induction bytes using swap16.induct with
  | case1 b0 b1 rest ih => rw [swap16, swap16, ih]
  | case2 rest h => rw [swap16.eq_2 rest h, swap16.eq_2 rest h]

/-- The byte at `a` of the swapped sequence is the one that stood at `a xor 1` (R109). -/
theorem getElem?_swap16 {bytes : List Byte} (heven : bytes.length % 2 = 0) (a : Nat) :
    (swap16 bytes)[a]? = bytes[a ^^^ 1]? := by
  induction bytes using swap16.induct generalizing a with
  | case1 b0 b1 rest ih =>
    match a with
    | 0 => rfl
    | 1 => rfl
    | a + 2 =>
      have hrest : rest.length % 2 = 0 := by simpa only [List.length_cons, Nat.add_assoc, Nat.add_mod_right] using heven
      rw [add_two_xor_one]
      exact ih hrest a
  | case2 rest h =>
    match rest with
    | [] => rfl
    | [b] => simp at heven
    | b0 :: b1 :: rest => exact absurd rfl (h b0 b1 rest)

/-- Settles O17: induction on the pairs of the sequence. -/
theorem byteSwapIsItsOwnInverse : Obligations.ByteSwapIsItsOwnInverse :=
  fun bytes heven => ⟨swap16_swap16 bytes, length_swap16 bytes, fun a _ => getElem?_swap16 heven a⟩

/-! ## The frame in the array -/

theorem toNat_eq_sixteen_iff (bpp : Word16) : bpp.toNat = 16 ↔ bpp = 16#16 :=
  BitVec.toNat_inj (y := 16#16)

/-- The frame length at 16 bpp is even: two bytes for each pixel. -/
theorem frameLen_sixteen_mod_two (c : Cfg) : frameLen c (16#16).toNat % 2 = 0 := by
  rw [frameLen_eq]
  exact Nat.mul_mod_left _ 2

/-- The bytes of the frame: swapped at 16 bpp, in the order of the source otherwise (R109). -/
theorem getElem?_frameOf {c : Cfg} {bpp : Word16} {src : List Byte} {a : Nat} (hsrc : frameLen c bpp.toNat ≤ src.length)
    (ha : a < frameLen c bpp.toNat) : (frameOf c bpp src)[a]? = src[if bpp = 16#16 then a ^^^ 1 else a]? := by
  unfold frameOf
  split
  · next hbpp =>
    subst hbpp
    have heven := frameLen_sixteen_mod_two c
    rw [getElem?_swap16 (by rw [List.length_take, min_eq_left hsrc]; exact heven),
      List.getElem?_take_of_lt (xor_one_lt_of_even heven ha)]
  · exact List.getElem?_take_of_lt ha

/-- After a LOAD that passed its checks the array holds the bytes of the frame and no other value. -/
theorem loadFrame_read? (bpp : Word16) (src : List Byte) (s : State) (a : Nat) :
    (loadFrame bpp src s).fb.read? a = (frameOf s.cfg bpp src)[a]? := by
  rw [loadFrame, Memory.read?_fillFrom _ _ _ _ (Memory.wf_unspecified _), Memory.read?_unspecified, Nat.sub_zero]
  split
  · rfl
  · rw [List.getElem?_eq_none (by omega)]

/-- A depth of `BPP_SET` fits the register `BPP`. -/
theorem loadFrame_bpp_toNat {bpp : Word16} {s : State} (hdepth : ∃ d ∈ s.cfg.bppSet, bpp = d.setWidth 16)
    (src : List Byte) : (loadFrame bpp src s).bpp.toNat = bpp.toNat := by
  obtain ⟨d, -, rfl⟩ := hdepth
  have hd := d.isLt
  simp only [loadFrame, BitVec.toNat_setWidth]
  omega

/-- `LEN` after a LOAD that passed its checks (R107). -/
theorem loadFrame_len_toNat (bpp : Word16) (src : List Byte) (s : State) :
    (loadFrame bpp src s).len.toNat = frameLen s.cfg bpp.toNat :=
  toNat_frameLen s.cfg bpp.toNat

/-- Settles O14: the state after a LOAD that passed its checks, read byte by byte. -/
theorem loadPlacesTheFrame : Obligations.LoadPlacesTheFrame := by
  intro w h bpp src s hw hh hdepth hsrc
  have hexec := exec_load_valid ((imageValid_iff _ _ _ _).2 ⟨hw, hh, hdepth⟩) hsrc
  refine ⟨_, hexec, loadFrame_bpp_toNat hdepth src, ?_, loadFrame_len_toNat bpp src s, fun a ha => ?_, fun a ha => ?_, rfl⟩
  · rw [complete_len, loadFrame_len_toNat, frameLen_eq]
    simp only [toNat_eq_sixteen_iff]
  · rw [complete_fb, loadFrame_read?, getElem?_frameOf hsrc ha]
  · rw [complete_fb, loadFrame_read?, List.getElem?_eq_none (by rwa [length_frameOf hsrc])]

/-! ## The checks of LOAD -/

/-- A LOAD of another geometry fails the first check (R107). -/
theorem exec_load_invalid {w h : Word32} {bpp : Word16} (src : List Byte) {s : State}
    (hinvalid : ¬ imageValid s.cfg w h bpp = true) :
    exec (.load w h bpp src) s = .next (raiseStatus .validationError (loadFailed s)) := by
  rw [exec, execLoad, if_neg hinvalid]

/-- A LOAD of the panel's geometry with too few bytes fails the second (R108). -/
theorem exec_load_truncated {w h : Word32} {bpp : Word16} {src : List Byte} {s : State}
    (hvalid : imageValid s.cfg w h bpp = true) (hsrc : src.length < frameLen s.cfg bpp.toNat) :
    exec (.load w h bpp src) s = .next (raiseStatus .inputFormatError (loadFailed s)) := by
  rw [exec, execLoad, if_pos hvalid, if_pos hsrc]

/-- Settles O15: each of the three mismatches fails the validation. -/
theorem loadRejectsOtherGeometry : Obligations.LoadRejectsOtherGeometry := by
  intro w h bpp src s hother
  have hinvalid : ¬ imageValid s.cfg w h bpp = true := by
    rw [imageValid_iff]
    rintro ⟨hw, hh, d, hd, hbpp⟩
    rcases hother with hother | hother | hother
    · exact hother hw
    · exact hother hh
    · exact hother d hd hbpp
  exact ⟨_, exec_load_invalid src hinvalid, rfl⟩

/-- Settles O16: the length is checked after the validation that passed. -/
theorem loadRejectsTruncatedData : Obligations.LoadRejectsTruncatedData := by
  intro w h bpp src s hw hh hdepth hsrc
  exact ⟨_, exec_load_truncated ((imageValid_iff _ _ _ _).2 ⟨hw, hh, hdepth⟩) hsrc, rfl⟩

end Sys2Proof.Machine
end

section
/-! PROOFS. Every instruction comes to its end (spec/60_exceptions.md R122, R124, R125): the wire commands and the primitives
beside the host operations. -/

namespace Sys2Proof.Machine

/-! ## Primitives and wire commands -/

/-- What a primitive hands to its caller, done or raised, is a next state (R71). -/
theorem Res.Returns.reply {r : Res} (hr : r.Returns) : ∃ t, r.toReply = .next t := by
  cases r with
  | ok s => exact ⟨_, rfl⟩
  | err e s => exact ⟨_, rfl⟩
  | fault e => exact absurd rfl (hr e)

/-- A primitive that comes to its end with the handle does so without it too: it then only replies (R120). -/
theorem withHandle_returns {s : State} {run : State → Host.Outcome State Fault Refusal} (h : ∃ t, run s = .next t) :
    ∃ t, withHandle s run = .next t := by
  unfold withHandle
  split
  · exact h
  · exact ⟨_, rfl⟩

/-- A wire command comes to its end, whichever of its writes fails (R88). -/
theorem wireCommand_returns (opcode : Byte) (params : List Byte) (s : State) :
    ∃ t, wireCommand opcode params s = .next t :=
  withHandle_returns (sendFrame_returns opcode params s).reply

/-- An SPI write of a length that is issued comes to its end with either answer (R70). -/
theorem exec_spiwr_returns {bytes : List Byte} {s : State} (h : transferLength s.cfg bytes = true) :
    ∃ t, exec (.spiwr bytes) s = .next t := by
  rw [exec_spiwr]
  exact withHandle_returns ⟨_, if_pos h⟩

/-! ## Every instruction -/

/-- Every instruction comes to its end, where a valid frame lies in the array and an SPI write has a length that is
issued. -/
theorem exec_returns {i : Instr} {s : State} (hfits : FrameFits s)
    (hlen : ∀ bytes, i = .spiwr bytes ∨ i = .wrc bytes → transferLength s.cfg bytes = true) :
    ∃ t, exec i s = .next t := by
  cases i with
  | swreset => exact wireCommand_returns _ _ s
  | slpout => exact wireCommand_returns _ _ s
  | dispon => exact wireCommand_returns _ _ s
  | caset first last => exact wireCommand_returns _ _ s
  | paset first last => exact wireCommand_returns _ _ s
  | ramwr => exact wireCommand_returns _ _ s
  | madctl m => exact wireCommand_returns _ _ s
  | colmod m => exact wireCommand_returns _ _ s
  | cmd b =>
    rw [exec_cmd]
    exact withHandle_returns (sendStep_returns (.cmd b) s).reply
  | dat b =>
    rw [exec_dat]
    exact withHandle_returns (sendStep_returns (.dat b) s).reply
  | pinset l v =>
    rw [exec_pinset]
    exact withHandle_returns ⟨_, rfl⟩
  | pinget l =>
    rw [exec_pinget]
    exact withHandle_returns ⟨_, rfl⟩
  | delay d => exact ⟨_, rfl⟩
  | spiwr bytes => exact exec_spiwr_returns (hlen bytes (.inl rfl))
  | wrc bytes =>
    rw [exec_wrc]
    exact exec_spiwr_returns (hlen bytes (.inr rfl))
  | _ => exact exec_host_returns rfl hfits

/-- Settles O43: no sequence of an instruction stops the machine, and the effect of each leaves `SEQ` idle (R19). -/
theorem everyInstructionReturns : Obligations.EveryInstructionReturns := by
  intro i s hseq hfits hlen
  obtain ⟨t, ht⟩ := exec_returns hfits fun bytes hi => (transferLength_iff s.cfg bytes).2 (hlen bytes hi)
  exact ⟨t, ht, (exec_effect ht).seqIdle hseq⟩

end Sys2Proof.Machine
end

section
/-! PROOFS. Idle steps, and the block before its first valid image (spec/70_reset_and_hazards.md R134, R143;
spec/42_power_reset_sequencer.md R100 (d)). -/

namespace Sys2Proof.Machine

open Sys2Proof.Safety

/-! ## Idle steps -/

/-- With no request waiting the block idles (R134). -/
theorem step_of_no_request {s : State} (hreq : s.requests = []) : step s = .next (idle s) := by
  simp only [step, hreq]

/-- A step that takes no request answers no host operation. -/
theorem answersHost_of_no_request {s : State} (hreq : s.requests = []) : answersHost s = false := by
  simp only [answersHost, hreq, List.head?_nil, Option.any_none]

/-- Settles O47: the branch of `step` without a request, which answers nothing. -/
theorem idleStepOnlyLetsTimePass : Obligations.IdleStepOnlyLetsTimePass := by
  intro s hreq
  have hstep := step_of_no_request hreq
  refine ⟨hstep, ?_⟩
  simp only [resultsOf, hstep, answersHost_of_no_request hreq]
  rfl

/-! ## Before a valid image -/

section
variable {s t : State} {i : Instr}

/-- No handle, no valid frame, and among the waiting requests nothing but host operations, none a LOAD that succeeds. -/
structure NoImage (s : State) : Prop where
  closed : s.ctx = false
  noFrame : s.fbv = false
  hostOnly : HostOnly s
  noLoad : ∀ r ∈ s.requests, ∀ i, decode s.cfg r = .ok i → loadSucceeds s.cfg i = false

/-- From `s` to `t` the block stayed without handle and frame, made no platform call and changed no line. -/
structure Inert (s t : State) : Prop where
  closed : t.ctx = false
  noFrame : t.fbv = false
  trace : t.trace = s.trace
  lines : t.lines = s.lines

/-- Taking requests keeps the condition: those left are among those that waited. -/
theorem NoImage.of_inert (h : NoImage s) (hst : Inert s t) (hcfg : t.cfg = s.cfg) (hreq : t.requests ⊆ s.requests) :
    NoImage t where
  closed := hst.closed
  noFrame := hst.noFrame
  hostOnly r hr := h.hostOnly r (hreq hr)
  noLoad r hr := by
    rw [hcfg]
    exact h.noLoad r (hreq hr)

theorem Inert.of_next {o : Host.Outcome State Fault Refusal} {u : State} (ho : o = .next u) (hsu : Inert s u)
    (ht : o = .next t) : Inert s t :=
  Host.Outcome.next.inj (ho.symm.trans ht) ▸ hsu

/-- A LOAD that does not succeed fails one of its two checks, and leaves no frame (R107, R108). -/
theorem exec_load_inert {w h : Word32} {bpp : Word16} {src : List Byte} (hctx : s.ctx = false)
    (hload : loadSucceeds s.cfg (.load w h bpp src) = false) (ht : exec (.load w h bpp src) s = .next t) : Inert s t := by
  by_cases hvalid : imageValid s.cfg w h bpp = true
  · have hshort : src.length < frameLen s.cfg bpp.toNat := by simpa [loadSucceeds, hvalid] using hload
    exact .of_next (exec_load_truncated hvalid hshort) ⟨hctx, rfl, rfl, rfl⟩ ht
  · exact .of_next (exec_load_invalid src hvalid) ⟨hctx, rfl, rfl, rfl⟩ ht

/-- Without handle and frame the host operations but LOAD are refused or have nothing to release (R96, R98, R99). -/
theorem exec_host_inert (hctx : s.ctx = false) (hfbv : s.fbv = false) (hi : i.format = .host)
    (hload : loadSucceeds s.cfg i = false) (ht : exec i s = .next t) : Inert s t := by
  obtain ⟨hopen, hinit, hready, hframe⟩ := refusedOperationsChangeOnlyTheStatus s
  obtain ⟨hsetwin, hdcs⟩ := hready (.inl hctx)
  have hkept : Inert s s := ⟨hctx, hfbv, rfl, rfl⟩
  cases i with
  | load w h bpp src => exact exec_load_inert hctx hload ht
  | openBus => exact .of_next (hopen (.inr hfbv)) { hkept with } ht
  | init => exact .of_next (hinit (.inl hctx)) { hkept with } ht
  | setwin x1 y1 x2 y2 => exact .of_next (hsetwin x1 y1 x2 y2) { hkept with } ht
  | framewr => exact .of_next (hframe (.inl hctx)) { hkept with } ht
  | pwroff => exact .of_next (pwroffWithoutHandleOnlyWarns s hctx) { hkept with } ht
  | close => exact .of_next (closeWithoutHandleDoesNothing s hctx) { hkept with } ht
  | dcs opcode payload => exact .of_next (hdcs opcode payload) { hkept with } ht
  | _ => exact nomatch hi

/-- A step of such a block makes no platform call, changes no line, and leaves such a block. -/
theorem NoImage.step (h : NoImage s) (ht : step s = .next t) : NoImage t ∧ Inert s t := by
  cases hreq : s.requests with
  | nil =>
    obtain rfl := Host.Outcome.next.inj ((step_of_no_request hreq).symm.trans ht)
    have hst : Inert s (idle s) := ⟨h.closed, h.noFrame, rfl, rfl⟩
    exact ⟨h.of_inert hst rfl (List.Subset.refl _), hst⟩
  | cons r rest =>
    have hmem : r ∈ s.requests := by simp [hreq]
    have hrest : rest ⊆ s.requests := hreq ▸ List.subset_cons_self r rest
    cases hdec : decode s.cfg r with
    | ok i =>
      rw [step_of_decode_ok hreq hdec] at ht
      have heffect := exec_effect ht
      have hst := exec_host_inert (s := taken rest s) h.closed h.noFrame
        (decode_format_of_hostForm (h.hostOnly r hmem) hdec) (h.noLoad r hmem i hdec) ht
      have hst' : Inert s t := ⟨hst.closed, hst.noFrame, hst.trace, hst.lines⟩
      exact ⟨h.of_inert hst' heffect.cfg (heffect.requests ▸ hrest), hst'⟩
    | error e =>
      rw [step_of_decode_error hreq hdec] at ht
      cases e with
      | unknownOp op =>
        cases ht
        have hst : Inert s (refuse .usageError (taken rest s)) := ⟨h.closed, h.noFrame, rfl, rfl⟩
        exact ⟨h.of_inert hst rfl hrest, hst⟩
      | _ => cases ht

/-- A run of one step more is that step and then the run. -/
theorem run_succ_next {M : Host.Core} {n : Nat} {s t : M.State} (ht : M.run (n + 1) s = .next t) :
    ∃ u, M.step s = .next u ∧ M.run n u = .next t := by
  rw [Host.Core.run] at ht
  split at ht
  · next u hu => exact ⟨u, hu, ht⟩
  · cases ht
  · cases ht

/-- However many steps such a block runs, it makes no platform call and changes no line. -/
theorem NoImage.run {n : Nat} (h : NoImage s) (ht : core.run n s = .next t) : t.trace = s.trace ∧ t.lines = s.lines := by
  induction n generalizing s with
  | zero =>
    cases ht
    exact ⟨rfl, rfl⟩
  | succ n ih =>
    obtain ⟨u, hu, hrun⟩ := run_succ_next ht
    obtain ⟨hnext, hst⟩ := h.step hu
    obtain ⟨htrace, hlines⟩ := ih hnext hrun
    exact ⟨htrace.trans hst.trace, hlines.trans hst.lines⟩

end

/-- Settles O60: the condition is kept by every step. -/
theorem noPlatformCallBeforeAValidImage : Obligations.NoPlatformCallBeforeAValidImage :=
  fun _ _ _ hctx hfbv hhost hload ht => NoImage.run ⟨hctx, hfbv, hhost, hload⟩ ht

end Sys2Proof.Machine
end

section
/-! PROOFS. The minimum delays of INIT (spec/70_reset_and_hazards.md R137; spec/42_power_reset_sequencer.md R93, R94,
R100 (e)), whatever the platform answers: the entries before the soft reset, which hold the reset pulse and no write, and
those after it. -/

namespace Sys2Proof.Machine

open Sys2Proof.Safety

section
variable {c : Cfg} {s t u v : State} {r : Res} {es new : List Event} {x w hi : Nat}

/-! ## The entries of an INIT -/

/-- Where one entry drives reset low and a later one drives it high, `T_RST` lies between them (R93). -/
def PulseKept (c : Cfg) (e e' : Event) : Prop :=
  ∀ t1 t2, e = .pinSet .rst c.rstLow t1 → e' = .pinSet .rst c.rstHigh t2 → t1 + c.tRst ≤ t2

/-- The entry of an SPI write (R70). -/
def isWrite : Event → Bool
  | .spiWrite _ _ _ _ => true
  | _ => false

/-- The SPI writes among some entries, in order. -/
def writesOf (es : List Event) : List Event := es.filter isWrite

/-- An entry of INIT after its soft reset: no write of the reset line; an SPI write comes from `lo` to `hi`. -/
def LateEntry (lo hi : Nat) : Event → Prop
  | .pinSet l _ _ => l ≠ .rst
  | .spiWrite _ _ _ x => lo ≤ x ∧ x ≤ hi
  | _ => True

/-- Entries of an INIT that made its first write, the soft reset, at `x`, and its last no later than `hi`. -/
inductive ResetMade (c : Cfg) (x hi : Nat) : List Event → Prop
  | intro {before after : List Event} (ok : Bool) (hno : writesOf before = []) (hpulse : before.Pairwise (PulseKept c))
      (hx : x ≤ hi) (hlate : ∀ e ∈ after, LateEntry (x + c.tInit1) hi e) :
    ResetMade c x hi (before ++ .spiWrite c.dcCmd [c.opcSwreset] ok x :: after)

/-- Entries of an INIT, ended before its first write or after it. -/
inductive InitEntries (c : Cfg) (hi : Nat) (new : List Event) : Prop
  | unwritten (hno : writesOf new = []) (hpulse : new.Pairwise (PulseKept c))
  | written (x : Nat) (h : ResetMade c x hi new)

theorem LateEntry.mono {lo lo' hi hi' : Nat} {e : Event} (h : LateEntry lo hi e) (hlo : lo' ≤ lo) (hhi : hi ≤ hi') :
    LateEntry lo' hi' e := by
  cases e with
  | spiWrite d bytes ok x => exact ⟨hlo.trans h.1, h.2.trans hhi⟩
  | pinSet l v x => exact h
  | _ => trivial

theorem ResetMade.le_bound (h : ResetMade c x hi new) : x ≤ hi := by
  obtain ⟨-, -, -, hx, -⟩ := h
  exact hx

/-- More entries may follow the soft reset, its wait included. -/
theorem ResetMade.append {hi' : Nat} (h : ResetMade c x hi new) (hhi : hi ≤ hi')
    (hes : ∀ e ∈ es, LateEntry (x + c.tInit1) hi' e) : ResetMade c x hi' (new ++ es) := by
  obtain ⟨ok, hno, hpulse, hx, hlate⟩ := h
  rw [List.append_assoc, List.cons_append]
  refine .intro ok hno hpulse (hx.trans hhi) (List.forall_mem_append.2 ⟨fun e he => ?_, hes⟩)
  exact (hlate e he).mono le_rfl hhi

theorem ResetMade.wait (h : ResetMade c x hi new) (d t0 t1 : Nat) : ResetMade c x hi (new ++ [.wait d t0 t1]) :=
  h.append le_rfl (List.forall_mem_singleton.2 trivial)

/-! ## What the entries say about the delays -/

/-- A pulse is over only where an entry drives reset high. -/
theorem LateEntry.pulseKept {lo : Nat} {e e' : Event} (h : LateEntry lo hi e') : PulseKept c e e' := by
  rintro t1 t2 - rfl
  exact absurd rfl h

theorem ResetMade.pulseKept (h : ResetMade c x hi new) : new.Pairwise (PulseKept c) := by
  obtain ⟨ok, hno, hpulse, hx, hlate⟩ := h
  have hwrite : ∀ e, PulseKept c e (.spiWrite c.dcCmd [c.opcSwreset] ok x) := fun e => nofun
  rw [List.pairwise_append, List.pairwise_cons]
  refine ⟨hpulse, ⟨fun e he => (hlate e he).pulseKept, ?_⟩, fun e _ => ?_⟩
  · exact List.pairwise_of_forall_mem_list fun _ _ e he => (hlate e he).pulseKept
  · exact List.forall_mem_cons.2 ⟨hwrite e, fun e' he' => (hlate e' he').pulseKept⟩

/-- The reset line is low for at least `T_RST` (R93). -/
theorem InitEntries.pulse (h : InitEntries c hi new) {a b d : List Event} {t1 t2 : Nat}
    (hnew : new = a ++ .pinSet .rst c.rstLow t1 :: b ++ .pinSet .rst c.rstHigh t2 :: d) : t1 + c.tRst ≤ t2 := by
  have hpulse : new.Pairwise (PulseKept c) := by
    cases h with
    | unwritten _ hpulse => exact hpulse
    | written _ h => exact h.pulseKept
  rw [hnew] at hpulse
  obtain ⟨-, -, hcross⟩ := List.pairwise_append.1 hpulse
  exact hcross _ (by simp) _ List.mem_cons_self t1 t2 rfl rfl

theorem writesOf_append (es es' : List Event) : writesOf (es ++ es') = writesOf es ++ writesOf es' :=
  List.filter_append ..

theorem writesOf_eq_nil (h : ∀ d bytes ok u, Event.spiWrite d bytes ok u ∉ es) : writesOf es = [] := by
  refine List.filter_eq_nil_iff.2 fun e he => ?_
  cases e with
  | spiWrite d bytes ok u => exact absurd he (h d bytes ok u)
  | _ => exact Bool.false_ne_true

theorem spiWrite_mem_writesOf {d : Level} {bytes : List Byte} {ok : Bool} {u : Nat} :
    Event.spiWrite d bytes ok u ∈ writesOf es ↔ Event.spiWrite d bytes ok u ∈ es := by
  simp [writesOf, isWrite]

/-- Where no write comes before a write, it is the first of the writes. -/
theorem writesOf_first {before after : List Event} (hno : writesOf before = []) (d : Level) (bytes : List Byte) (ok : Bool)
    (u : Nat) : writesOf (before ++ .spiWrite d bytes ok u :: after) = .spiWrite d bytes ok u :: writesOf after := by
  rw [writesOf_append, hno]
  rfl

/-- The first write is the soft reset, and every later one comes at least `T_INIT1` after it (R93, R94). -/
theorem InitEntries.first (h : InitEntries c hi new) {a b : List Event} {d1 : Level} {b1 : List Byte} {k1 : Bool} {t1 : Nat}
    (hnew : new = a ++ .spiWrite d1 b1 k1 t1 :: b) (hfirst : ∀ d bytes ok u, Event.spiWrite d bytes ok u ∉ a) :
    d1 = c.dcCmd ∧ b1 = [c.opcSwreset] ∧ ∀ d2 b2 k2 t2, Event.spiWrite d2 b2 k2 t2 ∈ b → t1 + c.tInit1 ≤ t2 := by
  have hwrites : writesOf new = .spiWrite d1 b1 k1 t1 :: writesOf b := by
    rw [hnew, writesOf_first (writesOf_eq_nil hfirst)]
  cases h with
  | unwritten hno _ => exact absurd (hno.symm.trans hwrites) nofun
  | written x h =>
    obtain ⟨ok, hno, -, -, hlate⟩ := h
    rw [writesOf_first hno] at hwrites
    obtain ⟨hwrite, hafter⟩ := List.cons.inj hwrites
    obtain ⟨rfl, rfl, rfl, rfl⟩ := Event.spiWrite.inj hwrite
    refine ⟨rfl, rfl, fun d2 b2 k2 t2 hmem => ?_⟩
    rw [← spiWrite_mem_writesOf, ← hafter, spiWrite_mem_writesOf] at hmem
    exact (hlate _ hmem).1

/-- No write comes later than the bound. -/
theorem InitEntries.le_bound (h : InitEntries c hi new) {d : Level} {bytes : List Byte} {ok : Bool} {u : Nat}
    (hmem : Event.spiWrite d bytes ok u ∈ new) : u ≤ hi := by
  cases h with
  | unwritten hno _ => simp [← spiWrite_mem_writesOf, hno] at hmem
  | written x h =>
    obtain ⟨k, hno, -, hx, hlate⟩ := h
    rw [← spiWrite_mem_writesOf, writesOf_first hno, List.mem_cons, spiWrite_mem_writesOf] at hmem
    rcases hmem with hmem | hmem
    · obtain ⟨-, -, -, rfl⟩ := Event.spiWrite.inj hmem
      exact hx
    · exact (hlate _ hmem).2

/-! ## Up to the soft reset -/

/-- `u` is `s` after entries `es` of INIT before its first write, and at least `w` units after the last of them that drives
reset. -/
structure Unwritten (s u : State) (w : Nat) (es : List Event) : Prop where
  trace : u.trace = s.trace ++ es
  noWrite : writesOf es = []
  pulse : es.Pairwise (PulseKept s.cfg)
  past : ∀ v x, Event.pinSet .rst v x ∈ es → x + w ≤ u.now

/-- Time may pass, and what is not named may change. -/
theorem Unwritten.later (h : Unwritten s u w es) (htrace : v.trace = u.trace) (hnow : u.now ≤ v.now) :
    Unwritten s v w es where
  trace := htrace.trans h.trace
  noWrite := h.noWrite
  pulse := h.pulse
  past l x hx := (h.past l x hx).trans hnow

theorem Unwritten.pinset (h : Unwritten s u w es) (l : Line) (level : Level)
    (hpulse : ∀ e ∈ es, PulseKept s.cfg e (.pinSet l level u.now)) :
    Unwritten s (pinset l level u) 0 (es ++ [.pinSet l level u.now]) where
  trace := by rw [pinset_trace, h.trace, List.append_assoc]
  noWrite := by
    rw [writesOf_append, h.noWrite]
    rfl
  pulse := List.pairwise_append.2 ⟨h.pulse, List.pairwise_singleton _ _, by simpa using hpulse⟩
  past v x hx := by
    rw [pinset_now]
    rcases List.mem_append.1 hx with hx | hx
    · have := h.past v x hx
      omega
    · obtain ⟨-, -, rfl⟩ := Event.pinSet.inj (List.mem_singleton.1 hx)
      exact Nat.le_add_right _ _

theorem Unwritten.delay (h : Unwritten s u w es) (d : Nat) :
    Unwritten s (delay d u) (w + d) (es ++ [.wait d u.now (u.now + d + u.env.lag)]) where
  trace := by rw [delay_trace, h.trace, List.append_assoc]
  noWrite := by
    rw [writesOf_append, h.noWrite]
    rfl
  pulse := List.pairwise_append.2 ⟨h.pulse, List.pairwise_singleton _ _, by simp [PulseKept]⟩
  past v x hx := by
    have := h.past v x (by simpa using hx)
    rw [delay_now]
    omega

/-- Steps 1 to 6 make no SPI write and drive reset at most once (R92, R97). -/
theorem Hold.unwritten (hold : Hold s r) : r.Holds fun u => ∃ w es, Unwritten s u w es := by
  have hread : Unwritten s (powerRead s) 0 [.pinGet .pwr s.lines.pwr s.now] :=
    ⟨rfl, rfl, List.pairwise_singleton _ _, by simp⟩
  cases hold with
  | forced =>
    have hstamped : Unwritten s { powerRead s with toff := some (powerRead s).now } 0 _ := hread.later rfl le_rfl
    have hpwr := hstamped.pinset .pwr s.cfg.pwrOff (by simp [PulseKept])
    have hrst := hpwr.pinset .rst s.cfg.rstIdle (by simp [PulseKept])
    have hdc := hrst.pinset .dc s.cfg.dcIdle (by simp [PulseKept])
    exact ⟨_, _, (hdc.delay s.cfg.tSettle).later rfl le_rfl⟩
  | settled => exact ⟨_, _, hread.later rfl le_rfl⟩
  | waited => exact ⟨_, _, (hread.delay _).later rfl le_rfl⟩
  | refused => exact ⟨_, _, hread.later rfl le_rfl⟩

/-- The pulse is low for `T_RST`; a low level of the power-off sequence began before it (R93). -/
theorem Unwritten.pulsed (h : Unwritten s u w es) (hlevels : s.cfg.rstLow ≠ s.cfg.rstHigh) :
    ∃ es', Unwritten s (pulsed s.cfg u) 0 es' := by
  have hon := (h.later (v := setPstate .resetting u) rfl (Nat.le_add_right _ _)).pinset .pwr s.cfg.pwrOn
    (by simp [PulseKept])
  have hlow := hon.pinset .rst s.cfg.rstLow (by simp [PulseKept, hlevels])
  have hwaited := hlow.delay s.cfg.tRst
  refine ⟨_, hwaited.pinset .rst s.cfg.rstHigh fun e he t1 t2 hstart hend => ?_⟩
  subst hstart
  obtain ⟨-, -, rfl⟩ := Event.pinSet.inj hend
  have := hwaited.past _ _ he
  omega

/-- The soft reset, with either answer, is the first write (R93). -/
theorem Unwritten.softReset (h : Unwritten s u w es) (hcfg : u.cfg = s.cfg) :
    ∃ t new x, (sendStep (.cmd s.cfg.opcSwreset) u = .ok t ∨ sendStep (.cmd s.cfg.opcSwreset) u = .err .busError t) ∧
      t.trace = s.trace ++ new ∧ ResetMade s.cfg x t.now new := by
  have hselected := h.pinset .dc s.cfg.dcCmd (by simp [PulseKept])
  obtain ⟨v, hv⟩ : ∃ v, v = Machine.pinset .dc s.cfg.dcCmd u := ⟨_, rfl⟩
  have htrace : (spiwr [s.cfg.opcSwreset] v).2.trace = s.trace ++ (es ++ [.pinSet .dc s.cfg.dcCmd u.now] ++
      [.spiWrite s.cfg.dcCmd [s.cfg.opcSwreset] v.env.ok v.now]) := by
    rw [hv, spiwr_trace, hselected.trace, List.append_assoc]
    rfl
  refine ⟨_, _, v.now, ?_, htrace, .intro _ hselected.noWrite hselected.pulse ?_ nofun⟩
  · rw [sendStep, cmd, spiwrOrRaise, hcfg, ← hv]
    split
    · exact .inl rfl
    · exact .inr rfl
  · exact Nat.le_add_right _ _

/-! ## After the soft reset -/

/-- `u` is `s` after sends: entries that may follow the soft reset, the writes among them made since `s`. -/
def SendsSince (s u : State) : Prop :=
  ∃ es, u.trace = s.trace ++ es ∧ s.now ≤ u.now ∧ ∀ e ∈ es, LateEntry s.now u.now e

theorem SendsSince.record {e : Event} (h : SendsSince s u) (htrace : v.trace = u.trace ++ [e]) (hnow : u.now ≤ v.now)
    (he : LateEntry u.now v.now e) : SendsSince s v := by
  obtain ⟨es, hes, htime, hlate⟩ := h
  refine ⟨es ++ [e], by rw [htrace, hes, List.append_assoc], htime.trans hnow, ?_⟩
  exact List.forall_mem_append.2 ⟨fun e' he' => (hlate e' he').mono le_rfl hnow,
    List.forall_mem_singleton.2 (he.mono htime le_rfl)⟩

/-- Sends with any answers (R88). -/
theorem runFrom_sends_since (xs : List Send) (k : Nat) (s : State) :
    (runFrom k (xs.map sendStep) s).Holds (SendsSince s) := by
  refine runFrom_holds (fun _ _ h => h) _ (List.forall_mem_map.2 fun x _ u hu => ?_) k s ⟨[], by simp, le_rfl, nofun⟩
  refine sendStep_holds (fun v u h => ?_) (fun b u h => ?_) x u hu
  · exact h.record rfl (Nat.le_add_right _ _) nofun
  · exact h.record rfl (Nat.le_add_right _ _) ⟨le_rfl, Nat.le_add_right _ _⟩

/-- `u` is `s` after steps of INIT, and at least `w` units after the last write. -/
def InitTimed (s : State) (w : Nat) (u : State) : Prop :=
  ∃ new hi, u.trace = s.trace ++ new ∧ InitEntries s.cfg hi new ∧ hi + w ≤ u.now

/-- A run of INIT that keeps the delays: the last of them, `T_INIT2`, where it completes. -/
def Res.InitTimed (s : State) : Res → Prop
  | .ok u => Machine.InitTimed s s.cfg.tInit2 u
  | .err _ u => Machine.InitTimed s 0 u
  | .fault _ => True

/-- The writes that follow where `T_INIT1` has passed since the soft reset (R94). -/
theorem ResetMade.sends (h : ResetMade s.cfg x hi new) (htrace : u.trace = s.trace ++ new) (hhi : hi ≤ u.now)
    (hwaited : x + s.cfg.tInit1 ≤ u.now) (hv : SendsSince u v) :
    ∃ new', v.trace = s.trace ++ new' ∧ ResetMade s.cfg x v.now new' := by
  obtain ⟨es, hes, hnow, hlate⟩ := hv
  refine ⟨new ++ es, by rw [hes, htrace, List.append_assoc], h.append (hhi.trans hnow) fun e he => ?_⟩
  exact (hlate e he).mono hwaited le_rfl

/-- The wait of step 14 is at least `T_INIT1` long (R94). -/
theorem ResetMade.sends_after_wait (h : ResetMade s.cfg x u.now new) (htrace : u.trace = s.trace ++ new)
    (hv : SendsSince (delay s.cfg.tInit1 (setPstate .initializing u)) v) :
    ∃ new', v.trace = s.trace ++ new' ∧ ResetMade s.cfg x v.now new' := by
  have hnow : u.now + s.cfg.tInit1 ≤ (delay s.cfg.tInit1 (setPstate .initializing u)).now := by
    rw [delay_now, setPstate_now]
    omega
  have hwait := h.wait s.cfg.tInit1 (setPstate .initializing u).now (delay s.cfg.tInit1 (setPstate .initializing u)).now
  refine hwait.sends ?_ ((Nat.le_add_right _ _).trans hnow) ((Nat.add_le_add_right h.le_bound _).trans hnow) hv
  rw [delay_trace, delay_now, setPstate_trace, htrace, List.append_assoc]

/-- Steps 13 to 22 wait before the writes and, where all are granted, after them (R94). -/
theorem ResetMade.finish (h : ResetMade s.cfg x u.now new) (htrace : u.trace = s.trace ++ new) :
    (runFrom 13 (afterResetSteps s.cfg) u).InitTimed s := by
  have hsends := runFrom_sends_since (initSends s.cfg) 15 (delay s.cfg.tInit1 (setPstate .initializing u))
  rw [runFrom_afterResetSteps, finishSteps, runFrom_append]
  cases hr : runFrom 15 ((initSends s.cfg).map sendStep) (delay s.cfg.tInit1 (setPstate .initializing u)) with
  | ok v =>
    rw [hr] at hsends
    obtain ⟨new', hv, hreset⟩ := h.sends_after_wait htrace hsends
    rw [Res.andThen, runFrom_delay, runFrom_setPstate]
    refine ⟨_, v.now, ?_, .written x (hreset.wait s.cfg.tInit2 v.now (delay s.cfg.tInit2 v).now), ?_⟩
    · rw [← List.append_assoc, ← hv]
      rfl
    · exact (Nat.le_add_right _ _).trans (Nat.le_add_right _ _)
  | err e v =>
    rw [hr] at hsends
    obtain ⟨new', hv, hreset⟩ := h.sends_after_wait htrace hsends
    exact ⟨new', v.now, hv, .written x hreset, le_rfl⟩
  | fault f => trivial

/-- Steps 7 to 22 (R93, R94). -/
theorem Unwritten.bringUp (h : Unwritten s u w es) (hcfg : u.cfg = s.cfg) (hlevels : s.cfg.rstLow ≠ s.cfg.rstHigh) :
    (runFrom 7 (bringUpSteps s.cfg) u).InitTimed s := by
  obtain ⟨es', hpulsed⟩ := h.pulsed hlevels
  have hstep : Unwritten s (atStep 12#5 (Machine.pulsed s.cfg u)) 0 es' := hpulsed.later rfl le_rfl
  obtain ⟨t, new, x, ht, htrace, hreset⟩ := hstep.softReset hcfg
  rw [runFrom_bringUpSteps]
  rcases ht with ht | ht
  · rw [ht, Res.andThen]
    exact hreset.finish htrace
  · rw [ht, Res.andThen]
    exact ⟨new, t.now, htrace, .written x hreset, le_rfl⟩

/-- The three phases together. -/
theorem initRun_initTimed (hlevels : s.cfg.rstLow ≠ s.cfg.rstHigh) : (initRun s).InitTimed s := by
  have hold := holdOff_hold s
  have hunwritten := hold.unwritten
  rw [initRun_eq]
  cases hr : holdOff s with
  | ok u =>
    rw [hr] at hold hunwritten
    obtain ⟨w, es, hes⟩ := hunwritten
    rw [Res.andThen]
    exact hes.bringUp hold.held.cfg hlevels
  | err e u =>
    rw [hr] at hunwritten
    obtain ⟨w, es, hes⟩ := hunwritten
    exact ⟨es, 0, hes.trace, .unwritten hes.noWrite hes.pulse, Nat.zero_le _⟩
  | fault f => trivial

/-- An INIT that returns OK has waited `T_INIT2` after its last write; any other ends no earlier than its last write. -/
theorem exec_init_initTimed (hctx : s.ctx = true) (hoff : s.pstate = .poweredOff) (hlevels : s.cfg.rstLow ≠ s.cfg.rstHigh)
    (ht : exec .init s = .next t) : ∃ w, InitTimed s w t ∧ (t.status = .ok → w = s.cfg.tInit2) := by
  have htimed := initRun_initTimed hlevels
  have hphase := initRun_phase (s := s) (by simp [hoff])
  rw [exec, execInit, if_pos ((initAdmitted_iff s).2 ⟨hctx, hoff⟩)] at ht
  rcases toOutcome_next ht with ⟨u, hu, rfl⟩ | ⟨e, u, hu, rfl⟩
  · rw [hu] at htimed
    exact ⟨_, htimed, fun _ => rfl⟩
  · rw [hu] at htimed hphase
    exact ⟨0, htimed, fun hok => absurd hok hphase.1⟩

end

/-- Settles O23: the delays are read off what INIT recorded, of which its three phases say where the writes lie. -/
theorem initKeepsTheMinimumDelays : Obligations.InitKeepsTheMinimumDelays := by
  intro s t hctx hoff hlevels ht
  obtain ⟨w, ⟨new, hi, htrace, hentries, hend⟩, hw⟩ := exec_init_initTimed hctx hoff hlevels ht
  refine ⟨new, htrace, fun a b d t1 t2 hnew => hentries.pulse hnew,
    fun a d d1 b1 k1 t1 hnew hfirst => hentries.first hnew hfirst, fun hok d bytes ok u hmem => ?_⟩
  rw [← hw hok]
  exact (Nat.add_le_add_right (hentries.le_bound hmem) w).trans hend

end Sys2Proof.Machine
end
